-- ==== Sys2Proof/Word.lean ====
section
/-! DEFINITION. The words of SUB088-CORE: bytes, 32-bit registers, 64-bit hash words, byte strings
(spec/00_scope.md R8, R9). -/

namespace Sys2Proof

/-- One byte of DBUF or of a byte string (R9). -/
abbrev Byte := BitVec 8

/-- A 32-bit register or command word (10_state.md R32). -/
abbrev Word32 := BitVec 32

/-- A 64-bit word of SHA-512 or of an NH lane (40_primitives.md R160, 42_hash.md R232). -/
abbrev Word64 := BitVec 64

/-- A byte string: a finite sequence of bytes, byte 0 first (R9). -/
abbrev Bytes := List Byte

end Sys2Proof
end

