-- ==== Sys2Proof/Syntax.lean ====
section
/-! DEFINITION. The syntax of the command set: the one format CMD32, the seven HKDF contexts, and one
constructor of `Instr` for each row of spec/opcode_table.json (spec/30_encoding.md R100 to R108). -/

namespace Sys2Proof

/-- The five fields of a command word (R100). Any values may stand in them: `Cmd32.wellFormed` says
which are a command. -/
structure Cmd32 where
  /-- bits 7:0, the opcode -/
  op   : BitVec 8
  /-- bits 10:8, the HKDF derivation context -/
  ctx  : BitVec 3
  /-- bits 15:11, reserved -/
  res0 : BitVec 5
  /-- bits 23:16, the HKDF mode byte -/
  mode : BitVec 8
  /-- bits 31:24, reserved -/
  res1 : BitVec 8
deriving DecidableEq, Repr

/-- The HKDF derivation contexts of R107, in the order of their tag bytes 1 to 7. -/
inductive HkdfContext where
  | keyIdentifier
  | perFileEncKey
  | directKey
  | ivInoLblk64Key
  | dirhashKey
  | ivInoLblk32Key
  | inodeHashKey
deriving DecidableEq, Repr

/-- The commands: one constructor for each row of the opcode table (R105, R107). The operands stand in
A0 to A7 and in DBUF (R110), so only the MODE byte of three HKDF contexts is part of the syntax
(R102). Every term is well formed: its type leaves no room for an illegal field. -/
inductive Instr where
  /-- OP 0x01 (R210) -/
  | hchacha12
  /-- OP 0x02 (R211) -/
  | chacha12Xor
  /-- OP 0x03 (R212) -/
  | xchacha12Xor
  /-- OP 0x04 (R213) -/
  | xchacha12Stream
  /-- OP 0x10 (R236) -/
  | poly1305e
  /-- OP 0x11 (R237) -/
  | nh
  /-- OP 0x12 (R238) -/
  | adiantumHash
  /-- OP 0x20 (R270) -/
  | aes256Enc
  /-- OP 0x21 (R271) -/
  | aes256Dec
  /-- OP 0x22 (R272) -/
  | xtsEnc
  /-- OP 0x23 (R273) -/
  | xtsDec
  /-- OP 0x30 (R295) -/
  | adiantumEnc
  /-- OP 0x31 (R296) -/
  | adiantumDec
  /-- OP 0x40, CTX 1 (R320) -/
  | hkdfKeyIdentifier
  /-- OP 0x40, CTX 2 (R320) -/
  | hkdfPerFileEncKey
  /-- OP 0x40, CTX 3 (R320) -/
  | hkdfDirectKey (mode : Byte)
  /-- OP 0x40, CTX 4 (R320) -/
  | hkdfIvInoLblk64Key (mode : Byte)
  /-- OP 0x40, CTX 5 (R320) -/
  | hkdfDirhashKey
  /-- OP 0x40, CTX 6 (R320) -/
  | hkdfIvInoLblk32Key (mode : Byte)
  /-- OP 0x40, CTX 7 (R320) -/
  | hkdfInodeHashKey
  /-- OP 0x41 (R321) -/
  | aes256Cmac
  /-- OP 0x42 (R322) -/
  | cmacKdf
deriving DecidableEq, Repr

end Sys2Proof
end

