-- ==== Sys2Proof/WellFormed.lean ====
section
/-! DEFINITION. When the five fields of a command word are a command (spec/30_encoding.md R100, R105,
R106, R107). A term of `Instr` is well formed by its type; the raw fields are checked here. -/

namespace Sys2Proof

/-- The assigned opcodes (R105); every other OP is illegal (R106). -/
def assignedOpcodes : List (BitVec 8) :=
  [0x01, 0x02, 0x03, 0x04, 0x10, 0x11, 0x12, 0x20, 0x21, 0x22, 0x23, 0x30, 0x31, 0x40, 0x41, 0x42]

/-- The opcode HKDF_SHA512, the one that reads CTX and MODE (R100, R105). -/
def opHkdfSha512 : BitVec 8 := 0x40

/-- OP is in the opcode map (R105). -/
def Cmd32.opAssigned (f : Cmd32) : Bool := assignedOpcodes.contains f.op

/-- RES0 and RES1 are 0 (R100). -/
def Cmd32.reservedZero (f : Cmd32) : Bool := f.res0 == 0 && f.res1 == 0

/-- CTX is 1 to 7 for HKDF_SHA512 and 0 for every other opcode (R100, R107). -/
def Cmd32.ctxLegal (f : Cmd32) : Bool :=
  if f.op == opHkdfSha512 then f.ctx != 0 else f.ctx == 0

/-- MODE is 0 except for HKDF_SHA512 with CTX 3, 4 or 6 (R100). -/
def Cmd32.modeLegal (f : Cmd32) : Bool :=
  f.mode == 0 || (f.op == opHkdfSha512 && (f.ctx == 3 || f.ctx == 4 || f.ctx == 6))

/-- The fields are a command word that the engine does not refuse at steps 3 to 7 of
40_primitives.md R170. -/
def Cmd32.wellFormed (f : Cmd32) : Bool :=
  f.opAssigned && f.reservedZero && f.ctxLegal && f.modeLegal

end Sys2Proof
end

