-- ==== Sys2Proof/Decode.lean ====
section
/-! DEFINITION. The decoder of command words, total on every word and rejecting by name (spec/40_primitives.md
R170 steps 2 to 7), and after it the encoder (spec/30_encoding.md R100, R105, R107). -/

namespace Sys2Proof

/-- The fields of a command word (R100). -/
def Cmd32.ofWord (w : Word32) : Cmd32 where
  op   := w.extractLsb' 0 8
  ctx  := w.extractLsb' 8 3
  res0 := w.extractLsb' 11 5
  mode := w.extractLsb' 16 8
  res1 := w.extractLsb' 24 8

/-- Why a word is no command, by the error of 40_primitives.md R170 that it raises. -/
inductive DecodeError where
  /-- step 3: OP is not in the opcode map -/
  | illegalOpcode
  /-- steps 4, 5 and 7: a field that must be 0 is not -/
  | reservedField
  /-- step 6: HKDF_SHA512 with CTX 0 -/
  | illegalContext
deriving DecidableEq, Repr

/-- The opcode map of R105, but for HKDF_SHA512. -/
def plainInstr (op : BitVec 8) : Option Instr :=
  match op.toNat with
  | 0x01 => some .hchacha12
  | 0x02 => some .chacha12Xor
  | 0x03 => some .xchacha12Xor
  | 0x04 => some .xchacha12Stream
  | 0x10 => some .poly1305e
  | 0x11 => some .nh
  | 0x12 => some .adiantumHash
  | 0x20 => some .aes256Enc
  | 0x21 => some .aes256Dec
  | 0x22 => some .xtsEnc
  | 0x23 => some .xtsDec
  | 0x30 => some .adiantumEnc
  | 0x31 => some .adiantumDec
  | 0x41 => some .aes256Cmac
  | 0x42 => some .cmacKdf
  | _    => none

/-- An HKDF context that takes no MODE byte: a nonzero one is a reserved field (R170 step 7). -/
def withoutMode (mode : Byte) (i : Instr) : Except DecodeError Instr :=
  if mode = 0 then .ok i else .error .reservedField

/-- The context of an HKDF_SHA512 word (R107; R170 steps 6 and 7). -/
def decodeHkdf (ctx : BitVec 3) (mode : Byte) : Except DecodeError Instr :=
  match ctx.toNat with
  | 0 => .error .illegalContext
  | 1 => withoutMode mode .hkdfKeyIdentifier
  | 2 => withoutMode mode .hkdfPerFileEncKey
  | 3 => .ok (.hkdfDirectKey mode)
  | 4 => .ok (.hkdfIvInoLblk64Key mode)
  | 5 => withoutMode mode .hkdfDirhashKey
  | 6 => .ok (.hkdfIvInoLblk32Key mode)
  | _ => withoutMode mode .hkdfInodeHashKey

/-- Steps 3 to 7 of R170 on the fields of a word, in their order. -/
def decodeFields (f : Cmd32) : Except DecodeError Instr :=
  if f.op = opHkdfSha512 then
    if f.res0 ≠ 0 ∨ f.res1 ≠ 0 then .error .reservedField else decodeHkdf f.ctx f.mode
  else
    match plainInstr f.op with
    | none   => .error .illegalOpcode
    | some i =>
      if f.res0 ≠ 0 ∨ f.res1 ≠ 0 then .error .reservedField
      else if f.ctx ≠ 0 ∨ f.mode ≠ 0 then .error .reservedField
      else .ok i

/-- The decoder: the command of a word, or the error that R170 raises for it. -/
def decode (w : Word32) : Except DecodeError Instr := decodeFields (Cmd32.ofWord w)

/-- The host's view of the decoder on a row of the opcode table: the word whose bits are the low
`nbits` bits of `w`, all bits above them 0. There is no word of more than 32 bits (R101; log 16). -/
def decodeTableWord (nbits w : Nat) : Option Instr :=
  if w % 2 ^ nbits < 2 ^ 32 then
    match decode (BitVec.ofNat 32 (w % 2 ^ nbits)) with
    | .ok i    => some i
    | .error _ => none
  else none

/-- The word that holds the fields (R100). -/
def Cmd32.toWord (f : Cmd32) : Word32 := f.res1 ++ f.mode ++ f.res0 ++ f.ctx ++ f.op

/-- The tag byte of an HKDF context, which is its CTX (R107). -/
def HkdfContext.tag : HkdfContext → BitVec 3
  | .keyIdentifier  => 1
  | .perFileEncKey  => 2
  | .directKey      => 3
  | .ivInoLblk64Key => 4
  | .dirhashKey     => 5
  | .ivInoLblk32Key => 6
  | .inodeHashKey   => 7

/-- The fields of a command whose opcode reads neither CTX nor MODE (R100). -/
def plainFields (op : BitVec 8) : Cmd32 := { op := op, ctx := 0, res0 := 0, mode := 0, res1 := 0 }

/-- The fields of an HKDF_SHA512 command (R320). -/
def hkdfFields (c : HkdfContext) (mode : Byte) : Cmd32 :=
  { op := opHkdfSha512, ctx := c.tag, res0 := 0, mode := mode, res1 := 0 }

/-- The fields of each command (R105, R107). -/
def Instr.fields : Instr → Cmd32
  | .hchacha12            => plainFields 0x01
  | .chacha12Xor          => plainFields 0x02
  | .xchacha12Xor         => plainFields 0x03
  | .xchacha12Stream      => plainFields 0x04
  | .poly1305e            => plainFields 0x10
  | .nh                   => plainFields 0x11
  | .adiantumHash         => plainFields 0x12
  | .aes256Enc            => plainFields 0x20
  | .aes256Dec            => plainFields 0x21
  | .xtsEnc               => plainFields 0x22
  | .xtsDec               => plainFields 0x23
  | .adiantumEnc          => plainFields 0x30
  | .adiantumDec          => plainFields 0x31
  | .hkdfKeyIdentifier    => hkdfFields .keyIdentifier 0
  | .hkdfPerFileEncKey    => hkdfFields .perFileEncKey 0
  | .hkdfDirectKey m      => hkdfFields .directKey m
  | .hkdfIvInoLblk64Key m => hkdfFields .ivInoLblk64Key m
  | .hkdfDirhashKey       => hkdfFields .dirhashKey 0
  | .hkdfIvInoLblk32Key m => hkdfFields .ivInoLblk32Key m
  | .hkdfInodeHashKey     => hkdfFields .inodeHashKey 0
  | .aes256Cmac           => plainFields 0x41
  | .cmacKdf              => plainFields 0x42

/-- The encoder: the command word of a command. -/
def encode (i : Instr) : Word32 := i.fields.toWord

end Sys2Proof
end

