-- ==== Sys2Proof/Config.lean ====
section
/-! DEFINITION. What an implementation fixes and what the spec leaves free (spec/00_scope.md R6).

DBUF_SIZE and ENGINE_ID are parameters too, but the engine shows them in its read-only registers
DBUFSZ and ID, so State holds them and every statement quantifies over them (log 7). -/

namespace Sys2Proof.Config

/-- The default of ENGINE_ID that R6 gives for the spec's own examples. -/
def defaultEngineId : Word32 := 0x0C1A0007

/-- The default of DBUF_SIZE that R6 gives for the spec's own examples. -/
def defaultDbufSize : Word32 := 65536

/-- The legal values of DBUF_SIZE: "a power of two from 8192 to 65536" (R6). -/
def legalDbufSizes : List Word32 := [8192, 16384, 32768, 65536]

/-- FREE VALUE (log 4). The byte that DBUF holds at an address that nothing has written since the
reset of the given number: "a draw: any byte per address" (R6 `DBUF_RESET`, 10_state.md R45). -/
opaque dbufDraw : Nat → Nat → Byte

/-- FREE VALUE (log 5). What the bus answers to the n-th host read of the DBUF window made while
BUSY: "an unspecified 32-bit value" (20_memory.md R74). -/
opaque busyReadDraw : Nat → Word32

/-- OPEN parameter CMAC_LABEL_INLINE (R6, 45_kdf.md R318; log 14). -/
opaque cmacLabelInline : Bytes

/-- OPEN parameter CMAC_CONTEXT_INLINE (R6, 45_kdf.md R318; log 14). -/
opaque cmacContextInline : Bytes

/-- OPEN parameter CMAC_LABEL_RAW (R6, 45_kdf.md R318; log 14). -/
opaque cmacLabelRaw : Bytes

/-- OPEN parameter CMAC_CONTEXT_RAW (R6, 45_kdf.md R318; log 14). -/
opaque cmacContextRaw : Bytes

end Sys2Proof.Config
end

