-- ==== Sys2Proof/Machine/State.lean ====
section
/-! DEFINITION. The state of SUB088-CORE as plain data, what the outside world can do to it, and the
machine right after reset (spec/10_state.md, 20_memory.md R71, 70_reset_and_hazards.md R380). -/

namespace Sys2Proof.Machine

/-! ## The host's accesses and the other events -/

/-- How many bytes one bus access moves. Only `word` is served (20_memory.md R71). -/
inductive Width where
  | byte
  | half
  | word
  | double
  | burst (beats : Nat)
deriving DecidableEq, Repr

/-- A read, or a write of the given data. The data of an access that is not 32 bits wide is not kept,
because the engine never uses it (R71). -/
inductive AccessKind where
  | read
  | write (v : Word32)
deriving DecidableEq, Repr

/-- One host access of the engine's window. The offset is from ENGINE_BASE and has 17 bits because the
window has 128 KiB (R70, R76). -/
structure Access where
  offset : BitVec 17
  width  : Width
  kind   : AccessKind
deriving DecidableEq, Repr

/-- What can happen next. The order of the engine's completion against the host's accesses is open
(60_exceptions.md R349), so the engine's turn is an event of the same list (log 2). -/
inductive Event where
  /-- the host makes this access -/
  | access (a : Access)
  /-- the engine takes its step, if it has one -/
  | engineTurn
  /-- the platform drives the reset input to this level: true is asserted (70_reset_and_hazards.md R380) -/
  | resetInput (asserted : Bool)
deriving DecidableEq, Repr

/-- What the bus answers to an access (R71, R75; log 8). -/
inductive BusResponse where
  /-- a read was performed and returned this value -/
  | readData (v : Word32)
  /-- a write got its normal response, whether or not it had an effect -/
  | writeAck
  /-- the access got a bus error; a read returns the data 0 with it -/
  | busError
deriving DecidableEq, Repr

/-! ## Registers and the buffer -/

/-- The error codes (60_exceptions.md R341). Codes 8 to 255 are never produced. -/
inductive ErrorCode where
  | none
  | illegalOpcode
  | reservedField
  | illegalContext
  | length
  | range
  | aliasing
  | busyViolation
deriving DecidableEq, Repr

/-- The operand registers A0 to A7 (10_state.md R35), or their latched values (R43). -/
abbrev Operands := Vector Word32 8

/-- The command latch: "the accepted command word and the values of A0 to A7 at acceptance"
(10_state.md R43). -/
structure Latch where
  word : Word32
  x    : Operands
deriving DecidableEq, Repr

/-- The engine's phase. The latch is empty exactly in phase IDLE (10_state.md R43). -/
inductive Phase where
  | idle
  | busy (latch : Latch)
deriving DecidableEq, Repr

/-- DBUF: the bytes written since the last reset, by address. An address that is not listed holds no
written byte: it reads as a draw (`State.dbufByte`, log 4). The one canonical form is `Memory.wf`. -/
abbrev Memory := List Host.Cell

/-- The canonical form of a memory: addresses strictly rising. An unlisted address has no written
byte, so no entry can equal what an unlisted address holds (log 12). -/
abbrev Memory.wf (m : Memory) : Prop := List.Pairwise (fun x y => x.1 < y.1) m

/-! ## The state -/

/-- The state of the machine (10_state.md R30, R43), and last four fields of the model's own. -/
structure State where
  /-- ID, read-only (R33) -/
  id         : Word32
  /-- DBUFSZ, read-only (R34) -/
  dbufsz     : Word32
  /-- CTRL bit 0, DONE_IE (R36) -/
  doneIe     : Bool
  /-- CTRL bit 1, ERR_IE (R36) -/
  errIe      : Bool
  /-- STATUS bit 1, DONE (R37) -/
  done       : Bool
  /-- STATUS bit 2, ERR (R37) -/
  err        : Bool
  /-- CMD, the last processed command word (R38) -/
  cmd        : Word32
  /-- ERRCODE (R39) -/
  errcode    : ErrorCode
  /-- ERRINFO (R41) -/
  errinfo    : Word32
  /-- A0 to A7 (R35) -/
  operands   : Operands
  /-- DBUF (R40) -/
  dbuf       : Memory
  /-- the phase, which STATUS.BUSY shows, and the command latch (R43) -/
  phase      : Phase
  /-- the level of the reset input, true when asserted (70_reset_and_hazards.md R380) -/
  resetInput : Bool
  /-- THE MODEL'S: the events still to come (log 2) -/
  inbox      : List Event
  /-- THE MODEL'S: what the bus answered in the step just made (log 8) -/
  response   : Option BusResponse
  /-- THE MODEL'S: how many resets there were; selects the draws of DBUF (log 11) -/
  resetEpoch : Nat
  /-- THE MODEL'S: how many reads of DBUF while BUSY there were; selects the next draw (log 11) -/
  drawCount  : Nat
deriving DecidableEq, Repr

/-- Why the machine stops. No state that a run reaches from reset stops (40_primitives.md R175). -/
inductive Fault where
  /-- Raised by the completion step of a latched word that is no command. Safe: R170 latches commands
  only, so no run reaches such a state, and the spec gives it no step (log 10). -/
  | latchedWordIllegal
  /-- Raised by the completion step of a latched command that fails a check of R170 steps 8 to 10: a
  length, a range outside DBUF (an address that does not exist, 10_state.md R40), or an overlap. Safe:
  R170 latches accepted commands only, so no run reaches such a state (log 10). -/
  | latchedCommandNotAccepted
deriving DecidableEq, Repr

/-- Why the model has no meaning to give. -/
inductive Refusal where
  /-- Raised by an arm of `exec` whose instruction has no meaning yet. Safe: the run stops. No arm
  raises it: every instruction has its meaning. -/
  | notModelled (mnemonic : String)
deriving DecidableEq, Repr

/-- The outcome of a step of this machine. -/
abbrev Result := Host.Outcome State Fault Refusal

/-- The machine right after reset (10_state.md R45), with the default parameters of 00_scope.md R6
(log 7), the reset input released, and nothing in the inbox (log 1). -/
def State.reset : State where
  id         := Config.defaultEngineId
  dbufsz     := Config.defaultDbufSize
  doneIe     := false
  errIe      := false
  done       := false
  err        := false
  cmd        := 0
  errcode    := .none
  errinfo    := 0
  operands   := Vector.replicate 8 0
  dbuf       := []
  phase      := .idle
  resetInput := false
  inbox      := []
  response   := none
  resetEpoch := 0
  drawCount  := 0

end Sys2Proof.Machine
end

