-- ==== Sys2Proof/Machine/Flags.lean ====
section
/-! DEFINITION. The flags and the register views that are computed from the state: BUSY, the interrupt
line, and the words that CTRL, STATUS and ERRCODE read as (spec/10_state.md R36, R37, R39;
60_exceptions.md R341, R350). -/

namespace Sys2Proof.Machine

/-- STATUS.BUSY: 1 exactly in phase BUSY (10_state.md R43). -/
def State.busy (s : State) : Bool :=
  match s.phase with
  | .idle   => false
  | .busy _ => true

/-- The interrupt line: `(CTRL.DONE_IE & STATUS.DONE) | (CTRL.ERR_IE & STATUS.ERR)` (R350). -/
def State.irq (s : State) : Bool := (s.doneIe && s.done) || (s.errIe && s.err)

/-- What STATUS reads as: BUSY, DONE, ERR, IRQ, and 0 in bits 31:4 (R37). -/
def State.statusWord (s : State) : Word32 :=
  0#28 ++ BitVec.ofBool s.irq ++ BitVec.ofBool s.err ++ BitVec.ofBool s.done ++ BitVec.ofBool s.busy

/-- What CTRL reads as: DONE_IE, ERR_IE, and 0 in bits 31:2 (R36). -/
def State.ctrlWord (s : State) : Word32 := 0#30 ++ BitVec.ofBool s.errIe ++ BitVec.ofBool s.doneIe

/-- The number of an error code (R341). -/
def ErrorCode.code : ErrorCode → Byte
  | .none           => 0
  | .illegalOpcode  => 1
  | .reservedField  => 2
  | .illegalContext => 3
  | .length         => 4
  | .range          => 5
  | .aliasing       => 6
  | .busyViolation  => 7

/-- What ERRCODE reads as: CODE in bits 7:0 and 0 above (R39). -/
def State.errcodeWord (s : State) : Word32 := 0#24 ++ s.errcode.code

end Sys2Proof.Machine
end

