-- ==== Sys2Proof/Machine/Bytes.lean ====
section
/-! DEFINITION. Primitive-Core: byte strings, their encodings, 128-bit addition and subtraction, and the
doubling of GF(2^128) (spec/00_scope.md R8 to R10, 40_primitives.md R140 to R147). -/

namespace Sys2Proof.Machine

/-- `0^n`: n zero bytes (00_scope.md R9). -/
def zeroBytes (n : Nat) : Bytes := List.replicate n 0

/-- `s[a : a+n]`, cut at the end of the string (R9). -/
def slice (s : Bytes) (a n : Nat) : Bytes := (s.drop a).take n

/-- `a ^ b` on byte strings of equal length (R147). -/
def xorBytes (a b : Bytes) : Bytes := List.zipWith (· ^^^ ·) a b

/-- `le(s)`: the number that a byte string encodes little-endian (R10, R141). -/
def leNat : Bytes → Nat
  | []      => 0
  | b :: bs => b.toNat + 256 * leNat bs

/-- `LE_n(v)`: the n-byte little-endian encoding of v mod 2^(8n) (R142). -/
def leBytes : Nat → Nat → Bytes
  | 0, _     => []
  | n + 1, v => BitVec.ofNat 8 v :: leBytes n (v / 256)

/-- The number that a byte string encodes big-endian (45_kdf.md R314 `be`). -/
def beNat (s : Bytes) : Nat := leNat s.reverse

/-- The n-byte big-endian encoding of v mod 2^(8n) (R143, R161, R314). -/
def beBytes (n v : Nat) : Bytes := (leBytes n v).reverse

/-- `LE32(s, o)`: the 32-bit word at offset o of a byte string (R141). -/
def le32At (s : Bytes) (o : Nat) : Word32 := BitVec.ofNat 32 (leNat (slice s o 4))

/-- `LE64(s, o)`: the 64-bit word at offset o of a byte string (R141). -/
def le64At (s : Bytes) (o : Nat) : Word64 := BitVec.ofNat 64 (leNat (slice s o 8))

/-- `LE32(v)` of a 32-bit word (R142). -/
def le32 (v : Word32) : Bytes := leBytes 4 v.toNat

/-- `LE64(v)` of a 64-bit word (R142). -/
def le64 (v : Word64) : Bytes := leBytes 8 v.toNat

/-- `BE32(v)` (R143). -/
def be32 (v : Nat) : Bytes := beBytes 4 v

/-- `a +128 b`: little-endian addition mod 2^128 (R144). -/
def add128 (a b : Bytes) : Bytes := leBytes 16 ((leNat a + leNat b) % 2 ^ 128)

/-- `a -128 b`: little-endian subtraction mod 2^128 (R145). -/
def sub128 (a b : Bytes) : Bytes :=
  leBytes 16 (((leNat a : Int) - (leNat b : Int)) % 2 ^ 128).toNat

/-- The loop of `mulx` (R146): each byte shifted left with the carry of the one before, and the carry
out of the last. -/
def shiftLeftBytes (carry : Byte) : Bytes → Bytes × Byte
  | []      => ([], carry)
  | t :: ts =>
    let rest := shiftLeftBytes (t >>> 7) ts
    (((t <<< 1) ||| carry) :: rest.1, rest.2)

/-- Exclusive-or into byte 0 of a string. -/
def xorFirst (v : Byte) : Bytes → Bytes
  | []      => []
  | b :: bs => (b ^^^ v) :: bs

/-- `mulx(T)`: multiplication by x in GF(2^128) as XTS has it (R146). -/
def mulx (t : Bytes) : Bytes :=
  let shifted := shiftLeftBytes 0 t
  if shifted.2 = 1 then xorFirst 0x87 shifted.1 else shifted.1

/-- The consecutive pieces of n elements of a list, the last of which may be shorter. The first
argument bounds the number of pieces. -/
def chunksFuel {α : Type} (n : Nat) : Nat → List α → List (List α)
  | 0, _         => []
  | _ + 1, []    => []
  | k + 1, x :: xs => (x :: xs).take n :: chunksFuel n k ((x :: xs).drop n)

/-- The consecutive pieces of n elements of a list, the last of which may be shorter (n > 0). -/
def chunks {α : Type} (n : Nat) (l : List α) : List (List α) := chunksFuel n l.length l

/-- The least whole number of n-byte pieces that hold `size` bytes. -/
def ceilDiv (size n : Nat) : Nat := (size + n - 1) / n

end Sys2Proof.Machine
end

