-- ==== Sys2Proof/Machine/Operands.lean ====
section
/-! DEFINITION. The operands of a command: its input and output ranges, and the checks on them that do
not look at DBUF (spec/30_encoding.md R110, R111; 40_primitives.md R171 to R174). -/

namespace Sys2Proof.Machine

/-- An operand register as the unsigned number it is: an address or a length, "with no scaling, no
sign extension and no wrap" (30_encoding.md R111). -/
def reg (x : Operands) (i : Fin 8) : Nat := (x.get i).toNat

/-- A range `(a, n)` of DBUF: n bytes from address a (R171). -/
structure Range where
  addr : Nat
  size : Nat
deriving DecidableEq, Repr

/-- The range passes the range rule (R172): exact integers, no wrap. -/
def Range.fits (dbufSize : Nat) (r : Range) : Bool := r.addr + r.size ≤ dbufSize

/-- Two ranges overlap (R174). -/
def Range.overlaps (r t : Range) : Bool :=
  0 < r.size && 0 < t.size && r.addr < t.addr + t.size && t.addr < r.addr + r.size

/-- An address is inside a range. -/
def Range.mem (r : Range) (a : Nat) : Prop := r.addr ≤ a ∧ a < r.addr + r.size

/-- A command with its operands read from the registers: what the framework checks at submission and
what it computes at completion (R110, R171, R179). -/
structure Command where
  /-- the length predicate of R173 -/
  lengthOk  : Bool
  /-- the input ranges, but for the data input -/
  inputs    : List Range
  /-- the data input, the one input that the output may equal (R174) -/
  dataInput : Option Range
  /-- the output range -/
  output    : Range
  /-- the output string, given the bytes that DBUF holds at a range (R176) -/
  result    : (Range → Bytes) → Bytes

/-- Every range of the command, inputs first (R171). -/
def Command.ranges (c : Command) : List Range := c.inputs ++ c.dataInput.toList ++ [c.output]

/-- "Every input range and the output range of a command must pass" (R172). -/
def Command.rangesFit (dbufSize : Nat) (c : Command) : Bool := c.ranges.all (Range.fits dbufSize)

/-- The output overlaps no input, but that it may equal the data input exactly (R174). -/
def Command.aliasOk (c : Command) : Bool :=
  c.inputs.all (fun r => !c.output.overlaps r) &&
    c.dataInput.toList.all (fun d => d == c.output || !c.output.overlaps d)

/-- Steps 8 to 10 of R170 in their order: the error that the command raises, if any. -/
def Command.error (dbufSize : Nat) (c : Command) : Option ErrorCode :=
  if c.lengthOk = false then some .length
  else if c.rangesFit dbufSize = false then some .range
  else if c.aliasOk = false then some .aliasing
  else none

end Sys2Proof.Machine
end

