-- ==== Sys2Proof/Machine/Ops.lean ====
section
/-! DEFINITION. The named operations: the bytes of DBUF, raising an error, leaving the error state by
reset, and the framework that submits and completes a command (spec/00_scope.md R11,
40_primitives.md R170 to R176, 60_exceptions.md R343, 70_reset_and_hazards.md R380 to R383). -/

namespace Sys2Proof.Machine

/-! ## The bytes of DBUF -/

/-- The byte written at an address since the last reset, if any. -/
def Memory.read? (a : Nat) : Memory → Option Byte
  | []          => none
  | (k, v) :: m => if a = k then some v else Memory.read? a m

/-- Write one byte, keeping the addresses strictly rising. -/
def Memory.write (a : Nat) (b : Byte) : Memory → Memory
  | []          => [(a, b)]
  | (k, v) :: m =>
    if a < k then (a, b) :: (k, v) :: m
    else if a = k then (a, b) :: m
    else (k, v) :: Memory.write a b m

/-- Write a byte string from an address on. -/
def Memory.writeBytes (a : Nat) : Bytes → Memory → Memory
  | [], m      => m
  | b :: bs, m => Memory.writeBytes (a + 1) bs (Memory.write a b m)

/-- The byte that DBUF holds at an address: the byte written there since the last reset, or the draw
of the reset (10_state.md R45; log 4). -/
def State.dbufByte (s : State) (a : Nat) : Byte :=
  (Memory.read? a s.dbuf).getD (Config.dbufDraw s.resetEpoch a)

/-- `MemRead(a, n)` (00_scope.md R11). -/
def State.memRead (s : State) (r : Range) : Bytes :=
  (List.range r.size).map fun j => s.dbufByte (r.addr + j)

/-- `MemWrite(a, n, s)` (00_scope.md R11). -/
def State.memWrite (s : State) (a : Nat) (bs : Bytes) : State :=
  { s with dbuf := Memory.writeBytes a bs s.dbuf }

/-! ## Errors and reset -/

/-- `raise Error(code)` with information word `info`: the first error is recorded, ERR is set, and
nothing else changes (60_exceptions.md R343). This is all there is of taking an exception (R352). -/
def raiseError (code : ErrorCode) (info : Word32) (s : State) : State :=
  if s.err then { s with err := true }
  else { s with errcode := code, errinfo := info, err := true }

/-- Reset of the engine, by the reset input or by SRST (70_reset_and_hazards.md R380, R381): every
register and the phase take the values of 10_state.md R45, and DBUF holds draws (R382). It is the only
way out of the error state (60_exceptions.md R353). -/
def State.resetEngine (s : State) : State :=
  { State.reset with
    id := s.id, dbufsz := s.dbufsz, resetInput := s.resetInput, inbox := s.inbox,
    response := s.response, resetEpoch := s.resetEpoch + 1, drawCount := s.drawCount }

/-! ## The command framework -/

/-- Step 1 of R170: CMD takes the word and DONE is cleared. -/
def State.takeWord (w : Word32) (s : State) : State := { s with cmd := w, done := false }

/-- Submission of a word that raises an error: step 1 of R170 and then the error, whose information
word is the command word (60_exceptions.md R342). -/
def refuseWord (code : ErrorCode) (w : Word32) (s : State) : State := raiseError code w (s.takeWord w)

/-- Submission of the word of a command (R170 steps 1 and 8 to 11): the first failing check raises its
error, and a command that passes them all is latched and makes the engine BUSY. -/
def submitCommand (w : Word32) (c : Command) (s : State) : State :=
  match c.error s.dbufsz.toNat with
  | some code => refuseWord code w s
  | none      => { s.takeWord w with phase := .busy { word := w, x := s.operands } }

/-- Completion of a latched command (R176): the output is computed from the input strings, written at
the output address, the phase becomes IDLE and DONE is set, all at one instant. -/
def completeCommand (c : Command) (s : State) : Result :=
  match c.error s.dbufsz.toNat with
  | some _ => .fault .latchedCommandNotAccepted
  | none   =>
    .next { s.memWrite c.output.addr (c.result s.memRead) with phase := .idle, done := true }

/-- The two events of a command (log 3). In phase IDLE it is submitted, unless ERR is 1, when its word is
ignored (10_state.md R38). In phase BUSY it completes with the latched operands. -/
def runCommand (i : Instr) (c : Operands → Command) (s : State) : Result :=
  match s.phase with
  | .busy l => completeCommand (c l.x) s
  | .idle   => .next (if s.err then s else submitCommand (encode i) (c s.operands) s)

end Sys2Proof.Machine
end

