-- ==== Sys2Proof/Machine/Bus.lean ====
section
/-! DEFINITION. The host's window: what stands at each offset, what a read returns and what a write to
every register but CMD does (spec/10_state.md R32 to R42, 20_memory.md R71 to R76, 60_exceptions.md
R347). A write to CMD submits a command and is in Machine/Engine.lean. -/

namespace Sys2Proof.Machine

/-- What stands at an aligned offset of the window (10_state.md R32). -/
inductive Target where
  | id
  | dbufsz
  | ctrl
  | status
  | cmd
  | errcode
  | errinfo
  | operand (i : Fin 8)
  /-- the word of DBUF at this address -/
  | dbuf (a : Nat)
  /-- an offset of the DBUF window at or above DBUF_SIZE, reserved (R42) -/
  | dbufBeyond
  /-- any other reserved offset (R42) -/
  | reserved
deriving DecidableEq, Repr

/-- The offset of a host address in the window of an engine at ENGINE_BASE, a multiple of 0x20000
(20_memory.md R76; log 13). -/
def windowOffset (engineBase addr : Nat) : Option (BitVec 17) :=
  if engineBase ≤ addr ∧ addr < engineBase + 0x20000 then some (BitVec.ofNat 17 (addr - engineBase))
  else none

/-- The registers below offset 0x20 (10_state.md R32); every other offset is reserved (R42). -/
def fixedTarget (o : Nat) : Target :=
  match o with
  | 0x00 => .id
  | 0x04 => .dbufsz
  | 0x08 => .ctrl
  | 0x0C => .status
  | 0x10 => .cmd
  | 0x14 => .errcode
  | 0x18 => .errinfo
  | _    => .reserved

/-- The register map (10_state.md R32), on multiples of 4. -/
def target (dbufSize : Nat) (offset : BitVec 17) : Target :=
  let o := offset.toNat
  if 0x10000 ≤ o then
    if o < 0x10000 + dbufSize then .dbuf (o - 0x10000) else .dbufBeyond
  else if 0x20 ≤ o ∧ o < 0x40 then .operand (Fin.ofNat 8 ((o - 0x20) / 4))
  else fixedTarget o

/-- What stands at an offset of this engine's window. -/
def State.targetAt (s : State) (offset : BitVec 17) : Target := target s.dbufsz.toNat offset

/-- The 32-bit word of DBUF at an address, little-endian (20_memory.md R72). -/
def State.dbufWord (s : State) (a : Nat) : Word32 := BitVec.ofNat 32 (leNat (s.memRead ⟨a, 4⟩))

/-- The value that a read returns while it is no draw. Reserved offsets read 0 (R42). -/
def State.readTarget (s : State) : Target → Word32
  | .id         => s.id
  | .dbufsz     => s.dbufsz
  | .ctrl       => s.ctrlWord
  | .status     => s.statusWord
  | .cmd        => s.cmd
  | .errcode    => s.errcodeWord
  | .errinfo    => s.errinfo
  | .operand i  => s.operands.get i
  | .dbuf a     => s.dbufWord a
  | .dbufBeyond => 0
  | .reserved   => 0

/-- The target is a word of DBUF. -/
def Target.isDbuf : Target → Bool
  | .dbuf _ => true
  | _       => false

/-- A host read. A read of DBUF while BUSY returns a draw (20_memory.md R74; log 5); no read changes
the machine's state (R75). -/
def busRead (offset : BitVec 17) (s : State) : State :=
  let t := s.targetAt offset
  if s.busy && t.isDbuf then
    { s with response := some (.readData (Config.busyReadDraw s.drawCount)), drawCount := s.drawCount + 1 }
  else { s with response := some (.readData (s.readTarget t)) }

/-- A write to CTRL: bit 31 resets the engine and discards the other bits (10_state.md R36,
70_reset_and_hazards.md R381); otherwise bits 0 and 1 are the interrupt enables. -/
def writeCtrl (v : Word32) (s : State) : State :=
  if v.getLsbD 31 then s.resetEngine else { s with doneIe := v.getLsbD 0, errIe := v.getLsbD 1 }

/-- A write to STATUS: bit 1 clears DONE when written 1 (10_state.md R37). -/
def writeStatus (v : Word32) (s : State) : State := if v.getLsbD 1 then { s with done := false } else s

/-- The BUSY_VIOLATION of a write at an offset: the write is ignored and the error is raised with the
offset as its information word (60_exceptions.md R347). -/
def busyViolation (offset : BitVec 17) (s : State) : State :=
  raiseError .busyViolation (offset.setWidth 32) s

/-- A write of an operand register (10_state.md R35). -/
def writeOperand (i : Fin 8) (v : Word32) (s : State) : State :=
  { s with operands := s.operands.set i.val v i.isLt }

/-- A write of a word of DBUF, little-endian (20_memory.md R72). -/
def writeDbufWord (a : Nat) (v : Word32) (s : State) : State := s.memWrite a (le32 v)

/-- A host write to any target but CMD. The read-only registers and the reserved offsets below 0x10000
ignore it; A0 to A7 and the whole DBUF window raise BUSY_VIOLATION while BUSY (R33, R34, R42, R347). -/
def writeTarget (offset : BitVec 17) (t : Target) (v : Word32) (s : State) : State :=
  match t with
  | .ctrl       => writeCtrl v s
  | .status     => writeStatus v s
  | .operand i  => if s.busy then busyViolation offset s else writeOperand i v s
  | .dbuf a     => if s.busy then busyViolation offset s else writeDbufWord a v s
  | .dbufBeyond => if s.busy then busyViolation offset s else s
  | .id | .dbufsz | .cmd | .errcode | .errinfo | .reserved => s

/-- The one kind of access the engine serves: 32 bits wide and naturally aligned (20_memory.md R71). -/
def Access.served (a : Access) : Bool := a.width == .word && a.offset.toNat % 4 == 0

end Sys2Proof.Machine
end

