-- ==== Sys2Proof/Machine/Aes256.lean ====
section
/-! DEFINITION. The AES-256 block cipher and its inverse (spec/40_primitives.md R150 to R156). A state is
its 16 bytes in the order of the block: `s[r][c]` is byte r + 4c (R150). -/

namespace Sys2Proof.Machine

/-- `xtime(b)`: multiplication by x in GF(2^8) mod 0x11B (R150). -/
def xtime (b : Byte) : Byte := if b.getLsbD 7 then (b <<< 1) ^^^ 0x1B else b <<< 1

/-- The sum of `b · x^i` over the set bits i of the n low bits of `a`. -/
def gmulBits : Nat → Byte → Byte → Byte
  | 0, _, _     => 0
  | n + 1, a, b => (if a.getLsbD 0 then b else 0) ^^^ gmulBits n (a >>> 1) (xtime b)

/-- `gmul(a, b)`: the product in GF(2^8) (R150). -/
def gmul (a b : Byte) : Byte := gmulBits 8 a b

/-- The rows of SBOX, row h holding the values at indices 0xh0 to 0xhF, the first leftmost (R151). -/
def sboxRows : List Nat :=
  [0x637c777bf26b6fc53001672bfed7ab76, 0xca82c97dfa5947f0add4a2af9ca472c0,
   0xb7fd9326363ff7cc34a5e5f171d83115, 0x04c723c31896059a071280e2eb27b275,
   0x09832c1a1b6e5aa0523bd6b329e32f84, 0x53d100ed20fcb15b6acbbe394a4c58cf,
   0xd0efaafb434d338545f9027f503c9fa8, 0x51a3408f929d38f5bcb6da2110fff3d2,
   0xcd0c13ec5f974417c4a77e3d645d1973, 0x60814fdc222a908846eeb814de5e0bdb,
   0xe0323a0a4906245cc2d3ac629195e479, 0xe7c8376d8dd54ea96c56f4ea657aae08,
   0xba78252e1ca6b4c6e8dd741f4bbd8b8a, 0x703eb5664803f60e613557b986c11d9e,
   0xe1f8981169d98e949b1e87e9ce5528df, 0x8ca1890dbfe6426841992d0fb054bb16]

/-- The rows of INV_SBOX, laid out as `sboxRows` (R151). -/
def invSboxRows : List Nat :=
  [0x52096ad53036a538bf40a39e81f3d7fb, 0x7ce339829b2fff87348e4344c4dee9cb,
   0x547b9432a6c2233dee4c950b42fac34e, 0x082ea16628d924b2765ba2496d8bd125,
   0x72f8f66486689816d4a45ccc5d65b692, 0x6c704850fdedb9da5e154657a78d9d84,
   0x90d8ab008cbcd30af7e45805b8b34506, 0xd02c1e8fca3f0f02c1afbd0301138a6b,
   0x3a9111414f67dcea97f2cfcef0b4e673, 0x96ac7422e7ad3585e2f937e81c75df6e,
   0x47f11a711d29c5896fb7620eaa18be1b, 0xfc563e4bc6d279209adbc0fe78cd5af4,
   0x1fdda8338807c731b11210592780ec5f, 0x60517fa919b54a0d2de57a9f93c99cef,
   0xa0e03b4dae2af5b0c8ebbb3c83539961, 0x172b047eba77d626e169146355210c7d]

/-- The entry of a 256-byte table at index 0xhl: column l of row h (R151). -/
def tableEntry (rows : List Nat) (b : Byte) : Byte :=
  BitVec.ofNat 8 (rows.getD (b.toNat / 16) 0 >>> (8 * (15 - b.toNat % 16)))

/-- `SBOX[b]` (R151). -/
def sbox (b : Byte) : Byte := tableEntry sboxRows b

/-- `INV_SBOX[b]` (R151). -/
def invSbox (b : Byte) : Byte := tableEntry invSboxRows b

/-- `RotWord` (R152). -/
def rotWord (w : Bytes) : Bytes := w.drop 1 ++ w.take 1

/-- `SubWord` (R152). -/
def subWord (w : Bytes) : Bytes := w.map sbox

/-- `RCON` (R152). -/
def rcon : List Byte := [0x01, 0x02, 0x04, 0x08, 0x10, 0x20, 0x40]

/-- Word i of the key expansion from the words before it, newest first: `w[i-1]` is entry 0 and
`w[i-8]` is entry 7 (R152). -/
def nextKeyWord (i : Nat) (ws : List Bytes) : Bytes :=
  let t := ws.getD 0 []
  let t :=
    if i % 8 = 0 then xorBytes (subWord (rotWord t)) (rcon.getD (i / 8 - 1) 0 :: zeroBytes 3)
    else if i % 8 = 4 then subWord t
    else t
  xorBytes (ws.getD 7 []) t

/-- The key words, newest first, after `n` more of them, the next one being word i (R152). -/
def expandKeyWords : Nat → Nat → List Bytes → List Bytes
  | 0, _, ws     => ws
  | n + 1, i, ws => expandKeyWords n (i + 1) (nextKeyWord i ws :: ws)

/-- The round keys `rk[0]` to `rk[14]` of a 32-byte key (R152). -/
def aesRoundKeys (key : Bytes) : List Bytes :=
  chunks 16 (expandKeyWords 52 8 (chunks 4 key).reverse).reverse.flatten

/-- `AddRoundKey(n)` (R153). -/
def addRoundKey (rks : List Bytes) (n : Nat) (s : Bytes) : Bytes := xorBytes s (rks.getD n [])

/-- `SubBytes` (R153). -/
def subBytes (s : Bytes) : Bytes := s.map sbox

/-- `InvSubBytes` (R154). -/
def invSubBytes (s : Bytes) : Bytes := s.map invSbox

/-- `ShiftRows`: `s[r][c] <- s[r][(c + r) mod 4]` (R153). -/
def shiftRows (s : Bytes) : Bytes :=
  (List.range 16).map fun i => s.getD (i % 4 + 4 * ((i / 4 + i % 4) % 4)) 0

/-- `InvShiftRows`: `s[r][c] <- s[r][(c - r) mod 4]` (R154). -/
def invShiftRows (s : Bytes) : Bytes :=
  (List.range 16).map fun i => s.getD (i % 4 + 4 * ((i / 4 + 4 - i % 4) % 4)) 0

/-- One column of `MixColumns` (R153). -/
def mixColumn : Bytes → Bytes
  | [a0, a1, a2, a3] =>
    [gmul 2 a0 ^^^ gmul 3 a1 ^^^ a2 ^^^ a3, a0 ^^^ gmul 2 a1 ^^^ gmul 3 a2 ^^^ a3,
     a0 ^^^ a1 ^^^ gmul 2 a2 ^^^ gmul 3 a3, gmul 3 a0 ^^^ a1 ^^^ a2 ^^^ gmul 2 a3]
  | c => c

/-- One column of `InvMixColumns` (R154). -/
def invMixColumn : Bytes → Bytes
  | [a0, a1, a2, a3] =>
    [gmul 14 a0 ^^^ gmul 11 a1 ^^^ gmul 13 a2 ^^^ gmul 9 a3,
     gmul 9 a0 ^^^ gmul 14 a1 ^^^ gmul 11 a2 ^^^ gmul 13 a3,
     gmul 13 a0 ^^^ gmul 9 a1 ^^^ gmul 14 a2 ^^^ gmul 11 a3,
     gmul 11 a0 ^^^ gmul 13 a1 ^^^ gmul 9 a2 ^^^ gmul 14 a3]
  | c => c

/-- `MixColumns` (R153): a column is four consecutive bytes of the block (R150). -/
def mixColumns (s : Bytes) : Bytes := (chunks 4 s).flatMap mixColumn

/-- `InvMixColumns` (R154). -/
def invMixColumns (s : Bytes) : Bytes := (chunks 4 s).flatMap invMixColumn

/-- Rounds i to i + n - 1 of the cipher (R155). -/
def encRounds (rks : List Bytes) : Nat → Nat → Bytes → Bytes
  | 0, _, s     => s
  | n + 1, i, s => encRounds rks n (i + 1) (addRoundKey rks i (mixColumns (shiftRows (subBytes s))))

/-- Rounds n down to 1 of the inverse cipher (R156). -/
def decRounds (rks : List Bytes) : Nat → Bytes → Bytes
  | 0, s     => s
  | n + 1, s => decRounds rks n (invMixColumns (addRoundKey rks (n + 1) (invSubBytes (invShiftRows s))))

/-- `AES256_Enc(key, b)` (R155). -/
def aes256Enc (key b : Bytes) : Bytes :=
  let rks := aesRoundKeys key
  addRoundKey rks 14 (shiftRows (subBytes (encRounds rks 13 1 (addRoundKey rks 0 b))))

/-- `AES256_Dec(key, b)` (R156). -/
def aes256Dec (key b : Bytes) : Bytes :=
  let rks := aesRoundKeys key
  addRoundKey rks 0 (invSubBytes (invShiftRows (decRounds rks 13 (addRoundKey rks 14 b))))

end Sys2Proof.Machine
end

