-- ==== Sys2Proof/Machine/AesXts.lean ====
section
/-! DEFINITION. The AES-256 block and AES-256-XTS family: the commands AES256_ENC, AES256_DEC, XTS_ENC and
XTS_DEC (spec/43_aes_xts.md). The block cipher itself is Machine/Aes256.lean. -/

namespace Sys2Proof.Machine

/-! ## Functions -/

/-- The blocks of XTS from the mask T on, under the block transformation `f` (R260, R261). -/
def xtsBlocks (f : Bytes → Bytes) : Bytes → List Bytes → Bytes
  | _, []      => []
  | t, b :: bs => xorBytes (f (xorBytes b t)) t ++ xtsBlocks f (mulx t) bs

/-- The first mask `T0`: the tweak encrypted under the second half of the key (R260). -/
def xtsMask (key64 tweak : Bytes) : Bytes := aes256Enc (slice key64 32 32) tweak

/-- `XtsEnc(key64, tweak, p)` (R260). -/
def xtsEnc (key64 tweak p : Bytes) : Bytes :=
  xtsBlocks (aes256Enc (slice key64 0 32)) (xtsMask key64 tweak) (chunks 16 p)

/-- `XtsDec(key64, tweak, c)`: the same masks, the inverse cipher (R261). -/
def xtsDec (key64 tweak c : Bytes) : Bytes :=
  xtsBlocks (aes256Dec (slice key64 0 32)) (xtsMask key64 tweak) (chunks 16 c)

/-! ## Commands -/

/-- A single-block command with its operands (R270, R271). -/
def aes256Command (f : Bytes → Bytes → Bytes) (x : Operands) : Command :=
  let key : Range := ⟨reg x 0, 32⟩
  let src : Range := ⟨reg x 1, 16⟩
  { lengthOk := true
    inputs := [key]
    dataInput := some src
    output := ⟨reg x 2, 16⟩
    result := fun rd => f (rd key) (rd src) }

/-- AES256_ENC with its operands (R270). -/
def aes256EncCommand (x : Operands) : Command := aes256Command aes256Enc x

/-- AES256_DEC with its operands (R271). -/
def aes256DecCommand (x : Operands) : Command := aes256Command aes256Dec x

/-- An XTS command with its operands (R272, R273); its length predicate is of R173. -/
def xtsCommand (f : Bytes → Bytes → Bytes → Bytes) (x : Operands) : Command :=
  let key : Range := ⟨reg x 0, 64⟩
  let tweak : Range := ⟨reg x 1, 16⟩
  let src : Range := ⟨reg x 2, reg x 3⟩
  { lengthOk := reg x 3 % 16 == 0 && 16 ≤ reg x 3
    inputs := [key, tweak]
    dataInput := some src
    output := ⟨reg x 4, reg x 3⟩
    result := fun rd => f (rd key) (rd tweak) (rd src) }

/-- XTS_ENC with its operands (R272). -/
def xtsEncCommand (x : Operands) : Command := xtsCommand xtsEnc x

/-- XTS_DEC with its operands (R273). -/
def xtsDecCommand (x : Operands) : Command := xtsCommand xtsDec x

/-- AES256_ENC (R270). -/
def execAes256Enc (s : State) : Result := runCommand .aes256Enc aes256EncCommand s

/-- AES256_DEC (R271). -/
def execAes256Dec (s : State) : Result := runCommand .aes256Dec aes256DecCommand s

/-- XTS_ENC (R272). -/
def execXtsEnc (s : State) : Result := runCommand .xtsEnc xtsEncCommand s

/-- XTS_DEC (R273). -/
def execXtsDec (s : State) : Result := runCommand .xtsDec xtsDecCommand s

end Sys2Proof.Machine
end

