-- ==== Sys2Proof/Machine/StreamCipher.lean ====
section
/-! DEFINITION. The StreamCipher family: ChaCha12, HChaCha12 and XChaCha12, and the commands HCHACHA12,
CHACHA12_XOR, XCHACHA12_XOR and XCHACHA12_STREAM (spec/41_chacha.md). -/

namespace Sys2Proof.Machine

/-! ## Functions -/

/-- The ASCII bytes of "expand 32-byte k" (R200). -/
def chachaSigma : Bytes :=
  [0x65, 0x78, 0x70, 0x61, 0x6e, 0x64, 0x20, 0x33, 0x32, 0x2d, 0x62, 0x79, 0x74, 0x65, 0x20, 0x6b]

/-- The first n little-endian 32-bit words of a byte string. -/
def le32Words (n : Nat) (s : Bytes) : List Word32 := (List.range n).map fun i => le32At s (4 * i)

/-- `ChaChaInit(key, iv)`: 4 constant words, 8 key words, 4 IV words (R200). -/
def chachaInit (key iv : Bytes) : List Word32 :=
  le32Words 4 chachaSigma ++ le32Words 8 key ++ le32Words 4 iv

/-- `st[a] <- st[a] +32 st[b]; st[d] <- rotl32(st[d] ^ st[a], n)`: one half-line of the quarter round. -/
def chachaHalf (n a b d : Nat) (st : List Word32) : List Word32 :=
  let st := st.set a (st.getD a 0 + st.getD b 0)
  st.set d ((st.getD d 0 ^^^ st.getD a 0).rotateLeft n)

/-- The quarter round `QR(a, b, c, d)` (R201). -/
def quarterRound (a b c d : Nat) (st : List Word32) : List Word32 :=
  chachaHalf 7 c d b (chachaHalf 8 a b d (chachaHalf 12 c d b (chachaHalf 16 a b d st)))

/-- A column round (R202). -/
def columnRound (st : List Word32) : List Word32 :=
  quarterRound 3 7 11 15 (quarterRound 2 6 10 14 (quarterRound 1 5 9 13 (quarterRound 0 4 8 12 st)))

/-- A diagonal round (R202). -/
def diagonalRound (st : List Word32) : List Word32 :=
  quarterRound 3 4 9 14 (quarterRound 2 7 8 13 (quarterRound 1 6 11 12 (quarterRound 0 5 10 15 st)))

/-- n double rounds, each a column round and then a diagonal round (R202). -/
def doubleRounds : Nat → List Word32 → List Word32
  | 0, st     => st
  | n + 1, st => doubleRounds n (diagonalRound (columnRound st))

/-- `Permute12(st)`: 12 rounds, that is 6 double rounds (R202, 90_conflicts.md C1). -/
def permute12 (st : List Word32) : List Word32 := doubleRounds 6 st

/-- `HChaCha12(key, n16)`: words 0 to 3 and 12 to 15 of the permuted state, not added back (R203). -/
def hchacha12 (key n16 : Bytes) : Bytes :=
  let p := permute12 (chachaInit key n16)
  (p.take 4 ++ p.drop 12).flatMap le32

/-- One 64-byte block: the permuted state added to the state, word by word (R204). -/
def chachaBlock (st : List Word32) : Bytes := (List.zipWith (· + ·) (permute12 st) st).flatMap le32

/-- The block counter of words 12 and 13, low word first, one further; a carry out of word 13 is
discarded (R204, 92_eei_decisions.md D33). -/
def chachaNextBlock (st : List Word32) : List Word32 :=
  let st := st.set 12 (st.getD 12 0 + 1)
  if st.getD 12 0 = 0 then st.set 13 (st.getD 13 0 + 1) else st

/-- n consecutive blocks (R204). -/
def chachaBlocks : Nat → List Word32 → Bytes
  | 0, _      => []
  | n + 1, st => chachaBlock st ++ chachaBlocks n (chachaNextBlock st)

/-- `ChaCha12Stream(key, iv, n)`: the first n bytes of the blocks (R204). -/
def chacha12Stream (key iv : Bytes) (n : Nat) : Bytes :=
  (chachaBlocks (ceilDiv n 64) (chachaInit key iv)).take n

/-- `XChaCha12Stream(key, nonce, n)` for a 24-byte nonce (R205). -/
def xchacha12Stream (key nonce : Bytes) (n : Nat) : Bytes :=
  chacha12Stream (hchacha12 key (nonce.take 16)) (zeroBytes 8 ++ slice nonce 16 8) n

/-! ## Commands -/

/-- HCHACHA12 with its operands (R210). -/
def hchacha12Command (x : Operands) : Command :=
  let key : Range := ⟨reg x 0, 32⟩
  let nonce : Range := ⟨reg x 1, 16⟩
  { lengthOk := true
    inputs := [key, nonce]
    dataInput := none
    output := ⟨reg x 2, 32⟩
    result := fun rd => hchacha12 (rd key) (rd nonce) }

/-- CHACHA12_XOR with its operands (R211). -/
def chacha12XorCommand (x : Operands) : Command :=
  let key : Range := ⟨reg x 0, 32⟩
  let iv : Range := ⟨reg x 1, 16⟩
  let src : Range := ⟨reg x 2, reg x 3⟩
  { lengthOk := true
    inputs := [key, iv]
    dataInput := some src
    output := ⟨reg x 4, reg x 3⟩
    result := fun rd => xorBytes (rd src) (chacha12Stream (rd key) (rd iv) (reg x 3)) }

/-- XCHACHA12_XOR with its operands (R212). -/
def xchacha12XorCommand (x : Operands) : Command :=
  let key : Range := ⟨reg x 0, 32⟩
  let nonce : Range := ⟨reg x 1, 24⟩
  let src : Range := ⟨reg x 2, reg x 3⟩
  { lengthOk := true
    inputs := [key, nonce]
    dataInput := some src
    output := ⟨reg x 4, reg x 3⟩
    result := fun rd => xorBytes (rd src) (xchacha12Stream (rd key) (rd nonce) (reg x 3)) }

/-- XCHACHA12_STREAM with its operands; A2 is ignored (R213). -/
def xchacha12StreamCommand (x : Operands) : Command :=
  let key : Range := ⟨reg x 0, 32⟩
  let nonce : Range := ⟨reg x 1, 24⟩
  { lengthOk := true
    inputs := [key, nonce]
    dataInput := none
    output := ⟨reg x 4, reg x 3⟩
    result := fun rd => xchacha12Stream (rd key) (rd nonce) (reg x 3) }

/-- HCHACHA12 (R210). -/
def execHchacha12 (s : State) : Result := runCommand .hchacha12 hchacha12Command s

/-- CHACHA12_XOR (R211). -/
def execChacha12Xor (s : State) : Result := runCommand .chacha12Xor chacha12XorCommand s

/-- XCHACHA12_XOR (R212). -/
def execXchacha12Xor (s : State) : Result := runCommand .xchacha12Xor xchacha12XorCommand s

/-- XCHACHA12_STREAM (R213). -/
def execXchacha12Stream (s : State) : Result := runCommand .xchacha12Stream xchacha12StreamCommand s

end Sys2Proof.Machine
end

