-- ==== Sys2Proof/Machine/UniversalHash.lean ====
section
/-! DEFINITION. The UniversalHash family: Poly1305-ε, NH and the Adiantum hash, and the commands
POLY1305E, NH and ADIANTUM_HASH (spec/42_hash.md). -/

namespace Sys2Proof.Machine

/-! ## Functions -/

/-- The clamp of the Poly1305 key (R230). -/
def poly1305Clamp : Nat := 0x0ffffffc0ffffffc0ffffffc0fffffff

/-- The prime `2^130 - 5` (R230). -/
def poly1305Prime : Nat := 2 ^ 130 - 5

/-- One chunk of 1 to 16 bytes: `h <- ((h + le(c) + 2^(8|c|)) · r) mod p` (R230). -/
def poly1305Step (r h : Nat) (c : Bytes) : Nat :=
  ((h + (leNat c + 2 ^ (8 * c.length))) * r) % poly1305Prime

/-- `Poly1305e(k16, msg)` (R230). -/
def poly1305e (k16 msg : Bytes) : Bytes :=
  leBytes 16 ((chunks 16 msg).foldl (poly1305Step (leNat k16 &&& poly1305Clamp)) 0)

/-- The product of two 32-bit words as a 64-bit word (R232). -/
def mulWide (a b : Word32) : Word64 := a.setWidth 64 * b.setWidth 64

/-- What the 16-byte message chunk at offset 16u adds to the lane whose key window starts at word o
(R232). -/
def nhTerm (kNH m : Bytes) (u o : Nat) : Word64 :=
  let k := fun i => le32At kNH (4 * (o + i))
  let w := fun i => le32At m (16 * u + 4 * i)
  mulWide (w 0 + k 0) (w 2 + k 2) + mulWide (w 1 + k 1) (w 3 + k 3)

/-- Lane j of NH: the sum over the chunks, the key window sliding by 4 words (R232). -/
def nhLane (kNH m : Bytes) (j : Nat) : Word64 :=
  (List.range (m.length / 16)).foldl (fun sum u => sum + nhTerm kNH m u (4 * u + 4 * j)) 0

/-- `NH(kNH, m)`: four 64-bit lanes (R232). -/
def nh (kNH m : Bytes) : Bytes := (List.range 4).flatMap fun j => le64 (nhLane kNH m j)

/-- The 48-byte header of the Adiantum hash (R234, 90_conflicts.md C2). -/
def adiantumHeader (iv msg : Bytes) : Bytes := leBytes 8 (8 * msg.length) ++ leBytes 8 0 ++ iv

/-- The message padded with zeros to a 16-byte boundary (R234, 90_conflicts.md C4). -/
def adiantumPad (msg : Bytes) : Bytes := msg ++ zeroBytes ((16 - msg.length % 16) % 16)

/-- The NH digests of the blocks of up to 1024 bytes of a padded message (R234). -/
def nhDigests (kNH m : Bytes) : Bytes := (chunks 1024 m).flatMap (nh kNH)

/-- `AdiantumHash(kH, iv, msg)` for a 1104-byte hash key (R234). -/
def adiantumHash (kH iv msg : Bytes) : Bytes :=
  let h1 := poly1305e (slice kH 0 16) (adiantumHeader iv msg)
  let h2 := poly1305e (slice kH 16 16) (nhDigests (slice kH 32 1072) (adiantumPad msg))
  add128 h1 h2

/-! ## Commands -/

/-- POLY1305E with its operands (R236). -/
def poly1305eCommand (x : Operands) : Command :=
  let key : Range := ⟨reg x 0, 16⟩
  let msg : Range := ⟨reg x 1, reg x 2⟩
  { lengthOk := true
    inputs := [key, msg]
    dataInput := none
    output := ⟨reg x 3, 16⟩
    result := fun rd => poly1305e (rd key) (rd msg) }

/-- NH with its operands (R237); its length predicate is of R173. -/
def nhCommand (x : Operands) : Command :=
  let key : Range := ⟨reg x 0, 1072⟩
  let msg : Range := ⟨reg x 1, reg x 2⟩
  { lengthOk := reg x 2 % 16 == 0 && 16 ≤ reg x 2 && reg x 2 ≤ 1024
    inputs := [key, msg]
    dataInput := none
    output := ⟨reg x 3, 32⟩
    result := fun rd => nh (rd key) (rd msg) }

/-- ADIANTUM_HASH with its operands (R238). -/
def adiantumHashCommand (x : Operands) : Command :=
  let key : Range := ⟨reg x 0, 1104⟩
  let iv : Range := ⟨reg x 1, 32⟩
  let msg : Range := ⟨reg x 2, reg x 3⟩
  { lengthOk := true
    inputs := [key, iv, msg]
    dataInput := none
    output := ⟨reg x 4, 16⟩
    result := fun rd => adiantumHash (rd key) (rd iv) (rd msg) }

/-- POLY1305E (R236). -/
def execPoly1305e (s : State) : Result := runCommand .poly1305e poly1305eCommand s

/-- NH (R237). -/
def execNh (s : State) : Result := runCommand .nh nhCommand s

/-- ADIANTUM_HASH (R238). -/
def execAdiantumHash (s : State) : Result := runCommand .adiantumHash adiantumHashCommand s

end Sys2Proof.Machine
end

