-- ==== Sys2Proof/Machine/Adiantum.lean ====
section
/-! DEFINITION. The Adiantum family: the commands ADIANTUM_ENC and ADIANTUM_DEC (spec/44_adiantum.md). -/

namespace Sys2Proof.Machine

/-! ## Functions -/

/-- `SUBKEY_NONCE`: byte 0 is 1 and the others are 0 (R290, 92_eei_decisions.md D34). -/
def adiantumSubkeyNonce : Bytes := 0x01 :: zeroBytes 23

/-- The 1136 bytes of keystream that hold the subkeys (R290). -/
def adiantumSubkeys (k : Bytes) : Bytes := xchacha12Stream k adiantumSubkeyNonce 1136

/-- `KE`, the AES-256 subkey (R290). -/
def adiantumKE (k : Bytes) : Bytes := slice (adiantumSubkeys k) 0 32

/-- `KH`, the hash subkey (R290). -/
def adiantumKH (k : Bytes) : Bytes := slice (adiantumSubkeys k) 32 1104

/-- `BulkNonce(CM)`: CM, then 01, then 7 zero bytes (R292, 92_eei_decisions.md D35). -/
def adiantumBulkNonce (cm : Bytes) : Bytes := cm ++ [0x01] ++ zeroBytes 7

/-- The bulk part under the middle block CM: exclusive-or with the keystream of the caller's key (R291
step 5). -/
def adiantumBulk (k cm bulk : Bytes) : Bytes :=
  xorBytes bulk (xchacha12Stream k (adiantumBulkNonce cm) bulk.length)

/-- `AdiantumEnc(K, iv, P)` (R291). -/
def adiantumEnc (k iv p : Bytes) : Bytes :=
  let pl := p.take (p.length - 16)
  let pr := p.drop (p.length - 16)
  let pm := add128 pr (adiantumHash (adiantumKH k) iv pl)
  let cm := aes256Enc (adiantumKE k) pm
  let cl := adiantumBulk k cm pl
  let cr := sub128 cm (adiantumHash (adiantumKH k) iv cl)
  cl ++ cr

/-- `AdiantumDec(K, iv, C)` (R293). -/
def adiantumDec (k iv c : Bytes) : Bytes :=
  let cl := c.take (c.length - 16)
  let cr := c.drop (c.length - 16)
  let cm := add128 cr (adiantumHash (adiantumKH k) iv cl)
  let pl := adiantumBulk k cm cl
  let pm := aes256Dec (adiantumKE k) cm
  let pr := sub128 pm (adiantumHash (adiantumKH k) iv pl)
  pl ++ pr

/-! ## Commands -/

/-- An Adiantum command with its operands (R295, R296); its length predicate is of R173. -/
def adiantumCommand (f : Bytes → Bytes → Bytes → Bytes) (x : Operands) : Command :=
  let key : Range := ⟨reg x 0, 32⟩
  let iv : Range := ⟨reg x 1, 32⟩
  let src : Range := ⟨reg x 2, reg x 3⟩
  { lengthOk := 16 ≤ reg x 3
    inputs := [key, iv]
    dataInput := some src
    output := ⟨reg x 4, reg x 3⟩
    result := fun rd => f (rd key) (rd iv) (rd src) }

/-- ADIANTUM_ENC with its operands (R295). -/
def adiantumEncCommand (x : Operands) : Command := adiantumCommand adiantumEnc x

/-- ADIANTUM_DEC with its operands (R296). -/
def adiantumDecCommand (x : Operands) : Command := adiantumCommand adiantumDec x

/-- ADIANTUM_ENC (R295). -/
def execAdiantumEnc (s : State) : Result := runCommand .adiantumEnc adiantumEncCommand s

/-- ADIANTUM_DEC (R296). -/
def execAdiantumDec (s : State) : Result := runCommand .adiantumDec adiantumDecCommand s

end Sys2Proof.Machine
end

