-- ==== Sys2Proof/Machine/Sha512.lean ====
section
/-! DEFINITION. SHA-512, HMAC-SHA512 and HKDF-SHA512 (spec/40_primitives.md R160 to R166). -/

namespace Sys2Proof.Machine

/-- `H0[0..7]` (R160). -/
def sha512H0 : List Word64 :=
  [0x6a09e667f3bcc908, 0xbb67ae8584caa73b,
   0x3c6ef372fe94f82b, 0xa54ff53a5f1d36f1] ++
  [0x510e527fade682d1, 0x9b05688c2b3e6c1f,
   0x1f83d9abfb41bd6b, 0x5be0cd19137e2179]

/-- The table of R160, row by row: row r holds `K[4r]` to `K[4r+3]`. -/
def sha512KTable : List (List Word64) :=
  [[0x428a2f98d728ae22, 0x7137449123ef65cd, 0xb5c0fbcfec4d3b2f, 0xe9b5dba58189dbbc],
   [0x3956c25bf348b538, 0x59f111f1b605d019, 0x923f82a4af194f9b, 0xab1c5ed5da6d8118],
   [0xd807aa98a3030242, 0x12835b0145706fbe, 0x243185be4ee4b28c, 0x550c7dc3d5ffb4e2],
   [0x72be5d74f27b896f, 0x80deb1fe3b1696b1, 0x9bdc06a725c71235, 0xc19bf174cf692694],
   [0xe49b69c19ef14ad2, 0xefbe4786384f25e3, 0x0fc19dc68b8cd5b5, 0x240ca1cc77ac9c65],
   [0x2de92c6f592b0275, 0x4a7484aa6ea6e483, 0x5cb0a9dcbd41fbd4, 0x76f988da831153b5],
   [0x983e5152ee66dfab, 0xa831c66d2db43210, 0xb00327c898fb213f, 0xbf597fc7beef0ee4],
   [0xc6e00bf33da88fc2, 0xd5a79147930aa725, 0x06ca6351e003826f, 0x142929670a0e6e70],
   [0x27b70a8546d22ffc, 0x2e1b21385c26c926, 0x4d2c6dfc5ac42aed, 0x53380d139d95b3df],
   [0x650a73548baf63de, 0x766a0abb3c77b2a8, 0x81c2c92e47edaee6, 0x92722c851482353b],
   [0xa2bfe8a14cf10364, 0xa81a664bbc423001, 0xc24b8b70d0f89791, 0xc76c51a30654be30],
   [0xd192e819d6ef5218, 0xd69906245565a910, 0xf40e35855771202a, 0x106aa07032bbd1b8],
   [0x19a4c116b8d2d0c8, 0x1e376c085141ab53, 0x2748774cdf8eeb99, 0x34b0bcb5e19b48a8],
   [0x391c0cb3c5c95a63, 0x4ed8aa4ae3418acb, 0x5b9cca4f7763e373, 0x682e6ff3d6b2b8a3],
   [0x748f82ee5defb2fc, 0x78a5636f43172f60, 0x84c87814a1f0ab72, 0x8cc702081a6439ec],
   [0x90befffa23631e28, 0xa4506cebde82bde9, 0xbef9a3f7b2c67915, 0xc67178f2e372532b],
   [0xca273eceea26619c, 0xd186b8c721c0c207, 0xeada7dd6cde0eb1e, 0xf57d4f7fee6ed178],
   [0x06f067aa72176fba, 0x0a637dc5a2c898a6, 0x113f9804bef90dae, 0x1b710b35131c471b],
   [0x28db77f523047d84, 0x32caab7b40c72493, 0x3c9ebe0a15c9bebc, 0x431d67c49c100d4c],
   [0x4cc5d4becb3e42b6, 0x597f299cfc657e2a, 0x5fcb6fab3ad6faec, 0x6c44198c4a475817]]

/-- `K[0..79]` (R160). -/
def sha512K : List Word64 := sha512KTable.flatten

/-- The padded message (R161): z is the least number with |M| + 1 + z + 16 a multiple of 128. -/
def sha512Pad (m : Bytes) : Bytes :=
  m ++ [0x80] ++ zeroBytes ((128 - (m.length + 17) % 128) % 128) ++ beBytes 16 (8 * m.length)

/-- The 16 big-endian 64-bit words of a block (R161). -/
def sha512Words (block : Bytes) : List Word64 :=
  (chunks 8 block).map fun c => BitVec.ofNat 64 (beNat c)

/-- `σ0` (R162). -/
def smallSigma0 (x : Word64) : Word64 := x.rotateRight 1 ^^^ x.rotateRight 8 ^^^ (x >>> 7)

/-- `σ1` (R162). -/
def smallSigma1 (x : Word64) : Word64 := x.rotateRight 19 ^^^ x.rotateRight 61 ^^^ (x >>> 6)

/-- `Σ0` (R163). -/
def bigSigma0 (x : Word64) : Word64 := x.rotateRight 28 ^^^ x.rotateRight 34 ^^^ x.rotateRight 39

/-- `Σ1` (R163). -/
def bigSigma1 (x : Word64) : Word64 := x.rotateRight 14 ^^^ x.rotateRight 18 ^^^ x.rotateRight 41

/-- n more words of the message schedule, newest first: `W[t-2]`, `W[t-7]`, `W[t-15]` and `W[t-16]` are
entries 1, 6, 14 and 15 (R162). -/
def extendSchedule : Nat → List Word64 → List Word64
  | 0, ws     => ws
  | n + 1, ws =>
    extendSchedule n
      ((smallSigma1 (ws.getD 1 0) + ws.getD 6 0 + smallSigma0 (ws.getD 14 0) + ws.getD 15 0) :: ws)

/-- `W[0..79]` of a block (R162). -/
def sha512Schedule (block : Bytes) : List Word64 :=
  (extendSchedule 64 (sha512Words block).reverse).reverse

/-- `ch`: each bit of f or of g, as the bit of e chooses (R163). -/
def choose (e f g : Word64) : Word64 := (e &&& f) ^^^ (~~~e &&& g)

/-- `maj`: the majority of each three bits (R163). -/
def majority (a b c : Word64) : Word64 := (a &&& b) ^^^ (a &&& c) ^^^ (b &&& c)

/-- `T1` of a round, given the working variables (a, ..., h) and `K[t] + W[t]` (R163). -/
def roundT1 (v : List Word64) (kw : Word64) : Word64 :=
  v.getD 7 0 + bigSigma1 (v.getD 4 0) + choose (v.getD 4 0) (v.getD 5 0) (v.getD 6 0) + kw

/-- `T2` of a round, given the working variables (R163). -/
def roundT2 (v : List Word64) : Word64 :=
  bigSigma0 (v.getD 0 0) + majority (v.getD 0 0) (v.getD 1 0) (v.getD 2 0)

/-- One round of the compression on the working variables, given `K[t] + W[t]` (R163): a to c and e to g
move on by one place, and the new a and the new e come in before them. -/
def sha512Round (v : List Word64) (kw : Word64) : List Word64 :=
  let t1 := roundT1 v kw
  (t1 + roundT2 v) :: v.take 3 ++ (v.getD 3 0 + t1) :: (v.drop 4).take 3

/-- The compression of one block into `H[0..7]` (R163). -/
def sha512Compress (h : List Word64) (block : Bytes) : List Word64 :=
  List.zipWith (· + ·) h
    ((List.zipWith (· + ·) sha512K (sha512Schedule block)).foldl sha512Round h)

/-- `SHA512(M)` (R163). -/
def sha512 (m : Bytes) : Bytes :=
  ((chunks 128 (sha512Pad m)).foldl sha512Compress sha512H0).flatMap fun w => beBytes 8 w.toNat

/-- `K0` of HMAC: the key, hashed if it is longer than a block, padded with zeros to 128 bytes (R165). -/
def hmacKey (k : Bytes) : Bytes :=
  let k' := if k.length > 128 then sha512 k else k
  k' ++ zeroBytes (128 - k'.length)

/-- `HMAC(k, m)` with SHA-512 (R165). -/
def hmac (k m : Bytes) : Bytes :=
  let k0 := hmacKey k
  sha512 (xorBytes k0 (List.replicate 128 0x5C) ++ sha512 (xorBytes k0 (List.replicate 128 0x36) ++ m))

/-- The blocks `T` of HKDF-Expand: n of them, the next one numbered i, after the block t (R166). -/
def hkdfBlocks (prk info : Bytes) : Nat → Nat → Bytes → Bytes
  | 0, _, _     => []
  | n + 1, i, t =>
    let t' := hmac prk (t ++ info ++ [BitVec.ofNat 8 i])
    t' ++ hkdfBlocks prk info n (i + 1) t'

/-- `HKDF(ikm, info, n)` with SHA-512 and empty salt (R166). -/
def hkdf (ikm info : Bytes) (n : Nat) : Bytes :=
  (hkdfBlocks (hmac [] ikm) info (ceilDiv n 64) 1 []).take n

end Sys2Proof.Machine
end

