-- ==== Sys2Proof/Machine/KeyDerivation.lean ====
section
/-! DEFINITION. The KeyDerivationTree family: the seven contexts of HKDF_SHA512, AES256_CMAC and CMAC_KDF
(spec/45_kdf.md). HKDF itself is Machine/Sha512.lean. -/

namespace Sys2Proof.Machine

/-! ## The HKDF context tree -/

/-- The bytes of "fscrypt\0" (R310). -/
def fscryptPrefix : Bytes := [0x66, 0x73, 0x63, 0x72, 0x79, 0x70, 0x74, 0x00]

/-- The context takes a MODE byte (R311). -/
def contextTakesMode : HkdfContext → Bool
  | .directKey | .ivInoLblk64Key | .ivInoLblk32Key => true
  | .keyIdentifier | .perFileEncKey | .dirhashKey | .inodeHashKey => false

/-- The context reads the 16-byte extra operand: CTX 2, 4, 5 and 6 (R311, 40_primitives.md R171). -/
def contextTakesExtra : HkdfContext → Bool
  | .perFileEncKey | .ivInoLblk64Key | .dirhashKey | .ivInoLblk32Key => true
  | .keyIdentifier | .directKey | .inodeHashKey => false

/-- The output lengths of the context (R313). -/
def contextOutLengths : HkdfContext → List Nat
  | .keyIdentifier | .dirhashKey | .inodeHashKey => [16]
  | .perFileEncKey | .directKey | .ivInoLblk64Key | .ivInoLblk32Key => [32, 64]

/-- `Info(ctx, mode, e16)`: the prefix, the tag byte, the MODE byte where the context takes one, and the
extra string where it takes one (R310, R311). -/
def hkdfInfo (c : HkdfContext) (mode : Byte) (e16 : Bytes) : Bytes :=
  fscryptPrefix ++ [c.tag.setWidth 8] ++ (if contextTakesMode c then [mode] else []) ++
    (if contextTakesExtra c then e16 else [])

/-! ## AES-CMAC and the CMAC KDF -/

/-- `dbl(X)`: the big-endian doubling of CMAC subkeys (R314). -/
def cmacDbl (x : Bytes) : Bytes :=
  xorBytes (beBytes 16 ((beNat x * 2) % 2 ^ 128))
    (if (beNat x).testBit 127 then zeroBytes 15 ++ [0x87] else zeroBytes 16)

/-- `L` (R314). -/
def cmacL (k : Bytes) : Bytes := aes256Enc k (zeroBytes 16)

/-- `K1` (R314). -/
def cmacK1 (k : Bytes) : Bytes := cmacDbl (cmacL k)

/-- `K2` (R314). -/
def cmacK2 (k : Bytes) : Bytes := cmacDbl (cmacK1 k)

/-- The number n of blocks of a message: at least 1 (R314). -/
def cmacBlockCount (m : Bytes) : Nat := max 1 (ceilDiv m.length 16)

/-- The masked last block: a complete one with K1, a padded one with K2 (R314). -/
def cmacLast (k m : Bytes) : Bytes :=
  let rest := m.drop (16 * (cmacBlockCount m - 1))
  if 0 < m.length ∧ m.length % 16 = 0 then xorBytes rest (cmacK1 k)
  else xorBytes (rest ++ [0x80] ++ zeroBytes (15 - rest.length)) (cmacK2 k)

/-- `CMAC(K, M)` with AES-256 (R314). -/
def cmac (k m : Bytes) : Bytes :=
  let x := (List.range (cmacBlockCount m - 1)).foldl
    (fun x i => aes256Enc k (xorBytes x (slice m (16 * i) 16))) (zeroBytes 16)
  aes256Enc k (xorBytes x (cmacLast k m))

/-- The message of block i of the CMAC KDF (R316). -/
def cmacKdfMessage (label context : Bytes) (outLen i : Nat) : Bytes :=
  be32 i ++ label ++ [0x00] ++ context ++ be32 (8 * outLen)

/-- `CmacKdf(S, label, context, outLen)` (R316). -/
def cmacKdf (secret label context : Bytes) (outLen : Nat) : Bytes :=
  ((List.range (ceilDiv outLen 16)).flatMap fun j =>
    cmac secret (cmacKdfMessage label context outLen (j + 1))).take outLen

/-- The inline-encryption key that a host derives from a hardware-wrapped key's secret: CMAC_KDF with
the OPEN constants of R6 as its operands (R318; log 14). -/
def inlineEncryptionKey (secret : Bytes) : Bytes :=
  cmacKdf secret Config.cmacLabelInline Config.cmacContextInline 32

/-- The "raw secret", likewise (R318; log 14). -/
def rawSecret (secret : Bytes) : Bytes :=
  cmacKdf secret Config.cmacLabelRaw Config.cmacContextRaw 32

/-! ## Commands -/

/-- HKDF_SHA512 in a context, with its operands (R320). The extra range is an input only where the
context reads it, and A2 is ignored otherwise. The length predicate is of R173. -/
def hkdfCommand (c : HkdfContext) (mode : Byte) (x : Operands) : Command :=
  let ikm : Range := ⟨reg x 0, reg x 1⟩
  let extra : Range := ⟨reg x 2, 16⟩
  { lengthOk := (reg x 1 == 32 || reg x 1 == 64) && (contextOutLengths c).contains (reg x 3)
    inputs := if contextTakesExtra c then [ikm, extra] else [ikm]
    dataInput := none
    output := ⟨reg x 4, reg x 3⟩
    result := fun rd =>
      hkdf (rd ikm) (hkdfInfo c mode (if contextTakesExtra c then rd extra else [])) (reg x 3) }

/-- AES256_CMAC with its operands (R321). -/
def aes256CmacCommand (x : Operands) : Command :=
  let key : Range := ⟨reg x 0, 32⟩
  let msg : Range := ⟨reg x 1, reg x 2⟩
  { lengthOk := true
    inputs := [key, msg]
    dataInput := none
    output := ⟨reg x 3, 16⟩
    result := fun rd => cmac (rd key) (rd msg) }

/-- CMAC_KDF with its operands (R322); its length predicate is of R173 and R317. -/
def cmacKdfCommand (x : Operands) : Command :=
  let secret : Range := ⟨reg x 0, 32⟩
  let label : Range := ⟨reg x 1, reg x 2⟩
  let context : Range := ⟨reg x 3, reg x 4⟩
  { lengthOk := 1 ≤ reg x 5 && reg x 5 ≤ 0x1FFFFFFF
    inputs := [secret, label, context]
    dataInput := none
    output := ⟨reg x 6, reg x 5⟩
    result := fun rd => cmacKdf (rd secret) (rd label) (rd context) (reg x 5) }

/-- HKDF_SHA512 KEY_IDENTIFIER, CTX 1 (R320). -/
def execHkdfKeyIdentifier (s : State) : Result :=
  runCommand .hkdfKeyIdentifier (hkdfCommand .keyIdentifier 0) s

/-- HKDF_SHA512 PER_FILE_ENC_KEY, CTX 2 (R320). -/
def execHkdfPerFileEncKey (s : State) : Result :=
  runCommand .hkdfPerFileEncKey (hkdfCommand .perFileEncKey 0) s

/-- HKDF_SHA512 DIRECT_KEY, CTX 3 (R320). -/
def execHkdfDirectKey (mode : Byte) (s : State) : Result :=
  runCommand (.hkdfDirectKey mode) (hkdfCommand .directKey mode) s

/-- HKDF_SHA512 IV_INO_LBLK_64_KEY, CTX 4 (R320). -/
def execHkdfIvInoLblk64Key (mode : Byte) (s : State) : Result :=
  runCommand (.hkdfIvInoLblk64Key mode) (hkdfCommand .ivInoLblk64Key mode) s

/-- HKDF_SHA512 DIRHASH_KEY, CTX 5 (R320). -/
def execHkdfDirhashKey (s : State) : Result :=
  runCommand .hkdfDirhashKey (hkdfCommand .dirhashKey 0) s

/-- HKDF_SHA512 IV_INO_LBLK_32_KEY, CTX 6 (R320). -/
def execHkdfIvInoLblk32Key (mode : Byte) (s : State) : Result :=
  runCommand (.hkdfIvInoLblk32Key mode) (hkdfCommand .ivInoLblk32Key mode) s

/-- HKDF_SHA512 INODE_HASH_KEY, CTX 7 (R320). -/
def execHkdfInodeHashKey (s : State) : Result :=
  runCommand .hkdfInodeHashKey (hkdfCommand .inodeHashKey 0) s

/-- AES256_CMAC (R321). -/
def execAes256Cmac (s : State) : Result := runCommand .aes256Cmac aes256CmacCommand s

/-- CMAC_KDF (R322). -/
def execCmacKdf (s : State) : Result := runCommand .cmacKdf cmacKdfCommand s

end Sys2Proof.Machine
end

