-- ==== Sys2Proof/Machine/Dispatch.lean ====
section
/-! DEFINITION. exec: one arm per command, each the command's meaning (spec/30_encoding.md R105). -/

namespace Sys2Proof.Machine

def exec (i : Instr) (s : State) : Host.Outcome State Fault Refusal :=
  match i with
  | .hchacha12 => Sys2Proof.Machine.execHchacha12 s
  | .chacha12Xor => Sys2Proof.Machine.execChacha12Xor s
  | .xchacha12Xor => Sys2Proof.Machine.execXchacha12Xor s
  | .xchacha12Stream => Sys2Proof.Machine.execXchacha12Stream s
  | .poly1305e => Sys2Proof.Machine.execPoly1305e s
  | .nh => Sys2Proof.Machine.execNh s
  | .adiantumHash => Sys2Proof.Machine.execAdiantumHash s
  | .aes256Enc => Sys2Proof.Machine.execAes256Enc s
  | .aes256Dec => Sys2Proof.Machine.execAes256Dec s
  | .xtsEnc => Sys2Proof.Machine.execXtsEnc s
  | .xtsDec => Sys2Proof.Machine.execXtsDec s
  | .adiantumEnc => Sys2Proof.Machine.execAdiantumEnc s
  | .adiantumDec => Sys2Proof.Machine.execAdiantumDec s
  | .hkdfKeyIdentifier => Sys2Proof.Machine.execHkdfKeyIdentifier s
  | .hkdfPerFileEncKey => Sys2Proof.Machine.execHkdfPerFileEncKey s
  | .hkdfDirectKey mode => Sys2Proof.Machine.execHkdfDirectKey mode s
  | .hkdfIvInoLblk64Key mode => Sys2Proof.Machine.execHkdfIvInoLblk64Key mode s
  | .hkdfDirhashKey => Sys2Proof.Machine.execHkdfDirhashKey s
  | .hkdfIvInoLblk32Key mode => Sys2Proof.Machine.execHkdfIvInoLblk32Key mode s
  | .hkdfInodeHashKey => Sys2Proof.Machine.execHkdfInodeHashKey s
  | .aes256Cmac => Sys2Proof.Machine.execAes256Cmac s
  | .cmacKdf => Sys2Proof.Machine.execCmacKdf s

end Sys2Proof.Machine
end

