-- ==== Sys2Proof/Machine/Engine.lean ====
section
/-! DEFINITION. The events of the machine: a host access, the submission of a CMD write, the engine's
turn, and the reset input (spec/10_state.md R38, 40_primitives.md R170, R176, 60_exceptions.md R349,
70_reset_and_hazards.md R380). -/

namespace Sys2Proof.Machine

/-- The error code that a word which is no command raises (R170 steps 3 to 7, 60_exceptions.md R341). -/
def decodeErrorCode : DecodeError → ErrorCode
  | .illegalOpcode  => .illegalOpcode
  | .reservedField  => .reservedField
  | .illegalContext => .illegalContext

/-- Submission of a word while BUSY = 0 and ERR = 0: a word that is no command is refused, and the
command of any other word runs (R170). -/
def submitWord (w : Word32) (s : State) : Result :=
  match decode w with
  | .error e => .next (refuseWord (decodeErrorCode e) w s)
  | .ok i    => exec i s

/-- A host write to CMD: BUSY_VIOLATION while BUSY, ignored while ERR = 1, a submission otherwise
(10_state.md R38). -/
def writeCmd (offset : BitVec 17) (w : Word32) (s : State) : Result :=
  if s.busy then .next (busyViolation offset s)
  else if s.err then .next s
  else submitWord w s

/-- A host write (10_state.md R32). -/
def busWrite (offset : BitVec 17) (v : Word32) (s : State) : Result :=
  match s.targetAt offset with
  | .cmd => writeCmd offset v s
  | t    => .next (writeTarget offset t v s)

/-- The state with the events still to come and what the bus answers in this step (log 2, log 8). -/
def State.after (s : State) (rest : List Event) (r : Option BusResponse) : State :=
  { s with inbox := rest, response := r }

/-- The state with what the bus answers in this step (log 8). -/
def State.answer (s : State) (r : BusResponse) : State := { s with response := some r }

/-- A host access. One that is not an aligned 32-bit access gets a bus error and changes nothing
(20_memory.md R71, 60_exceptions.md R345). -/
def performAccess (a : Access) (s : State) : Result :=
  if a.served then
    match a.kind with
    | .read    => .next (busRead a.offset s)
    | .write v => busWrite a.offset v (s.answer .writeAck)
  else .next (s.answer .busError)

/-- The engine's turn: in phase BUSY it has exactly one step, the completion of the latched command
(R176); in phase IDLE it has none. -/
def engineTurn (s : State) : Result :=
  match s.phase with
  | .idle   => .next s
  | .busy l =>
    match decode l.word with
    | .ok i    => exec i s
    | .error _ => .fault .latchedWordIllegal

/-- The platform drives the reset input: while it is asserted, and when it is released, the engine is
reset (70_reset_and_hazards.md R380; log 9). -/
def driveReset (asserted : Bool) (s : State) : State :=
  if asserted || s.resetInput then { s with resetInput := asserted }.resetEngine else s

/-- One event. Host accesses while the reset input is asserted are not performed (R380). -/
def performEvent (e : Event) (s : State) : Result :=
  match e with
  | .access a     => if s.resetInput then .next s else performAccess a s
  | .engineTurn   => engineTurn s
  | .resetInput b => .next (driveReset b s)

/-- One step: the next event of the inbox, or, when the host has nothing more to do, the engine's turn
(40_primitives.md R177; log 2). -/
def advance (s : State) : Result :=
  match s.inbox with
  | []        => engineTurn (s.after [] none)
  | e :: rest => performEvent e (s.after rest none)

/-- The host write of a word to CMD, at offset 0x00010 (10_state.md R32). -/
def cmdWrite (w : Word32) : Access := { offset := 0x00010, width := .word, kind := .write w }

/-- The state whose next event is the CMD write of a word, in an engine that will process it: the reset
input released, phase IDLE, no error recorded (10_state.md R38; log 1). -/
def State.placeCmdWrite (w : Word32) (s : State) : State :=
  { s with
    resetInput := false, phase := .idle, err := false, errcode := .none, errinfo := 0,
    inbox := .access (cmdWrite w) :: s.inbox }

end Sys2Proof.Machine
end

