-- ==== Sys2Proof/Machine/Step.lean ====
section
/-! DEFINITION. One step of the machine, and where it takes its next command word from. -/

namespace Sys2Proof.Machine

/-- One step of the machine: one event (Machine/Engine.lean). -/
def step (s : State) : Host.Outcome State Fault Refusal := advance s

/-- The state with the word of the low `nbits` bits of `w` where `step` fetches its next command: a
command is fetched when its CMD write is processed (20_memory.md R84), so it is the host's next write
(log 1). -/
def State.withFetchWord (s : State) (nbits w : Nat) : State :=
  s.placeCmdWrite (BitVec.ofNat 32 (w % 2 ^ nbits))

end Sys2Proof.Machine
end

