-- ==== Sys2Proof/Machine/Assembler.lean ====
section
/-! DEFINITION. The assembler of the spec and its pseudo-instructions, which are the host's: how a command
line becomes bus accesses (spec/30_encoding.md R112, R113, R114; log 15). -/

namespace Sys2Proof.Machine

/-! ## Command lines -/

/-- The mnemonics of the assembler: one for each opcode (R112). -/
inductive AsmMnemonic where
  | hchacha12 | chacha12Xor | xchacha12Xor | xchacha12Stream | poly1305e | nh | adiantumHash
  | aes256Enc | aes256Dec | xtsEnc | xtsDec | adiantumEnc | adiantumDec | hkdfSha512 | aes256Cmac
  | cmacKdf
deriving DecidableEq, Repr

/-- The operand names of the assembler (R112). -/
inductive AsmName where
  | key | nonce | iv | tweak | src | msg | dst | len | ikm | ikmlen | extra | outlen | secret | label
  | labellen | context | contextlen | ctx | mode
deriving DecidableEq, Repr

/-- The value of an operand: a number, or a context name for `ctx=` (R112). -/
inductive AsmValue where
  | number (n : Nat)
  | context (c : HkdfContext)
deriving DecidableEq, Repr

/-- A command line: the mnemonic and the `name=value` operands in the order written (R112). -/
structure AsmLine where
  mnemonic : AsmMnemonic
  operands : List (AsmName × AsmValue)
deriving DecidableEq, Repr

/-- Why the assembler refuses a line (R112, R113; log 15). -/
inductive AsmError where
  /-- an operand that the opcode reads is omitted (R113) -/
  | missing (n : AsmName)
  /-- an operand that the opcode does not take (R112) -/
  | unexpected
  /-- an operand given twice, a context name where a number stands, a number that does not fit, or a
  `dbuf.fill` that leaves the DBUF window -/
  | badValue
  /-- `dbuf.fill` at an address that is no multiple of 4 (R114) -/
  | unaligned
deriving DecidableEq, Repr

/-- The registers that the operand names of a plain opcode map to, in the order of the registers
(R110, R112). -/
def asmPlain : AsmMnemonic → Option (Instr × List (AsmName × Fin 8))
  | .hchacha12       => some (.hchacha12, [(.key, 0), (.nonce, 1), (.dst, 2)])
  | .chacha12Xor     => some (.chacha12Xor, [(.key, 0), (.iv, 1), (.src, 2), (.len, 3), (.dst, 4)])
  | .xchacha12Xor    => some (.xchacha12Xor, [(.key, 0), (.nonce, 1), (.src, 2), (.len, 3), (.dst, 4)])
  | .xchacha12Stream => some (.xchacha12Stream, [(.key, 0), (.nonce, 1), (.len, 3), (.dst, 4)])
  | .poly1305e       => some (.poly1305e, [(.key, 0), (.msg, 1), (.len, 2), (.dst, 3)])
  | .nh              => some (.nh, [(.key, 0), (.msg, 1), (.len, 2), (.dst, 3)])
  | .adiantumHash    => some (.adiantumHash, [(.key, 0), (.iv, 1), (.msg, 2), (.len, 3), (.dst, 4)])
  | .aes256Enc       => some (.aes256Enc, [(.key, 0), (.src, 1), (.dst, 2)])
  | .aes256Dec       => some (.aes256Dec, [(.key, 0), (.src, 1), (.dst, 2)])
  | .xtsEnc          => some (.xtsEnc, [(.key, 0), (.tweak, 1), (.src, 2), (.len, 3), (.dst, 4)])
  | .xtsDec          => some (.xtsDec, [(.key, 0), (.tweak, 1), (.src, 2), (.len, 3), (.dst, 4)])
  | .adiantumEnc     => some (.adiantumEnc, [(.key, 0), (.iv, 1), (.src, 2), (.len, 3), (.dst, 4)])
  | .adiantumDec     => some (.adiantumDec, [(.key, 0), (.iv, 1), (.src, 2), (.len, 3), (.dst, 4)])
  | .hkdfSha512      => none
  | .aes256Cmac      => some (.aes256Cmac, [(.key, 0), (.msg, 1), (.len, 2), (.dst, 3)])
  | .cmacKdf         => some (.cmacKdf, [(.secret, 0), (.label, 1), (.labellen, 2), (.context, 3),
      (.contextlen, 4), (.outlen, 5), (.dst, 6)])

/-- The registers of an HKDF_SHA512 line: `extra=` for the contexts that read it (R112). -/
def asmHkdf (c : HkdfContext) : List (AsmName × Fin 8) :=
  [(.ikm, 0), (.ikmlen, 1)] ++ (if contextTakesExtra c then [(.extra, 2)] else []) ++
    [(.outlen, 3), (.dst, 4)]

/-- The command of an HKDF_SHA512 line (R107, R112). -/
def hkdfInstr (c : HkdfContext) (mode : Byte) : Instr :=
  match c with
  | .keyIdentifier  => .hkdfKeyIdentifier
  | .perFileEncKey  => .hkdfPerFileEncKey
  | .directKey      => .hkdfDirectKey mode
  | .ivInoLblk64Key => .hkdfIvInoLblk64Key mode
  | .dirhashKey     => .hkdfDirhashKey
  | .ivInoLblk32Key => .hkdfIvInoLblk32Key mode
  | .inodeHashKey   => .hkdfInodeHashKey

/-- The value of an operand of a line. -/
def AsmLine.value? (l : AsmLine) (n : AsmName) : Option AsmValue := l.operands.lookup n

/-- A number operand that fits in `bits` bits. -/
def AsmLine.number (l : AsmLine) (n : AsmName) (bits : Nat) : Except AsmError Nat :=
  match l.value? n with
  | none             => .error (.missing n)
  | some (.number v) => if v < 2 ^ bits then .ok v else .error .badValue
  | some (.context _) => .error .badValue

/-- The host's write of a 32-bit word to an offset: `mmio.w` (R114). -/
def mmioWrite (offset : BitVec 17) (v : Word32) : Access := ⟨offset, .word, .write v⟩

/-- The host's read of an offset: `mmio.r` (R114). -/
def mmioRead (offset : BitVec 17) : Access := ⟨offset, .word, .read⟩

/-- The offset of operand register Ai (10_state.md R32). -/
def operandOffset (i : Fin 8) : BitVec 17 := BitVec.ofNat 17 (0x20 + 4 * i.val)

/-- The writes of the operand registers, one for each operand, in increasing order (R113). -/
def asmWrites (l : AsmLine) : List (AsmName × Fin 8) → Except AsmError (List Access)
  | []           => .ok []
  | (n, i) :: rs =>
    match l.number n 32 with
    | .error e => .error e
    | .ok v    =>
      match asmWrites l rs with
      | .error e => .error e
      | .ok as   => .ok (mmioWrite (operandOffset i) (BitVec.ofNat 32 v) :: as)

/-- The line gives every operand at most once, and only operands among the names given. -/
def AsmLine.givesOnly (l : AsmLine) (names : List AsmName) : Except AsmError Unit :=
  if ¬ (l.operands.map Prod.fst).Nodup then .error .badValue
  else if (l.operands.map Prod.fst).all names.contains then .ok () else .error .unexpected

/-- The command and the register operands of a line. `mode=` is required for the contexts that take
one and refused for the others (R112). -/
def AsmLine.command (l : AsmLine) : Except AsmError (Instr × List (AsmName × Fin 8)) :=
  match asmPlain l.mnemonic with
  | some (i, rs) =>
    match l.givesOnly (rs.map Prod.fst) with
    | .error e => .error e
    | .ok _    => .ok (i, rs)
  | none =>
    match l.value? .ctx with
    | none             => .error (.missing .ctx)
    | some (.number _) => .error .badValue
    | some (.context c) =>
      let rs := asmHkdf c
      let names := .ctx :: (if contextTakesMode c then [.mode] else []) ++ rs.map Prod.fst
      match l.givesOnly names with
      | .error e => .error e
      | .ok _    =>
        if contextTakesMode c then
          match l.number .mode 8 with
          | .error e => .error e
          | .ok m    => .ok (hkdfInstr c (BitVec.ofNat 8 m), rs)
        else .ok (hkdfInstr c 0, rs)

/-- The expansion of a command line: the writes of its operands, then the write of CMD (R113). -/
def assemble (l : AsmLine) : Except AsmError (List Access) :=
  match l.command with
  | .error e     => .error e
  | .ok (i, rs)  =>
    match asmWrites l rs with
    | .error e => .error e
    | .ok as   => .ok (as ++ [cmdWrite (encode i)])

/-! ## Pseudo-instructions -/

/-- What stands on a line of a host program (R112, R114). -/
inductive HostLine where
  | command (l : AsmLine)
  | mmioW (offset : BitVec 17) (v : Word32)
  | mmioR (offset : BitVec 17)
  | dbufFill (a : Nat) (bs : Bytes)
  | wait
  | clrdone
  | srst
deriving DecidableEq, Repr

/-- The words of `dbuf.fill`, each little-endian, the last one padded with zero bytes (R114). -/
def fillAccesses (a : Nat) (bs : Bytes) : List Access :=
  ((chunks 4 bs).zipIdx).map fun c =>
    mmioWrite (BitVec.ofNat 17 (0x10000 + a + 4 * c.2)) (le32At (c.1 ++ zeroBytes (4 - c.1.length)) 0)

/-- The offset of STATUS (10_state.md R32). -/
def statusOffset : BitVec 17 := 0x0000C

/-- The events of `wait` in a schedule in which STATUS reads BUSY = 1 `polls` times before the engine's
turn: the reads up to the first that shows BUSY = 0 (R114, 40_primitives.md R177). -/
def waitEvents (polls : Nat) : List Event :=
  List.replicate polls (.access (mmioRead statusOffset)) ++
    [.engineTurn, .access (mmioRead statusOffset)]

/-- The events of one line of a host program (R112 to R114). DESIGN CHOICE (log 15): R114 speaks of aligned
accesses only, and an `mmio.w` or `mmio.r` at an offset that is no multiple of 4 is passed on as written, not
refused; the engine answers it with a bus error (20_memory.md R71). -/
def HostLine.events (polls : Nat) : HostLine → Except AsmError (List Event)
  | .command l     =>
    match assemble l with
    | .error e => .error e
    | .ok as   => .ok (as.map .access)
  | .mmioW o v     => .ok [.access (mmioWrite o v)]
  | .mmioR o       => .ok [.access (mmioRead o)]
  | .dbufFill a bs =>
    if a % 4 ≠ 0 then .error .unaligned
    else if a + bs.length ≤ 0x10000 then .ok ((fillAccesses a bs).map .access)
    else .error .badValue
  | .wait          => .ok (waitEvents polls)
  | .clrdone       => .ok [.access (mmioWrite statusOffset 0x00000002)]
  | .srst          => .ok [.access (mmioWrite 0x00008 0x80000000)]

/-- The events of a host program, every `wait` reading BUSY = 1 `polls` times. DESIGN CHOICE (log 15): R113
says that the assembler refuses a line and nothing of the other lines; here one refused line refuses the
whole program, so none of its accesses is made. -/
def programEvents (polls : Nat) : List HostLine → Except AsmError (List Event)
  | []      => .ok []
  | l :: ls =>
    match l.events polls with
    | .error e => .error e
    | .ok es   =>
      match programEvents polls ls with
      | .error e  => .error e
      | .ok rest  => .ok (es ++ rest)

/-! ## The text of a command line -/

/-- The pieces of a text between the occurrences of a character. -/
def splitAtChar (c : Char) : List Char → List (List Char)
  | []      => [[]]
  | x :: xs =>
    match splitAtChar c xs with
    | []      => [[]]
    | p :: ps => if x = c then [] :: p :: ps else (x :: p) :: ps

/-- A text without the spaces at its ends. -/
def trimSpaces (t : List Char) : List Char :=
  ((t.dropWhile (· == ' ')).reverse.dropWhile (· == ' ')).reverse

/-- The value of a digit in a base of at most 16. -/
def digitValue (base : Nat) (c : Char) : Option Nat :=
  let v :=
    if 48 ≤ c.toNat ∧ c.toNat ≤ 57 then c.toNat - 48
    else if 97 ≤ c.toNat ∧ c.toNat ≤ 102 then c.toNat - 87
    else if 65 ≤ c.toNat ∧ c.toNat ≤ 70 then c.toNat - 55
    else 16
  if v < base then some v else none

/-- The number that a text of digits writes, after the digits of `acc`. -/
def digits (base acc : Nat) : List Char → Option Nat
  | []      => some acc
  | c :: cs =>
    match digitValue base c with
    | none   => none
    | some d => digits base (acc * base + d) cs

/-- A number, "decimal or `0x` hexadecimal" (R112). -/
def parseNumber : List Char → Option Nat
  | '0' :: 'x' :: c :: cs => digits 16 0 (c :: cs)
  | c :: cs               => digits 10 0 (c :: cs)
  | []                    => none

/-- The context names of R107 (R112). -/
def contextNames : List (String × HkdfContext) :=
  [("KEY_IDENTIFIER", .keyIdentifier), ("PER_FILE_ENC_KEY", .perFileEncKey), ("DIRECT_KEY", .directKey),
   ("IV_INO_LBLK_64_KEY", .ivInoLblk64Key), ("DIRHASH_KEY", .dirhashKey),
   ("IV_INO_LBLK_32_KEY", .ivInoLblk32Key), ("INODE_HASH_KEY", .inodeHashKey)]

/-- The lowercase mnemonics (R112). -/
def mnemonicNames : List (String × AsmMnemonic) :=
  [("hchacha12", .hchacha12), ("chacha12.xor", .chacha12Xor), ("xchacha12.xor", .xchacha12Xor),
   ("xchacha12.stream", .xchacha12Stream), ("poly1305e", .poly1305e), ("nh", .nh),
   ("adiantum.hash", .adiantumHash), ("aes256.enc", .aes256Enc), ("aes256.dec", .aes256Dec),
   ("xts.enc", .xtsEnc), ("xts.dec", .xtsDec), ("adiantum.enc", .adiantumEnc),
   ("adiantum.dec", .adiantumDec), ("hkdf.sha512", .hkdfSha512), ("aes256.cmac", .aes256Cmac),
   ("cmac.kdf", .cmacKdf)]

/-- The operand names (R112). -/
def operandNames : List (String × AsmName) :=
  [("key", .key), ("nonce", .nonce), ("iv", .iv), ("tweak", .tweak), ("src", .src), ("msg", .msg),
   ("dst", .dst), ("len", .len), ("ikm", .ikm), ("ikmlen", .ikmlen), ("extra", .extra),
   ("outlen", .outlen), ("secret", .secret), ("label", .label), ("labellen", .labellen),
   ("context", .context), ("contextlen", .contextlen), ("ctx", .ctx), ("mode", .mode)]

/-- What a text names in a list of names. -/
def lookupName {α : Type} (names : List (String × α)) (t : List Char) : Option α :=
  (names.find? fun p => p.1.toList == t).map Prod.snd

/-- The value of an operand (R112). -/
def parseValue (t : List Char) : Option AsmValue :=
  match parseNumber t with
  | some n => some (.number n)
  | none   => (lookupName contextNames t).map .context

/-- One `name=value` operand (R112). -/
def parseOperand (t : List Char) : Option (AsmName × AsmValue) :=
  match splitAtChar '=' t with
  | [n, v] =>
    match lookupName operandNames (trimSpaces n), parseValue (trimSpaces v) with
    | some n, some v => some (n, v)
    | _, _           => none
  | _ => none

/-- The text of a command line: "the lowercase mnemonic followed by `name=value` operands separated by
commas" (R112). -/
def parseLine (t : String) : Option AsmLine :=
  let t := trimSpaces t.toList
  let m := t.takeWhile (· != ' ')
  match lookupName mnemonicNames m,
    (splitAtChar ',' (t.drop m.length)).mapM fun o => parseOperand (trimSpaces o) with
  | some m, some os => some { mnemonic := m, operands := os }
  | _, _            => none

end Sys2Proof.Machine
end

