-- ==== Sys2Proof/Machine/CommandTable.lean ====
section
/-! DEFINITION. The command of each instruction with its operands: its ranges, its length predicate and
its output (spec/30_encoding.md R110). `exec` runs these; the invariant and the statements name them. -/

namespace Sys2Proof.Machine

/-- The command of an instruction, given the operand registers. -/
def commandOf (i : Instr) : Operands → Command :=
  match i with
  | .hchacha12 => hchacha12Command
  | .chacha12Xor => chacha12XorCommand
  | .xchacha12Xor => xchacha12XorCommand
  | .xchacha12Stream => xchacha12StreamCommand
  | .poly1305e => poly1305eCommand
  | .nh => nhCommand
  | .adiantumHash => adiantumHashCommand
  | .aes256Enc => aes256EncCommand
  | .aes256Dec => aes256DecCommand
  | .xtsEnc => xtsEncCommand
  | .xtsDec => xtsDecCommand
  | .adiantumEnc => adiantumEncCommand
  | .adiantumDec => adiantumDecCommand
  | .hkdfKeyIdentifier => hkdfCommand .keyIdentifier 0
  | .hkdfPerFileEncKey => hkdfCommand .perFileEncKey 0
  | .hkdfDirectKey mode => hkdfCommand .directKey mode
  | .hkdfIvInoLblk64Key mode => hkdfCommand .ivInoLblk64Key mode
  | .hkdfDirhashKey => hkdfCommand .dirhashKey 0
  | .hkdfIvInoLblk32Key mode => hkdfCommand .ivInoLblk32Key mode
  | .hkdfInodeHashKey => hkdfCommand .inodeHashKey 0
  | .aes256Cmac => aes256CmacCommand
  | .cmacKdf => cmacKdfCommand

/-- The command passes every check of 40_primitives.md R170 steps 8 to 10 with these operands, in a
DBUF of this size: it is accepted. -/
def accepted (i : Instr) (x : Operands) (dbufSize : Nat) : Prop :=
  (commandOf i x).error dbufSize = none

end Sys2Proof.Machine
end

