-- ==== Sys2Proof/Safety.lean ====
section
/-! DEFINITION. The terms of the claims: when ranges are acceptable, what a completed command leaves
unchanged, the values of reset, and the invariant of the machine (spec/10_state.md R43, R45,
40_primitives.md R172, R174, R176, 60_exceptions.md R341 to R344). -/

namespace Sys2Proof.Machine

/-! ## Ranges -/

/-- Two ranges have no byte in common (the negation of 40_primitives.md R174's overlap). -/
def Range.disjoint (r t : Range) : Prop :=
  r.size = 0 ∨ t.size = 0 ∨ r.addr + r.size ≤ t.addr ∨ t.addr + t.size ≤ r.addr

/-- The ranges of a command pass the range rule (R172) and the alias rule (R174): all lie inside DBUF,
the output meets no input, and the data input is apart from the output or equal to it. -/
def acceptable (dbufSize : Nat) (inputs : List Range) (dataInput : Option Range) (output : Range) : Prop :=
  (∀ r ∈ inputs ++ dataInput.toList ++ [output], r.addr + r.size ≤ dbufSize) ∧
    (∀ r ∈ inputs, output.disjoint r) ∧
    (∀ r ∈ dataInput.toList, r = output ∨ output.disjoint r)

/-! ## Frames -/

/-- Every field but DONE, the phase and DBUF is the same in the two states. -/
def State.sameRegisters (s t : State) : Prop :=
  t.id = s.id ∧ t.dbufsz = s.dbufsz ∧ t.doneIe = s.doneIe ∧ t.errIe = s.errIe ∧ t.err = s.err ∧
    t.cmd = s.cmd ∧ t.errcode = s.errcode ∧ t.errinfo = s.errinfo ∧ t.operands = s.operands ∧
    t.resetInput = s.resetInput ∧ t.inbox = s.inbox ∧ t.response = s.response ∧
    t.resetEpoch = s.resetEpoch ∧ t.drawCount = s.drawCount

/-- The state t is the state s after the completion of a command that wrote the string `out` to the
range `dst` (40_primitives.md R176, R179): phase IDLE, DONE set, the string in DBUF, every other byte of
DBUF and every other register as before. -/
def State.completedWith (s t : State) (dst : Range) (out : Bytes) : Prop :=
  t.phase = .idle ∧ t.done = true ∧ t.memRead dst = out ∧
    (∀ a, ¬ dst.mem a → t.dbufByte a = s.dbufByte a) ∧ s.sameRegisters t

/-- What `raise Error(code)` makes of a state (60_exceptions.md R343): the first error is recorded, ERR
is 1, nothing else changes. -/
def State.withError (s : State) (code : ErrorCode) (info : Word32) : State :=
  { s with
    err := true
    errcode := if s.err then s.errcode else code
    errinfo := if s.err then s.errinfo else info }

/-- Every register, the phase and DBUF hold the values of 10_state.md R45: no byte of DBUF is a written
one, so each is a draw. -/
def State.atReset (s : State) : Prop :=
  s.doneIe = false ∧ s.errIe = false ∧ s.done = false ∧ s.err = false ∧ s.cmd = 0 ∧
    s.errcode = .none ∧ s.errinfo = 0 ∧ (∀ i, s.operands.get i = 0) ∧
    (∀ a, Memory.read? a s.dbuf = none) ∧ s.phase = .idle

/-! ## The invariant -/

/-- The latch of a busy engine (10_state.md R43, 40_primitives.md R170 step 11): it equals CMD and A0 to
A7, it holds an accepted command, and DONE is 0. -/
def State.latchSound (s : State) : Prop :=
  ∀ l, s.phase = .busy l →
    l.word = s.cmd ∧ l.x = s.operands ∧ s.done = false ∧
      ∃ i, decode l.word = .ok i ∧ accepted i l.x s.dbufsz.toNat

/-- The offsets whose write while BUSY is a violation (60_exceptions.md R347). -/
def violationOffset (o : Nat) : Prop :=
  o % 4 = 0 ∧ (o = 0x10 ∨ (0x20 ≤ o ∧ o < 0x40) ∨ (0x10000 ≤ o ∧ o < 0x20000))

/-- The record of the first error (60_exceptions.md R341, R342): ERR is 1 exactly when a code is
recorded; without one ERRINFO is 0; codes 1 to 6 leave the engine IDLE with the refused word in CMD and
in ERRINFO; code 7 records the offset of a write. -/
def State.errorSound (s : State) : Prop :=
  (s.err = false → s.errcode = .none ∧ s.errinfo = 0) ∧
    (s.err = true → s.errcode ≠ .none) ∧
    (s.errcode = .busyViolation → violationOffset s.errinfo.toNat) ∧
    (s.errcode ≠ .none → s.errcode ≠ .busyViolation →
      s.errinfo = s.cmd ∧ s.phase = .idle ∧ s.done = false)

/-- The invariant of the machine: a legal DBUF_SIZE (00_scope.md R6), DBUF in canonical form and inside
its size, a sound latch, a sound error record, and the reset values while the reset input is asserted
(70_reset_and_hazards.md R380). -/
structure State.Inv (s : State) : Prop where
  sizeLegal  : s.dbufsz ∈ Config.legalDbufSizes
  dbufWf     : Memory.wf s.dbuf
  dbufInside : ∀ c ∈ s.dbuf, c.1 < s.dbufsz.toNat
  latch      : s.latchSound
  error      : s.errorSound
  resetHeld  : s.resetInput = true → s.atReset

/-! ## The end of a run -/

/-- The event is an access of the host. -/
def Event.isAccess : Event → Bool
  | .access _     => true
  | .engineTurn   => false
  | .resetInput _ => false

/-- A run has ended: the host has performed its last access and the engine is IDLE
(70_reset_and_hazards.md R401). No other event that is still to come keeps it open. -/
def State.runEnded (s : State) : Prop := (∀ e ∈ s.inbox, e.isAccess = false) ∧ s.phase = .idle

/-- The observable result of a run (70_reset_and_hazards.md R401): the values of the registers, and the
bytes of DBUF that the host or a command wrote since the last reset, with their addresses. -/
structure RunResult where
  id       : Word32
  dbufsz   : Word32
  ctrl     : Word32
  status   : Word32
  cmd      : Word32
  errcode  : Word32
  errinfo  : Word32
  operands : Operands
  written  : Memory
deriving DecidableEq, Repr

/-- The observable result in a state in which the run has ended (70_reset_and_hazards.md R401). -/
def State.runResult (s : State) : RunResult where
  id       := s.id
  dbufsz   := s.dbufsz
  ctrl     := s.ctrlWord
  status   := s.statusWord
  cmd      := s.cmd
  errcode  := s.errcodeWord
  errinfo  := s.errinfo
  operands := s.operands
  written  := s.dbuf

/-! ## Resets to come -/

/-- The next event of the state resets the engine: the reset input is asserted or released
(70_reset_and_hazards.md R380; log 9), or the host writes CTRL with SRST set (R381). -/
def State.resetsNext (s : State) : Prop :=
  (∃ b rest, s.inbox = .resetInput b :: rest ∧ (b = true ∨ s.resetInput = true)) ∨
    (∃ v rest, s.inbox = .access (mmioWrite 0x00008 v) :: rest ∧ s.resetInput = false ∧
      v.getLsbD 31 = true)

/-- The event may reset the engine: it drives the reset input, or writes CTRL with SRST set. -/
def Event.mayReset : Event → Prop
  | .access a     => ∃ v, a = mmioWrite 0x00008 v ∧ v.getLsbD 31 = true
  | .engineTurn   => False
  | .resetInput _ => True

/-! ## The checks of a submission, in the spec's order -/

/-- The first failing step of 40_primitives.md R170 on the fields of a word, in the order of
60_exceptions.md R348, and then the checks of the command that the word is. -/
def firstFailingStep (dbufSize : Nat) (x : Operands) (w : Word32) : Option ErrorCode :=
  let f := Cmd32.ofWord w
  if f.op ∉ assignedOpcodes then some .illegalOpcode
  else if f.res0 ≠ 0 ∨ f.res1 ≠ 0 then some .reservedField
  else if f.op ≠ opHkdfSha512 ∧ (f.ctx ≠ 0 ∨ f.mode ≠ 0) then some .reservedField
  else if f.op = opHkdfSha512 ∧ f.ctx = 0 then some .illegalContext
  else if f.op = opHkdfSha512 ∧ f.ctx ∉ ([3, 4, 6] : List (BitVec 3)) ∧ f.mode ≠ 0 then
    some .reservedField
  else
    match decode w with
    | .ok i    => (commandOf i x).error dbufSize
    | .error _ => none

/-- The length predicate of each command (40_primitives.md R173). -/
def lengthPredicate (x : Operands) : Instr → Prop
  | .hchacha12 | .chacha12Xor | .xchacha12Xor | .xchacha12Stream | .poly1305e | .adiantumHash
  | .aes256Enc | .aes256Dec | .aes256Cmac => True
  | .nh => reg x 2 % 16 = 0 ∧ 16 ≤ reg x 2 ∧ reg x 2 ≤ 1024
  | .xtsEnc | .xtsDec => reg x 3 % 16 = 0 ∧ 16 ≤ reg x 3
  | .adiantumEnc | .adiantumDec => 16 ≤ reg x 3
  | .hkdfKeyIdentifier | .hkdfDirhashKey | .hkdfInodeHashKey =>
      (reg x 1 = 32 ∨ reg x 1 = 64) ∧ reg x 3 = 16
  | .hkdfPerFileEncKey | .hkdfDirectKey _ | .hkdfIvInoLblk64Key _ | .hkdfIvInoLblk32Key _ =>
      (reg x 1 = 32 ∨ reg x 1 = 64) ∧ (reg x 3 = 32 ∨ reg x 3 = 64)
  | .cmacKdf => 1 ≤ reg x 5 ∧ reg x 5 ≤ 0x1FFFFFFF

/-- The input ranges of each command but for its data input, in the order of the registers
(30_encoding.md R110, 40_primitives.md R171). -/
def plainInputsOf (x : Operands) : Instr → List Range
  | .hchacha12 | .chacha12Xor => [⟨reg x 0, 32⟩, ⟨reg x 1, 16⟩]
  | .xchacha12Xor | .xchacha12Stream => [⟨reg x 0, 32⟩, ⟨reg x 1, 24⟩]
  | .poly1305e => [⟨reg x 0, 16⟩, ⟨reg x 1, reg x 2⟩]
  | .nh => [⟨reg x 0, 1072⟩, ⟨reg x 1, reg x 2⟩]
  | .adiantumHash => [⟨reg x 0, 1104⟩, ⟨reg x 1, 32⟩, ⟨reg x 2, reg x 3⟩]
  | .aes256Enc | .aes256Dec => [⟨reg x 0, 32⟩]
  | .xtsEnc | .xtsDec => [⟨reg x 0, 64⟩, ⟨reg x 1, 16⟩]
  | .adiantumEnc | .adiantumDec => [⟨reg x 0, 32⟩, ⟨reg x 1, 32⟩]
  | .hkdfKeyIdentifier | .hkdfDirectKey _ | .hkdfInodeHashKey => [⟨reg x 0, reg x 1⟩]
  | .hkdfPerFileEncKey | .hkdfIvInoLblk64Key _ | .hkdfDirhashKey | .hkdfIvInoLblk32Key _ =>
      [⟨reg x 0, reg x 1⟩, ⟨reg x 2, 16⟩]
  | .aes256Cmac => [⟨reg x 0, 32⟩, ⟨reg x 1, reg x 2⟩]
  | .cmacKdf => [⟨reg x 0, 32⟩, ⟨reg x 1, reg x 2⟩, ⟨reg x 3, reg x 4⟩]

/-- The commands with a data input: its range (30_encoding.md R110). -/
def dataInputOf (x : Operands) : Instr → Option Range
  | .chacha12Xor | .xchacha12Xor | .xtsEnc | .xtsDec | .adiantumEnc | .adiantumDec =>
      some ⟨reg x 2, reg x 3⟩
  | .aes256Enc | .aes256Dec => some ⟨reg x 1, 16⟩
  | .hchacha12 | .xchacha12Stream | .poly1305e | .nh | .adiantumHash | .hkdfKeyIdentifier
  | .hkdfPerFileEncKey | .hkdfDirectKey _ | .hkdfIvInoLblk64Key _ | .hkdfDirhashKey
  | .hkdfIvInoLblk32Key _ | .hkdfInodeHashKey | .aes256Cmac | .cmacKdf => none

/-- The output range of each command (30_encoding.md R110, 40_primitives.md R171). -/
def outputOf (x : Operands) : Instr → Range
  | .hchacha12 => ⟨reg x 2, 32⟩
  | .chacha12Xor | .xchacha12Xor | .xchacha12Stream | .xtsEnc | .xtsDec | .adiantumEnc | .adiantumDec
  | .hkdfKeyIdentifier | .hkdfPerFileEncKey | .hkdfDirectKey _ | .hkdfIvInoLblk64Key _
  | .hkdfDirhashKey | .hkdfIvInoLblk32Key _ | .hkdfInodeHashKey => ⟨reg x 4, reg x 3⟩
  | .poly1305e | .aes256Cmac => ⟨reg x 3, 16⟩
  | .nh => ⟨reg x 3, 32⟩
  | .adiantumHash => ⟨reg x 4, 16⟩
  | .aes256Enc | .aes256Dec => ⟨reg x 2, 16⟩
  | .cmacKdf => ⟨reg x 6, reg x 5⟩

/-- Every range of a command: its inputs and its output (40_primitives.md R171, R172). -/
def rangesOf (x : Operands) (i : Instr) : List Range :=
  plainInputsOf x i ++ (dataInputOf x i).toList ++ [outputOf x i]

/-! ## The lines of the assembler -/

/-- The lines but for HKDF_SHA512: mnemonic, command, and the operand names with their registers
(30_encoding.md R110, R112). -/
def plainLines : List (AsmMnemonic × Instr × List (AsmName × Fin 8)) :=
  [(.hchacha12, .hchacha12, [(.key, 0), (.nonce, 1), (.dst, 2)]),
   (.poly1305e, .poly1305e, [(.key, 0), (.msg, 1), (.len, 2), (.dst, 3)]),
   (.nh, .nh, [(.key, 0), (.msg, 1), (.len, 2), (.dst, 3)]),
   (.aes256Cmac, .aes256Cmac, [(.key, 0), (.msg, 1), (.len, 2), (.dst, 3)]),
   (.aes256Enc, .aes256Enc, [(.key, 0), (.src, 1), (.dst, 2)]),
   (.aes256Dec, .aes256Dec, [(.key, 0), (.src, 1), (.dst, 2)]),
   (.chacha12Xor, .chacha12Xor, [(.key, 0), (.iv, 1), (.src, 2), (.len, 3), (.dst, 4)]),
   (.adiantumEnc, .adiantumEnc, [(.key, 0), (.iv, 1), (.src, 2), (.len, 3), (.dst, 4)]),
   (.adiantumDec, .adiantumDec, [(.key, 0), (.iv, 1), (.src, 2), (.len, 3), (.dst, 4)]),
   (.xchacha12Xor, .xchacha12Xor, [(.key, 0), (.nonce, 1), (.src, 2), (.len, 3), (.dst, 4)]),
   (.xchacha12Stream, .xchacha12Stream, [(.key, 0), (.nonce, 1), (.len, 3), (.dst, 4)]),
   (.adiantumHash, .adiantumHash, [(.key, 0), (.iv, 1), (.msg, 2), (.len, 3), (.dst, 4)]),
   (.xtsEnc, .xtsEnc, [(.key, 0), (.tweak, 1), (.src, 2), (.len, 3), (.dst, 4)]),
   (.xtsDec, .xtsDec, [(.key, 0), (.tweak, 1), (.src, 2), (.len, 3), (.dst, 4)]),
   (.cmacKdf, .cmacKdf, [(.secret, 0), (.label, 1), (.labellen, 2), (.context, 3), (.contextlen, 4),
     (.outlen, 5), (.dst, 6)])]

/-- The contexts whose line requires `mode=`; it is refused for the others (30_encoding.md R112). -/
def modeContexts : List HkdfContext := [.directKey, .ivInoLblk64Key, .ivInoLblk32Key]

/-- The contexts whose line requires `extra=`; it is refused for the others (30_encoding.md R112). -/
def extraContexts : List HkdfContext := [.perFileEncKey, .ivInoLblk64Key, .dirhashKey, .ivInoLblk32Key]

/-- The operand names of an HKDF_SHA512 line with their registers (30_encoding.md R110, R112). -/
def hkdfRegisters (c : HkdfContext) : List (AsmName × Fin 8) :=
  if c ∈ extraContexts then [(.ikm, 0), (.ikmlen, 1), (.extra, 2), (.outlen, 3), (.dst, 4)]
  else [(.ikm, 0), (.ikmlen, 1), (.outlen, 3), (.dst, 4)]

/-- The command word of an HKDF_SHA512 line: OP 0x40, CTX from 1 to 7, and MODE, which is 0 where the
context takes none (30_encoding.md R100, R107, R112). -/
def hkdfWord (c : HkdfContext) (mode : Nat) : Word32 :=
  let ctx := match c with
    | .keyIdentifier  => 1
    | .perFileEncKey  => 2
    | .directKey      => 3
    | .ivInoLblk64Key => 4
    | .dirhashKey     => 5
    | .ivInoLblk32Key => 6
    | .inodeHashKey   => 7
  BitVec.ofNat 32 (0x40 + 0x100 * ctx + 0x10000 * (if c ∈ modeContexts then mode else 0))

/-- The accesses of a line with these registers, values and command word: one write for each operand, and
then the write of CMD (30_encoding.md R113). -/
def lineAccesses (rs : List (AsmName × Fin 8)) (value : AsmName → Nat) (w : Word32) : List Access :=
  rs.map (fun p => mmioWrite (operandOffset p.2) (BitVec.ofNat 32 (value p.1))) ++ [cmdWrite w]

/-- The accesses are the expansion of the line with these registers and this command word: the line gives
each of the registers' names a number of 32 bits. -/
def AsmLine.expandsTo (l : AsmLine) (rs : List (AsmName × Fin 8)) (w : Word32) (as : List Access) : Prop :=
  ∃ value : AsmName → Nat, as = lineAccesses rs value w ∧
    ∀ p ∈ rs, l.value? p.1 = some (.number (value p.1)) ∧ value p.1 < 2 ^ 32

/-- The assembler refuses the line. -/
def AsmLine.refused (l : AsmLine) : Prop := ∃ e, assemble l = .error e

end Sys2Proof.Machine
end

