-- ==== Sys2Proof/Certificates/Slice0/Obligations.lean ====
section
/-! DEFINITION. The statements for the provers. Each is about the machine of Sys2Proof/Machine for every
state, every operand and every schedule of the host; none is about a program. -/

section Slice0Statements

open Sys2Proof Sys2Proof.Machine

/-! ## Encoding -/

/-- Decode and encode agree on every command: no bit of an encoding is dropped, and the fields of the
word are legal (30_encoding.md, the opcode map). -/
def Obligations.DecodeOfEncode : Prop :=
  ∀ i : Instr, decode (encode i) = .ok i ∧ (Cmd32.ofWord (encode i)).wellFormed = true

/-- Each word has at most one meaning: a word that decodes to a command is that command's word. -/
def Obligations.EncodeOfDecode : Prop := ∀ (w : Word32) (i : Instr), decode w = .ok i → encode i = w

/-- The words the decoder accepts are exactly those whose five fields are legal (30_encoding.md, format
and opcode map): every other word is rejected. -/
def Obligations.DecodeAcceptsExactlyWellFormed : Prop :=
  ∀ w : Word32, (∃ i, decode w = .ok i) ↔ (Cmd32.ofWord w).wellFormed = true

/-- The example words of 30_encoding.md section 5 decode as the spec says. That section marks them as the
spec's own inference. -/
def Obligations.DecodeWordsOfTheSpec : Prop :=
  decode 0x00000003 = .ok .xchacha12Xor ∧
  decode 0x00000022 = .ok .xtsEnc ∧
  decode 0x00000140 = .ok .hkdfKeyIdentifier ∧
  decode 0x00010440 = .ok (.hkdfIvInoLblk64Key 0x01) ∧
  decode 0x00090340 = .ok (.hkdfDirectKey 0x09) ∧
  decode 0x00000000 = .error .illegalOpcode ∧
  decode 0x00010140 = .error .reservedField ∧
  decode 0x00000040 = .error .illegalContext

/-- Submission of any word while BUSY = 0 and ERR = 0 (40_primitives.md R170): the first failing step
decides the error, which is recorded with the word, and nothing but CMD, DONE and the error record
changes; a word that passes every step is latched with A0 to A7 and makes the engine BUSY. -/
def Obligations.SubmissionReportsFirstFailingCheck : Prop :=
  ∀ (s : State) (rest : List Event) (w : Word32),
    s.inbox = .access (cmdWrite w) :: rest → s.resetInput = false → s.phase = .idle → s.err = false →
    (∀ e, firstFailingStep s.dbufsz.toNat s.operands w = some e →
      step s = .next { s with
        inbox := rest, response := some .writeAck, cmd := w, done := false,
        err := true, errcode := e, errinfo := w }) ∧
    (firstFailingStep s.dbufsz.toNat s.operands w = none →
      step s = .next { s with
        inbox := rest, response := some .writeAck, cmd := w, done := false,
        phase := .busy { word := w, x := s.operands } })

/-! ## Steps -/

/-- A step that processes the CMD write of a command's word in phase IDLE is `exec` of the command, on the
state that has taken the write from the inbox and acknowledged it (30_encoding.md section 1; log 1, log 3;
that a write which ERR = 1 makes ignored is acknowledged too is log 8). -/
def Obligations.CmdWriteStepRunsDecodedCommand : Prop :=
  ∀ (s : State) (rest : List Event) (w : Word32) (i : Instr),
    s.inbox = .access (cmdWrite w) :: rest → s.resetInput = false → s.phase = .idle →
    decode w = .ok i → step s = exec i (s.after rest (some .writeAck))

/-- A step that is the engine's turn in phase BUSY is `exec` of the latched command. The engine's turn is
the next event, or comes by itself when the host has nothing more to do (log 2). -/
def Obligations.EngineTurnRunsLatchedCommand : Prop :=
  ∀ (s : State) (rest : List Event) (l : Latch) (i : Instr),
    (s.inbox = [] ∧ rest = []) ∨ s.inbox = .engineTurn :: rest →
    s.phase = .busy l → decode l.word = .ok i → step s = exec i (s.after rest none)

/-- A command word placed where the machine takes its next command from is the next command that runs
(the model's choice, log 1). -/
def Obligations.FetchWordRunsItsCommand : Prop :=
  ∀ (s : State) (i : Instr),
    step (s.withFetchWord 32 (encode i).toNat) =
      exec i { s with
        resetInput := false, phase := .idle, err := false, errcode := .none, errinfo := 0,
        response := some .writeAck }

/-! ## Reset -/

/-- The values after reset (10_state.md, reset values), of the machine at its start and after every later
reset: every register and the phase hold the table's values, every byte of DBUF is a draw, and a reset keeps
ID and DBUFSZ, the parameters. In every state a byte of DBUF that nothing has written since the last reset is
the draw of that reset at its address; that form of the draw, selected by the number of the reset, is the
model's choice (log 4, log 11). -/
def Obligations.ResetTableValues : Prop :=
  (∀ t : State, (t = State.reset ∨ ∃ s : State, t = s.resetEngine) →
    t.atReset ∧ t.ctrlWord = 0 ∧ t.statusWord = 0 ∧ t.errcodeWord = 0 ∧ t.irq = false ∧
      ∀ a, t.dbufByte a = Config.dbufDraw t.resetEpoch a) ∧
    (∀ s : State, s.resetEngine.id = s.id ∧ s.resetEngine.dbufsz = s.dbufsz) ∧
    ∀ (s : State) (a : Nat), Memory.read? a s.dbuf = none →
      s.dbufByte a = Config.dbufDraw s.resetEpoch a

/-- Software reset (70_reset_and_hazards.md R381): a CTRL write with bit 31 resets the engine in every
phase, is acknowledged, and keeps no other bit; and a step leaves the error state only by such a write or
by the reset input. -/
def Obligations.SoftwareResetAtCtrlWrite : Prop :=
  (∀ (s : State) (rest : List Event) (v : Word32),
    s.inbox = .access (mmioWrite 0x00008 v) :: rest → s.resetInput = false → v.getLsbD 31 = true →
    ∃ t, step s = .next t ∧ t.atReset ∧ t.ctrlWord = 0 ∧ t.irq = false ∧
      t.id = s.id ∧ t.dbufsz = s.dbufsz ∧ t.resetInput = false ∧ t.inbox = rest ∧
      t.response = some .writeAck ∧ t.resetEpoch = s.resetEpoch + 1 ∧ t.drawCount = s.drawCount) ∧
  ∀ s t : State, step s = .next t → s.err = true → t.err = false →
    s.resetsNext

/-- The reset input (70_reset_and_hazards.md, hardware reset; that it is a level which events change, and
that a dropped access gets no response, is log 9): driving it resets the engine when it is asserted or
released, in every phase; while it is asserted accesses are not performed, and every state that meets the
invariant holds the reset values and keeps them. -/
def Obligations.ResetInputResets : Prop :=
  (∀ (s : State) (rest : List Event) (b : Bool), s.inbox = .resetInput b :: rest →
    ∃ t, step s = .next t ∧ t.resetInput = b ∧ t.inbox = rest ∧ t.id = s.id ∧ t.dbufsz = s.dbufsz ∧
      (b = true ∨ s.resetInput = true → t.atReset ∧ t.irq = false ∧ t.resetEpoch = s.resetEpoch + 1) ∧
      (b = false → s.resetInput = false → t = s.after rest none)) ∧
  (∀ (s : State) (rest : List Event) (a : Access), s.inbox = .access a :: rest → s.resetInput = true →
    step s = .next (s.after rest none)) ∧
  ∀ s t : State, s.Inv → step s = .next t → t.resetInput = true → t.atReset

/-! ## Registers and the bus -/

/-- ID and DBUFSZ (10_state.md, register map): no step changes them, a read returns them, and a write to
them has no effect and raises no error. That the ignored write is acknowledged as a performed one is the
model's choice (log 8). -/
def Obligations.IdentityRegistersReadOnly : Prop :=
  (∀ s t : State, step s = .next t → t.id = s.id ∧ t.dbufsz = s.dbufsz) ∧
  (∀ (s : State) (rest : List Event), s.resetInput = false →
    (s.inbox = .access (mmioRead 0x00000) :: rest →
      step s = .next (s.after rest (some (.readData s.id)))) ∧
    (s.inbox = .access (mmioRead 0x00004) :: rest →
      step s = .next (s.after rest (some (.readData s.dbufsz))))) ∧
  ∀ (s : State) (rest : List Event) (o : BitVec 17) (v : Word32),
    s.inbox = .access (mmioWrite o v) :: rest → s.resetInput = false → o = 0x00000 ∨ o = 0x00004 →
    step s = .next (s.after rest (some .writeAck))

/-- The operand registers (10_state.md, register map): a read returns the value at any time; a write in
phase IDLE stores the value in the one register, whether or not ERR is 1; and no step changes them but
such a write or a reset, so the engine never writes them. -/
def Obligations.OperandRegisterAccess : Prop :=
  (∀ (s : State) (rest : List Event) (i : Fin 8),
    s.inbox = .access (mmioRead (operandOffset i)) :: rest → s.resetInput = false →
    step s = .next (s.after rest (some (.readData (s.operands.get i))))) ∧
  (∀ (s : State) (rest : List Event) (i : Fin 8) (v : Word32),
    s.inbox = .access (mmioWrite (operandOffset i) v) :: rest → s.resetInput = false → s.phase = .idle →
    ∃ x : Operands, step s = .next { s with inbox := rest, response := some .writeAck, operands := x } ∧
      x.get i = v ∧ ∀ j, j ≠ i → x.get j = s.operands.get j) ∧
  ∀ s t : State, step s = .next t → t.operands ≠ s.operands →
    (∃ i v rest, s.inbox = .access (mmioWrite (operandOffset i) v) :: rest ∧ s.phase = .idle) ∨
    s.resetsNext

/-- Writes to CTRL and STATUS, legal in every phase and error state (10_state.md, register map): CTRL
without bit 31 sets the two enables and ignores bits 30:2, so the interrupt line follows at once; STATUS
clears DONE exactly when bit 1 is written 1. -/
def Obligations.CtrlAndStatusWrites : Prop :=
  ∀ (s : State) (rest : List Event) (v : Word32), s.resetInput = false →
    (s.inbox = .access (mmioWrite 0x00008 v) :: rest → v.getLsbD 31 = false →
      ∃ t, step s = .next t ∧
        t = { s with
          inbox := rest, response := some .writeAck, doneIe := v.getLsbD 0, errIe := v.getLsbD 1 } ∧
        (t.irq = true ↔
          (v.getLsbD 0 = true ∧ s.done = true) ∨ (v.getLsbD 1 = true ∧ s.err = true))) ∧
    (s.inbox = .access (mmioWrite 0x0000C v) :: rest →
      step s = .next { s with
        inbox := rest, response := some .writeAck,
        done := if v.getLsbD 1 = true then false else s.done })

/-- What CTRL, STATUS, CMD, ERRCODE and ERRINFO read as, in every phase (10_state.md register map;
60_exceptions.md error codes and interrupt): each field at its bits, every reserved bit 0, and STATUS bit
3 the level of the interrupt line. -/
def Obligations.RegisterReadValues : Prop :=
  (∀ (s : State) (rest : List Event), s.resetInput = false →
    (s.inbox = .access (mmioRead 0x00008) :: rest →
      ∃ w, step s = .next (s.after rest (some (.readData w))) ∧
        ∀ k, w.getLsbD k = if k = 0 then s.doneIe else if k = 1 then s.errIe else false) ∧
    (s.inbox = .access (mmioRead 0x0000C) :: rest →
      ∃ w, step s = .next (s.after rest (some (.readData w))) ∧
        ∀ k, w.getLsbD k =
          if k = 0 then decide (s.phase ≠ .idle)
          else if k = 1 then s.done
          else if k = 2 then s.err
          else if k = 3 then (s.doneIe && s.done) || (s.errIe && s.err)
          else false) ∧
    (s.inbox = .access (mmioRead 0x00010) :: rest →
      step s = .next (s.after rest (some (.readData s.cmd)))) ∧
    (s.inbox = .access (mmioRead 0x00014) :: rest →
      step s = .next (s.after rest (some (.readData (s.errcode.code.setWidth 32))))) ∧
    (s.inbox = .access (mmioRead 0x00018) :: rest →
      step s = .next (s.after rest (some (.readData s.errinfo))))) ∧
  [ErrorCode.none, .illegalOpcode, .reservedField, .illegalContext, .length, .range, .aliasing,
    .busyViolation].map ErrorCode.code = [0, 1, 2, 3, 4, 5, 6, 7]

/-- The error state (60_exceptions.md, error codes): ERR, ERRCODE and ERRINFO stay until a reset; every CMD
write is ignored, in phase IDLE and in phase BUSY; and while BUSY = 0 writes to A0 to A7 and to DBUF are
performed and reads work as ever. That the ignored CMD write is acknowledged as a performed one is the
model's choice (log 8). -/
def Obligations.ErrorStateIsSticky : Prop :=
  (∀ s t : State, step s = .next t → s.err = true →
    (t.err = true ∧ t.errcode = s.errcode ∧ t.errinfo = s.errinfo) ∨
      s.resetsNext) ∧
  (∀ (s : State) (rest : List Event) (w : Word32), s.err = true → s.resetInput = false →
    s.inbox = .access (cmdWrite w) :: rest → step s = .next (s.after rest (some .writeAck))) ∧
  ∀ (s : State) (rest : List Event), s.err = true → s.phase = .idle → s.resetInput = false →
    (∀ i v, s.inbox = .access (mmioWrite (operandOffset i) v) :: rest →
      step s = .next (writeOperand i v (s.after rest (some .writeAck)))) ∧
    (∀ (o : BitVec 17) (a : Nat) v, s.inbox = .access (mmioWrite o v) :: rest → a % 4 = 0 →
      a + 4 ≤ s.dbufsz.toNat → o.toNat = 0x10000 + a →
      step s = .next ((s.after rest (some .writeAck)).memWrite a (le32 v))) ∧
    (∀ o : BitVec 17, s.inbox = .access (mmioRead o) :: rest → o.toNat % 4 = 0 →
      step s = .next (s.after rest (some (.readData (s.readTarget (s.targetAt o))))))

/-- While BUSY (60_exceptions.md, error codes): a write to CMD, Ai or the DBUF window is ignored and records
BUSY_VIOLATION with its offset unless an error came before; CTRL and STATUS writes are legal; every other
write is ignored without error; no read raises; and the command in flight still completes with the output
of the inputs it latched, so DONE and ERR can be 1 together. That an ignored write is acknowledged as a
performed one is the model's choice (log 8). -/
def Obligations.BusyViolation : Prop :=
  (∀ (s : State) (rest : List Event) (l : Latch) (o : BitVec 17) (v : Word32),
    s.inbox = .access (mmioWrite o v) :: rest → s.resetInput = false → s.phase = .busy l →
    o.toNat % 4 = 0 →
    (violationOffset o.toNat →
      step s = .next { s with
        inbox := rest, response := some .writeAck, err := true,
        errcode := if s.err = true then s.errcode else .busyViolation,
        errinfo := if s.err = true then s.errinfo else o.setWidth 32 }) ∧
    (o = 0x00008 → v.getLsbD 31 = false →
      step s = .next { s with
        inbox := rest, response := some .writeAck, doneIe := v.getLsbD 0, errIe := v.getLsbD 1 }) ∧
    (o = 0x0000C →
      step s = .next { s with
        inbox := rest, response := some .writeAck,
        done := if v.getLsbD 1 = true then false else s.done }) ∧
    (¬ violationOffset o.toNat → o ≠ 0x00008 → o ≠ 0x0000C →
      step s = .next (s.after rest (some .writeAck)))) ∧
  (∀ (s t : State) (rest : List Event) (l : Latch) (o : BitVec 17),
    s.inbox = .access (mmioRead o) :: rest → s.phase = .busy l → step s = .next t →
    t.err = s.err ∧ t.errcode = s.errcode ∧ t.errinfo = s.errinfo ∧ t.phase = .busy l ∧
      t.dbuf = s.dbuf) ∧
  ∀ (s : State) (rest : List Event) (l : Latch), s.Inv → s.inbox = .engineTurn :: rest →
    s.phase = .busy l → s.err = true →
    ∃ i t, decode l.word = .ok i ∧ step s = .next t ∧
      (s.after rest none).completedWith t (outputOf l.x i) ((commandOf i l.x).result s.memRead) ∧
      t.done = true ∧ t.err = true

/-- Reserved offsets (10_state.md, register map): a read returns 0 and a write changes nothing. That a
read of the reserved part of the DBUF window returns 0 even while BUSY is log 6, and that an ignored write
is acknowledged as a performed one is the model's choice (log 8); a write to that part while BUSY is a
violation. -/
def Obligations.ReservedOffsets : Prop :=
  ∀ (s : State) (rest : List Event) (o : BitVec 17), s.resetInput = false → o.toNat % 4 = 0 →
    o.toNat = 0x1C ∨ (0x40 ≤ o.toNat ∧ o.toNat < 0x10000) ∨ 0x10000 + s.dbufsz.toNat ≤ o.toNat →
    (s.inbox = .access (mmioRead o) :: rest →
      step s = .next (s.after rest (some (.readData 0)))) ∧
    (∀ v, s.inbox = .access (mmioWrite o v) :: rest → (o.toNat < 0x10000 ∨ s.phase = .idle) →
      step s = .next (s.after rest (some .writeAck)))

/-- An access that is not an aligned 32-bit access gets a bus error and changes nothing, not even the
error record (20_memory.md, host accesses; how the response is held is log 8). -/
def Obligations.UnservedAccessGetsBusError : Prop :=
  ∀ (s : State) (rest : List Event) (a : Access), s.inbox = .access a :: rest → s.resetInput = false →
    a.width ≠ .word ∨ a.offset.toNat % 4 ≠ 0 → step s = .next (s.after rest (some .busError))

/-- The DBUF window is little-endian (20_memory.md R72), in phase IDLE, where the window is served: a
write sets the four bytes of its word and no other byte and no register, and a read returns the four
bytes. -/
def Obligations.DbufWindowLittleEndian : Prop :=
  ∀ (s : State) (rest : List Event) (o : BitVec 17) (a : Nat), s.resetInput = false → s.phase = .idle →
    a % 4 = 0 → a + 4 ≤ s.dbufsz.toNat → o.toNat = 0x10000 + a →
    (∀ v : Word32, s.inbox = .access (mmioWrite o v) :: rest →
      ∃ t, step s = .next t ∧ (∀ j < 4, t.dbufByte (a + j) = v.extractLsb' (8 * j) 8) ∧
        (∀ b, b < a ∨ a + 4 ≤ b → t.dbufByte b = s.dbufByte b) ∧
        (s.after rest (some .writeAck)).sameRegisters t ∧ t.phase = .idle ∧ t.done = s.done) ∧
    (s.inbox = .access (mmioRead o) :: rest →
      ∃ w : Word32, step s = .next (s.after rest (some (.readData w))) ∧
        ∀ j < 4, w.extractLsb' (8 * j) 8 = s.dbufByte (a + j))

/-- Reads have no side effects (20_memory.md, host accesses): an aligned read of any offset changes no
state of the spec. Only the model's own counter of draws moves, when DBUF is read while BUSY, and the
value is then the free value of log 5. -/
def Obligations.ReadsChangeNothing : Prop :=
  ∀ (s : State) (rest : List Event) (o : BitVec 17),
    s.inbox = .access (mmioRead o) :: rest → s.resetInput = false → o.toNat % 4 = 0 →
    ∃ v n, step s = .next { s with inbox := rest, response := some (.readData v), drawCount := n } ∧
      (s.phase = .idle ∨ o.toNat < 0x10000 → n = s.drawCount) ∧
      (s.phase ≠ .idle → 0x10000 ≤ o.toNat → o.toNat < 0x10000 + s.dbufsz.toNat →
        v = Config.busyReadDraw s.drawCount ∧ n = s.drawCount + 1)

/-- A byte of DBUF changes only by a host write of its word in phase IDLE, by the output of a completing
command, or by a reset (20_memory.md, host accesses). -/
def Obligations.DbufChangesOnlyBy : Prop :=
  ∀ (s t : State) (a : Nat), step s = .next t → t.dbufByte a ≠ s.dbufByte a →
    (∃ o v rest, s.inbox = .access (mmioWrite o v) :: rest ∧ s.phase = .idle ∧ s.resetInput = false ∧
      o.toNat % 4 = 0 ∧ o.toNat ≤ 0x10000 + a ∧ 0x10000 + a < o.toNat + 4) ∨
    (∃ l i, s.phase = .busy l ∧ decode l.word = .ok i ∧ (commandOf i l.x).output.mem a ∧
      t.phase = .idle ∧ t.done = true) ∨
    s.resetsNext

/-- The phase (10_state.md registers and hidden state; 40_primitives.md framework): the engine becomes
BUSY only by a CMD write that passes every check, with that word and A0 to A7 in the latch; it leaves BUSY
only by completing or by a reset; and DONE becomes 1 only by completing. -/
def Obligations.PhaseChangesOnlyBy : Prop :=
  ∀ s t : State, step s = .next t →
    (∀ l, s.phase = .idle → t.phase = .busy l →
      ∃ w rest, s.inbox = .access (cmdWrite w) :: rest ∧ s.resetInput = false ∧ s.err = false ∧
        firstFailingStep s.dbufsz.toNat s.operands w = none ∧ l = { word := w, x := s.operands }) ∧
    (∀ l, s.phase = .busy l → t.phase = .busy l ∨ (t.phase = .idle ∧ t.done = true) ∨
      (t.phase = .idle ∧ t.done = false ∧ s.resetsNext)) ∧
    (s.done = false → t.done = true → (∃ l, s.phase = .busy l) ∧ t.phase = .idle)

/-! ## The command framework -/

/-- Every command in phase IDLE (40_primitives.md, command submission; that `exec` in phase IDLE is the
submission is log 3): it is ignored while ERR = 1; otherwise it is refused with the first error of its
checks, or accepted, and DBUF is not touched. -/
def Obligations.IdleExecSubmits : Prop :=
  ∀ (i : Instr) (s : State), s.phase = .idle →
    (s.err = true → exec i s = .next s) ∧
    (s.err = false →
      (∀ e, (commandOf i s.operands).error s.dbufsz.toNat = some e →
        exec i s = .next { s with
          cmd := encode i, done := false, err := true, errcode := e, errinfo := encode i }) ∧
      ((commandOf i s.operands).error s.dbufsz.toNat = none →
        exec i s = .next { s with
          cmd := encode i, done := false, phase := .busy { word := encode i, x := s.operands } }))

/-- The length predicates (40_primitives.md R173): a command raises LENGTH exactly when the predicate of
the table is false of its operands. -/
def Obligations.LengthPredicates : Prop :=
  ∀ (i : Instr) (x : Operands) (n : Nat),
    (commandOf i x).error n = some .length ↔ ¬ lengthPredicate x i

/-- The ranges of every command and the range rule (40_primitives.md R171, R172): the ranges are those of the
table, whatever the lengths are; a range passes when its end, an exact integer, is at most DBUF_SIZE, an
empty one exactly when its address is; a command of a legal length raises RANGE exactly when one of its
ranges does not pass; and every range of an accepted command passes. -/
def Obligations.RangeRule : Prop :=
  (∀ (n : Nat) (r : Range), (r.fits n = true ↔ r.addr + r.size ≤ n) ∧
    (r.size = 0 → (r.fits n = true ↔ r.addr ≤ n))) ∧
  ∀ (i : Instr) (x : Operands) (n : Nat),
    (commandOf i x).inputs = plainInputsOf x i ∧ (commandOf i x).dataInput = dataInputOf x i ∧
    (commandOf i x).output = outputOf x i ∧
    ((commandOf i x).error n = some .range ↔
      lengthPredicate x i ∧ ∃ r ∈ rangesOf x i, n < r.addr + r.size) ∧
    (accepted i x n → ∀ r ∈ rangesOf x i, r.addr + r.size ≤ n)

/-- The alias rule (40_primitives.md R174): a command of legal lengths and ranges raises ALIAS exactly when
its output shares a byte with an input that is no data input, or with a data input other than the output
range itself; the eight commands with a data input are those of the rule, and the inputs and the output are those
of the tables. -/
def Obligations.AliasRule : Prop :=
  ∀ (i : Instr) (x : Operands) (n : Nat),
    (commandOf i x).dataInput = dataInputOf x i ∧
    (lengthPredicate x i → (∀ r ∈ rangesOf x i, r.addr + r.size ≤ n) →
      ((commandOf i x).error n = some .aliasing ↔
        ∃ r, (r ∈ plainInputsOf x i ∨ (dataInputOf x i = some r ∧ r ≠ outputOf x i)) ∧
          0 < (outputOf x i).size ∧ 0 < r.size ∧
          (outputOf x i).addr < r.addr + r.size ∧
          r.addr < (outputOf x i).addr + (outputOf x i).size))

/-- A latched word that is no command, or a latched command that fails its checks, has no completion: the
machine stops with the fault of log 10 (the model's choice). No state that meets the invariant is such. -/
def Obligations.UnacceptedLatchFaults : Prop :=
  (∀ (i : Instr) (s : State) (l : Latch), s.phase = .busy l →
    (commandOf i l.x).error s.dbufsz.toNat ≠ none →
    exec i s = .fault .latchedCommandNotAccepted) ∧
  (∀ (s : State) (rest : List Event) (l : Latch) (e : DecodeError),
    s.inbox = .engineTurn :: rest → s.phase = .busy l → decode l.word = .error e →
    step s = .fault .latchedWordIllegal) ∧
  ∀ (s : State) (l : Latch), s.Inv → s.phase = .busy l →
    ∃ i, decode l.word = .ok i ∧ (commandOf i l.x).error s.dbufsz.toNat = none

/-- An accepted command cannot fail, and nothing else can: from every state that meets the invariant, the
step answers a next state, whatever the next event is (40_primitives.md, the command framework). -/
def Obligations.AcceptedCommandsCannotFail : Prop := ∀ s : State, s.Inv → ∃ t, step s = .next t

/-- Every step keeps the invariant: a legal DBUF_SIZE, DBUF in canonical form and inside its size, a latch
that equals CMD and A0 to A7 and holds an accepted command, the record of the first error, and the reset
values while the reset input is asserted. -/
def Obligations.StepKeepsInvariant : Prop := ∀ s t : State, s.Inv → step s = .next t → t.Inv

/-- The machine right after reset meets the invariant. -/
def Obligations.ResetMeetsInvariant : Prop := State.reset.Inv

/-- A BUSY engine completes whatever the host does meanwhile, short of a reset: after at most one step
more than there are events to come it is IDLE with DONE set, the output of the latched command stands in
DBUF, computed from the bytes of DBUF now, and no other byte has changed (40_primitives.md, the command
framework; the schedule is log 2). -/
def Obligations.BusyEngineCompletes : Prop :=
  ∀ (s : State) (l : Latch) (i : Instr), s.Inv → s.phase = .busy l → decode l.word = .ok i →
    (∀ e ∈ s.inbox, ¬ e.mayReset) →
    ∃ k t, k ≤ s.inbox.length + 1 ∧ Host.Core.run Sys2Proof.core k s = .next t ∧
      t.phase = .idle ∧ t.done = true ∧
      t.memRead (commandOf i l.x).output = (commandOf i l.x).result s.memRead ∧
      ∀ a, ¬ (commandOf i l.x).output.mem a → t.dbufByte a = s.dbufByte a

/-- Every command is deterministic in its inputs (40_primitives.md, the command framework): two
completions of one command with the same input strings and the same output size write the same output
string, wherever the strings stand and whatever else the two states hold. -/
def Obligations.CommandsDependOnlyOnInputs : Prop :=
  ∀ (i : Instr) (s₁ s₂ t₁ t₂ : State) (l₁ l₂ : Latch),
    s₁.phase = .busy l₁ → s₂.phase = .busy l₂ →
    (commandOf i l₁.x).inputs.map s₁.memRead = (commandOf i l₂.x).inputs.map s₂.memRead →
    (commandOf i l₁.x).dataInput.map s₁.memRead = (commandOf i l₂.x).dataInput.map s₂.memRead →
    (commandOf i l₁.x).output.size = (commandOf i l₂.x).output.size →
    exec i s₁ = .next t₁ → exec i s₂ = .next t₂ →
    t₁.memRead (commandOf i l₁.x).output = t₂.memRead (commandOf i l₂.x).output

/-! ## What each command completes with

Each of these says of a command in phase BUSY, its latched operands meeting the length predicate, the
range rule and the alias rule, that `exec` answers a next state, and which: the output string stands in
the output range, DONE is 1, the phase is IDLE, and every other byte of DBUF and every other register is
as before (`State.completedWith`). -/

/-- HCHACHA12 (41_chacha.md section 2). -/
def Obligations.HchachaResult : Prop :=
  ∀ (s : State) (l : Latch), s.phase = .busy l →
    acceptable s.dbufsz.toNat [⟨reg l.x 0, 32⟩, ⟨reg l.x 1, 16⟩] none ⟨reg l.x 2, 32⟩ →
    ∃ t, exec .hchacha12 s = .next t ∧ s.completedWith t ⟨reg l.x 2, 32⟩
      (hchacha12 (s.memRead ⟨reg l.x 0, 32⟩) (s.memRead ⟨reg l.x 1, 16⟩))

/-- CHACHA12_XOR (41_chacha.md section 2), for any length, 0 included. -/
def Obligations.ChachaXorResult : Prop :=
  ∀ (s : State) (l : Latch), s.phase = .busy l →
    acceptable s.dbufsz.toNat [⟨reg l.x 0, 32⟩, ⟨reg l.x 1, 16⟩] (some ⟨reg l.x 2, reg l.x 3⟩)
      ⟨reg l.x 4, reg l.x 3⟩ →
    ∃ t, exec .chacha12Xor s = .next t ∧ s.completedWith t ⟨reg l.x 4, reg l.x 3⟩
      (xorBytes (s.memRead ⟨reg l.x 2, reg l.x 3⟩)
        (chacha12Stream (s.memRead ⟨reg l.x 0, 32⟩) (s.memRead ⟨reg l.x 1, 16⟩) (reg l.x 3)))

/-- XCHACHA12_XOR (41_chacha.md section 2), for any length, 0 included. -/
def Obligations.XchachaXorResult : Prop :=
  ∀ (s : State) (l : Latch), s.phase = .busy l →
    acceptable s.dbufsz.toNat [⟨reg l.x 0, 32⟩, ⟨reg l.x 1, 24⟩] (some ⟨reg l.x 2, reg l.x 3⟩)
      ⟨reg l.x 4, reg l.x 3⟩ →
    ∃ t, exec .xchacha12Xor s = .next t ∧ s.completedWith t ⟨reg l.x 4, reg l.x 3⟩
      (xorBytes (s.memRead ⟨reg l.x 2, reg l.x 3⟩)
        (xchacha12Stream (s.memRead ⟨reg l.x 0, 32⟩) (s.memRead ⟨reg l.x 1, 24⟩) (reg l.x 3)))

/-- XCHACHA12_STREAM (41_chacha.md section 2), for any length and any value of A2. The output is stated as
that of XCHACHA12_XOR on as many zero bytes, the sentence of the command's rule that the spec marks as its own
inference. -/
def Obligations.XchachaStreamResult : Prop :=
  ∀ (s : State) (l : Latch), s.phase = .busy l →
    acceptable s.dbufsz.toNat [⟨reg l.x 0, 32⟩, ⟨reg l.x 1, 24⟩] none ⟨reg l.x 4, reg l.x 3⟩ →
    ∃ t, exec .xchacha12Stream s = .next t ∧ s.completedWith t ⟨reg l.x 4, reg l.x 3⟩
      (xorBytes (zeroBytes (reg l.x 3))
        (xchacha12Stream (s.memRead ⟨reg l.x 0, 32⟩) (s.memRead ⟨reg l.x 1, 24⟩) (reg l.x 3)))

/-- POLY1305E (42_hash.md section 2), for any length; the message is no data input. -/
def Obligations.PolyResult : Prop :=
  ∀ (s : State) (l : Latch), s.phase = .busy l →
    acceptable s.dbufsz.toNat [⟨reg l.x 0, 16⟩, ⟨reg l.x 1, reg l.x 2⟩] none ⟨reg l.x 3, 16⟩ →
    ∃ t, exec .poly1305e s = .next t ∧ s.completedWith t ⟨reg l.x 3, 16⟩
      (poly1305e (s.memRead ⟨reg l.x 0, 16⟩) (s.memRead ⟨reg l.x 1, reg l.x 2⟩))

/-- NH (42_hash.md section 2), for a message of 16 to 1024 bytes, a multiple of 16. The whole 1072-byte key
range is checked, however short the message: a submission whose key range leaves DBUF raises RANGE. -/
def Obligations.NhResult : Prop :=
  (∀ (s : State) (l : Latch), s.phase = .busy l →
    reg l.x 2 % 16 = 0 → 16 ≤ reg l.x 2 → reg l.x 2 ≤ 1024 →
    acceptable s.dbufsz.toNat [⟨reg l.x 0, 1072⟩, ⟨reg l.x 1, reg l.x 2⟩] none ⟨reg l.x 3, 32⟩ →
    ∃ t, exec .nh s = .next t ∧ s.completedWith t ⟨reg l.x 3, 32⟩
      (nh (s.memRead ⟨reg l.x 0, 1072⟩) (s.memRead ⟨reg l.x 1, reg l.x 2⟩))) ∧
  ∀ s : State, s.phase = .idle → s.err = false →
    reg s.operands 2 % 16 = 0 → 16 ≤ reg s.operands 2 → reg s.operands 2 ≤ 1024 →
    s.dbufsz.toNat < reg s.operands 0 + 1072 →
    exec .nh s = .next { s with
      cmd := 0x00000011, done := false, err := true, errcode := .range, errinfo := 0x00000011 }

/-- ADIANTUM_HASH (42_hash.md section 2), for any length. The whole 1104-byte key range is checked, however
short the message: a submission whose key range leaves DBUF raises RANGE. -/
def Obligations.AdiantumHashResult : Prop :=
  (∀ (s : State) (l : Latch), s.phase = .busy l →
    acceptable s.dbufsz.toNat [⟨reg l.x 0, 1104⟩, ⟨reg l.x 1, 32⟩, ⟨reg l.x 2, reg l.x 3⟩] none
      ⟨reg l.x 4, 16⟩ →
    ∃ t, exec .adiantumHash s = .next t ∧ s.completedWith t ⟨reg l.x 4, 16⟩
      (adiantumHash (s.memRead ⟨reg l.x 0, 1104⟩) (s.memRead ⟨reg l.x 1, 32⟩)
        (s.memRead ⟨reg l.x 2, reg l.x 3⟩))) ∧
  ∀ s : State, s.phase = .idle → s.err = false → s.dbufsz.toNat < reg s.operands 0 + 1104 →
    exec .adiantumHash s = .next { s with
      cmd := 0x00000012, done := false, err := true, errcode := .range, errinfo := 0x00000012 }

/-- AES256_ENC and AES256_DEC (43_aes_xts.md section 2), in place or apart. -/
def Obligations.AesBlockResults : Prop :=
  ∀ (s : State) (l : Latch), s.phase = .busy l →
    acceptable s.dbufsz.toNat [⟨reg l.x 0, 32⟩] (some ⟨reg l.x 1, 16⟩) ⟨reg l.x 2, 16⟩ →
    (∃ t, exec .aes256Enc s = .next t ∧ s.completedWith t ⟨reg l.x 2, 16⟩
      (aes256Enc (s.memRead ⟨reg l.x 0, 32⟩) (s.memRead ⟨reg l.x 1, 16⟩))) ∧
    (∃ t, exec .aes256Dec s = .next t ∧ s.completedWith t ⟨reg l.x 2, 16⟩
      (aes256Dec (s.memRead ⟨reg l.x 0, 32⟩) (s.memRead ⟨reg l.x 1, 16⟩)))

/-- XTS_ENC and XTS_DEC (43_aes_xts.md section 2), for a length that is a nonzero multiple of 16, in place
or apart. -/
def Obligations.XtsResults : Prop :=
  ∀ (s : State) (l : Latch), s.phase = .busy l → reg l.x 3 % 16 = 0 → 16 ≤ reg l.x 3 →
    acceptable s.dbufsz.toNat [⟨reg l.x 0, 64⟩, ⟨reg l.x 1, 16⟩] (some ⟨reg l.x 2, reg l.x 3⟩)
      ⟨reg l.x 4, reg l.x 3⟩ →
    (∃ t, exec .xtsEnc s = .next t ∧ s.completedWith t ⟨reg l.x 4, reg l.x 3⟩
      (xtsEnc (s.memRead ⟨reg l.x 0, 64⟩) (s.memRead ⟨reg l.x 1, 16⟩)
        (s.memRead ⟨reg l.x 2, reg l.x 3⟩))) ∧
    (∃ t, exec .xtsDec s = .next t ∧ s.completedWith t ⟨reg l.x 4, reg l.x 3⟩
      (xtsDec (s.memRead ⟨reg l.x 0, 64⟩) (s.memRead ⟨reg l.x 1, 16⟩)
        (s.memRead ⟨reg l.x 2, reg l.x 3⟩)))

/-- ADIANTUM_ENC and ADIANTUM_DEC (44_adiantum.md section 2), for every length of at least 16, in place or
apart. -/
def Obligations.AdiantumResults : Prop :=
  ∀ (s : State) (l : Latch), s.phase = .busy l → 16 ≤ reg l.x 3 →
    acceptable s.dbufsz.toNat [⟨reg l.x 0, 32⟩, ⟨reg l.x 1, 32⟩] (some ⟨reg l.x 2, reg l.x 3⟩)
      ⟨reg l.x 4, reg l.x 3⟩ →
    (∃ t, exec .adiantumEnc s = .next t ∧ s.completedWith t ⟨reg l.x 4, reg l.x 3⟩
      (adiantumEnc (s.memRead ⟨reg l.x 0, 32⟩) (s.memRead ⟨reg l.x 1, 32⟩)
        (s.memRead ⟨reg l.x 2, reg l.x 3⟩))) ∧
    (∃ t, exec .adiantumDec s = .next t ∧ s.completedWith t ⟨reg l.x 4, reg l.x 3⟩
      (adiantumDec (s.memRead ⟨reg l.x 0, 32⟩) (s.memRead ⟨reg l.x 1, 32⟩)
        (s.memRead ⟨reg l.x 2, reg l.x 3⟩)))

/-- HKDF_SHA512 in the contexts KEY_IDENTIFIER and INODE_HASH_KEY (45_kdf.md sections 1 and 3): the info is
the prefix "fscrypt\0" and the tag byte, 16 bytes come out, and A2 is ignored. -/
def Obligations.HkdfTagOnlyResults : Prop :=
  ∀ (s : State) (l : Latch), s.phase = .busy l → (reg l.x 1 = 32 ∨ reg l.x 1 = 64) →
    reg l.x 3 = 16 → acceptable s.dbufsz.toNat [⟨reg l.x 0, reg l.x 1⟩] none ⟨reg l.x 4, 16⟩ →
    (∃ t, exec .hkdfKeyIdentifier s = .next t ∧ s.completedWith t ⟨reg l.x 4, 16⟩
      (hkdf (s.memRead ⟨reg l.x 0, reg l.x 1⟩)
        [0x66, 0x73, 0x63, 0x72, 0x79, 0x70, 0x74, 0x00, 0x01] 16)) ∧
    (∃ t, exec .hkdfInodeHashKey s = .next t ∧ s.completedWith t ⟨reg l.x 4, 16⟩
      (hkdf (s.memRead ⟨reg l.x 0, reg l.x 1⟩)
        [0x66, 0x73, 0x63, 0x72, 0x79, 0x70, 0x74, 0x00, 0x07] 16))

/-- HKDF_SHA512 in the contexts PER_FILE_ENC_KEY and DIRHASH_KEY (45_kdf.md sections 1 and 3): the info is
the prefix, the tag byte and the 16 bytes at A2; 32 or 64 bytes come out of the first, 16 of the other. -/
def Obligations.HkdfNonceResults : Prop :=
  ∀ (s : State) (l : Latch), s.phase = .busy l → (reg l.x 1 = 32 ∨ reg l.x 1 = 64) →
    acceptable s.dbufsz.toNat [⟨reg l.x 0, reg l.x 1⟩, ⟨reg l.x 2, 16⟩] none ⟨reg l.x 4, reg l.x 3⟩ →
    (reg l.x 3 = 32 ∨ reg l.x 3 = 64 →
      ∃ t, exec .hkdfPerFileEncKey s = .next t ∧ s.completedWith t ⟨reg l.x 4, reg l.x 3⟩
        (hkdf (s.memRead ⟨reg l.x 0, reg l.x 1⟩)
          ([0x66, 0x73, 0x63, 0x72, 0x79, 0x70, 0x74, 0x00, 0x02] ++ s.memRead ⟨reg l.x 2, 16⟩)
          (reg l.x 3))) ∧
    (reg l.x 3 = 16 →
      ∃ t, exec .hkdfDirhashKey s = .next t ∧ s.completedWith t ⟨reg l.x 4, reg l.x 3⟩
        (hkdf (s.memRead ⟨reg l.x 0, reg l.x 1⟩)
          ([0x66, 0x73, 0x63, 0x72, 0x79, 0x70, 0x74, 0x00, 0x05] ++ s.memRead ⟨reg l.x 2, 16⟩)
          (reg l.x 3)))

/-- HKDF_SHA512 in the context DIRECT_KEY (45_kdf.md sections 1 and 3), for every MODE byte: the info is the
prefix, the tag byte and the MODE byte, and A2 is ignored. -/
def Obligations.HkdfDirectKeyResult : Prop :=
  ∀ (s : State) (l : Latch) (mode : Byte), s.phase = .busy l → (reg l.x 1 = 32 ∨ reg l.x 1 = 64) →
    (reg l.x 3 = 32 ∨ reg l.x 3 = 64) →
    acceptable s.dbufsz.toNat [⟨reg l.x 0, reg l.x 1⟩] none ⟨reg l.x 4, reg l.x 3⟩ →
    ∃ t, exec (.hkdfDirectKey mode) s = .next t ∧ s.completedWith t ⟨reg l.x 4, reg l.x 3⟩
      (hkdf (s.memRead ⟨reg l.x 0, reg l.x 1⟩)
        [0x66, 0x73, 0x63, 0x72, 0x79, 0x70, 0x74, 0x00, 0x03, mode] (reg l.x 3))

/-- HKDF_SHA512 in the contexts IV_INO_LBLK_64_KEY and IV_INO_LBLK_32_KEY (45_kdf.md sections 1 and 3), for
every MODE byte: the info is the prefix, the tag byte, the MODE byte and the 16 bytes at A2. -/
def Obligations.HkdfUuidResults : Prop :=
  ∀ (s : State) (l : Latch) (mode : Byte), s.phase = .busy l → (reg l.x 1 = 32 ∨ reg l.x 1 = 64) →
    (reg l.x 3 = 32 ∨ reg l.x 3 = 64) →
    acceptable s.dbufsz.toNat [⟨reg l.x 0, reg l.x 1⟩, ⟨reg l.x 2, 16⟩] none ⟨reg l.x 4, reg l.x 3⟩ →
    (∃ t, exec (.hkdfIvInoLblk64Key mode) s = .next t ∧ s.completedWith t ⟨reg l.x 4, reg l.x 3⟩
      (hkdf (s.memRead ⟨reg l.x 0, reg l.x 1⟩)
        ([0x66, 0x73, 0x63, 0x72, 0x79, 0x70, 0x74, 0x00, 0x04, mode] ++ s.memRead ⟨reg l.x 2, 16⟩)
        (reg l.x 3))) ∧
    (∃ t, exec (.hkdfIvInoLblk32Key mode) s = .next t ∧ s.completedWith t ⟨reg l.x 4, reg l.x 3⟩
      (hkdf (s.memRead ⟨reg l.x 0, reg l.x 1⟩)
        ([0x66, 0x73, 0x63, 0x72, 0x79, 0x70, 0x74, 0x00, 0x06, mode] ++ s.memRead ⟨reg l.x 2, 16⟩)
        (reg l.x 3)))

/-- AES256_CMAC (45_kdf.md section 3), for any length; the message is no data input. -/
def Obligations.CmacResult : Prop :=
  ∀ (s : State) (l : Latch), s.phase = .busy l →
    acceptable s.dbufsz.toNat [⟨reg l.x 0, 32⟩, ⟨reg l.x 1, reg l.x 2⟩] none ⟨reg l.x 3, 16⟩ →
    ∃ t, exec .aes256Cmac s = .next t ∧ s.completedWith t ⟨reg l.x 3, 16⟩
      (cmac (s.memRead ⟨reg l.x 0, 32⟩) (s.memRead ⟨reg l.x 1, reg l.x 2⟩))

/-- CMAC_KDF (45_kdf.md section 3), for an output of 1 to 0x1FFFFFFF bytes and any label and context,
empty ones included. -/
def Obligations.CmacKdfResult : Prop :=
  ∀ (s : State) (l : Latch), s.phase = .busy l → 1 ≤ reg l.x 5 → reg l.x 5 ≤ 0x1FFFFFFF →
    acceptable s.dbufsz.toNat
      [⟨reg l.x 0, 32⟩, ⟨reg l.x 1, reg l.x 2⟩, ⟨reg l.x 3, reg l.x 4⟩] none ⟨reg l.x 6, reg l.x 5⟩ →
    ∃ t, exec .cmacKdf s = .next t ∧ s.completedWith t ⟨reg l.x 6, reg l.x 5⟩
      (cmacKdf (s.memRead ⟨reg l.x 0, 32⟩) (s.memRead ⟨reg l.x 1, reg l.x 2⟩)
        (s.memRead ⟨reg l.x 3, reg l.x 4⟩) (reg l.x 5))

/-! ## The functions -/

/-- The AES-256 cipher and its inverse undo each other on every block under every key (40_primitives.md
section 2, the sentence that the spec marks as its own inference from the invertible transformations). -/
def Obligations.AesCiphersInvert : Prop :=
  ∀ key b : Bytes, key.length = 32 → b.length = 16 →
    (aes256Enc key b).length = 16 ∧ (aes256Dec key b).length = 16 ∧
    aes256Dec key (aes256Enc key b) = b ∧ aes256Enc key (aes256Dec key b) = b

/-- XTS keeps the length and is a bijection whose inverse is its decryption (43_aes_xts.md section 1, the
sentence that the spec marks as its own inference). -/
def Obligations.XtsRoundTrip : Prop :=
  ∀ key tweak p : Bytes, key.length = 64 → tweak.length = 16 → p.length % 16 = 0 → 16 ≤ p.length →
    (xtsEnc key tweak p).length = p.length ∧ (xtsDec key tweak p).length = p.length ∧
    xtsDec key tweak (xtsEnc key tweak p) = p ∧ xtsEnc key tweak (xtsDec key tweak p) = p

/-- Adiantum keeps the length and is a bijection whose inverse is its decryption, for every length of at
least 16 (44_adiantum.md section 1, the sentence that the spec marks as its own inference). -/
def Obligations.AdiantumRoundTrip : Prop :=
  ∀ key iv p : Bytes, key.length = 32 → iv.length = 32 → 16 ≤ p.length →
    (adiantumEnc key iv p).length = p.length ∧ (adiantumDec key iv p).length = p.length ∧
    adiantumDec key iv (adiantumEnc key iv p) = p ∧ adiantumEnc key iv (adiantumDec key iv p) = p

/-- The tables SBOX and INV_SBOX (40_primitives.md R151): each entry of SBOX is the affine map of the
inverse in GF(2^8), and INV_SBOX is the inverse permutation. -/
def Obligations.SboxIsAffineInverse : Prop :=
  (∀ b : Byte, ∃ i : Byte, (b = 0 → i = 0) ∧ (b ≠ 0 → gmul b i = 1) ∧
    sbox b = i ^^^ i.rotateLeft 1 ^^^ i.rotateLeft 2 ^^^ i.rotateLeft 3 ^^^ i.rotateLeft 4 ^^^ 0x63) ∧
  ∀ b : Byte, invSbox (sbox b) = b ∧ sbox (invSbox b) = b

/-- The encodings of numbers and the 128-bit addition (40_primitives.md R141, R142, R143, R144): which number
stands at an offset of a string and in the whole of it, which byte of a string holds which bits, in both
byte orders, and the sum mod 2^128 of two 16-byte strings. -/
def Obligations.NumberEncodings : Prop :=
  (∀ (s : Bytes) (o : Nat),
    let byte := fun j => (s.getD (o + j) 0).toNat
    (o + 4 ≤ s.length → (le32At s o).toNat =
      byte 0 ||| byte 1 <<< 8 ||| byte 2 <<< 16 ||| byte 3 <<< 24) ∧
    (o + 8 ≤ s.length → (le64At s o).toNat =
      byte 0 ||| byte 1 <<< 8 ||| byte 2 <<< 16 ||| byte 3 <<< 24 |||
        byte 4 <<< 32 ||| byte 5 <<< 40 ||| byte 6 <<< 48 ||| byte 7 <<< 56)) ∧
  (∀ s : Bytes, leNat s = ((List.range s.length).map fun i => (s.getD i 0).toNat * 2 ^ (8 * i)).sum) ∧
  (∀ n v : Nat, (leBytes n v).length = n ∧ leNat (leBytes n v) = v % 2 ^ (8 * n) ∧
    ∀ i < n, (leBytes n v)[i]? = some (BitVec.ofNat 8 ((v >>> (8 * i)) &&& 0xFF))) ∧
  (∀ (v : Word32) (u : Word64), le32 v = leBytes 4 v.toNat ∧ le64 u = leBytes 8 u.toNat) ∧
  (∀ v : Nat, be32 v = [BitVec.ofNat 8 ((v >>> 24) &&& 0xFF), BitVec.ofNat 8 ((v >>> 16) &&& 0xFF),
    BitVec.ofNat 8 ((v >>> 8) &&& 0xFF), BitVec.ofNat 8 (v &&& 0xFF)]) ∧
  ∀ a b : Bytes, a.length = 16 → b.length = 16 →
    (add128 a b).length = 16 ∧ leNat (add128 a b) = (leNat a + leNat b) % 2 ^ 128

/-- The subtraction of 16-byte strings is mod 2^128 and undoes the addition (40_primitives.md section 1;
the last clause is marked there as the spec's own inference). -/
def Obligations.SubtractionUndoesAddition : Prop :=
  ∀ a b : Bytes, a.length = 16 → b.length = 16 →
    (sub128 a b).length = 16 ∧
    (leNat (sub128 a b) + leNat b) % 2 ^ 128 = leNat a ∧
    sub128 (add128 a b) b = a

/-- The XTS doubling as arithmetic, and that it is a bijection (40_primitives.md section 1, the sentences
after the loop, which the spec marks as its own inference). -/
def Obligations.MulxDoubles : Prop :=
  (∀ t : Bytes, t.length = 16 →
    (mulx t).length = 16 ∧
    leNat (mulx t) = ((leNat t * 2) % 2 ^ 128) ^^^ (if 2 ^ 127 ≤ leNat t then 0x87 else 0)) ∧
  (∀ t u : Bytes, t.length = 16 → u.length = 16 → mulx t = mulx u → t = u) ∧
  ∀ t : Bytes, t.length = 16 → ∃ u : Bytes, u.length = 16 ∧ mulx u = t

/-- Encryption with the keystream is self-inverse (41_chacha.md R206), for both streams and every
message. -/
def Obligations.XorStreamSelfInverse : Prop :=
  ∀ key nonce p : Bytes,
    xorBytes (xorBytes p (xchacha12Stream key nonce p.length)) (xchacha12Stream key nonce p.length) = p ∧
    xorBytes (xorBytes p (chacha12Stream key nonce p.length)) (chacha12Stream key nonce p.length) = p

/-- The ChaCha12 stream is made of the blocks whose 64-bit little-endian counter, in the first 8 bytes of
the IV, counts up from the given one and wraps at 2^64, the last 8 bytes staying as given (41_chacha.md
section 1, the keystream). -/
def Obligations.ChachaBlockCounter : Prop :=
  ∀ (key iv : Bytes) (n : Nat), iv.length = 16 →
    chacha12Stream key iv n =
      (((List.range (ceilDiv n 64)).flatMap fun j =>
        chachaBlock (chachaInit key (leBytes 8 (leNat (iv.take 8) + j) ++ iv.drop 8))).take n)

/-- The corner cases of AES-CMAC (45_kdf.md section 2, marked there as the spec's own inference): an empty
message is one padded block under K2, 16 bytes are one block under K1, 17 bytes are two blocks. -/
def Obligations.CmacCornerCases : Prop :=
  ∀ key m : Bytes, key.length = 32 →
    (m.length = 0 → cmac key m = aes256Enc key (xorBytes (0x80 :: zeroBytes 15) (cmacK2 key))) ∧
    (m.length = 16 → cmac key m = aes256Enc key (xorBytes m (cmacK1 key))) ∧
    (m.length = 17 →
      cmac key m = aes256Enc key (xorBytes (aes256Enc key (m.take 16))
        (xorBytes (m.drop 16 ++ 0x80 :: zeroBytes 14) (cmacK2 key))))

/-! ## The assembler -/

/-- The expansion of a command line (30_encoding.md sections 3 and 4; that the operands may stand in any
order, and what happens to a line that the sections do not speak of, is log 15). For every mnemonic the
registers of the operand names and the command word are those of the tables. A line that gives each operand
its number expands to one write for each, the registers increasing, and then one write of CMD, and a line
expands to nothing else. A line that omits an operand is refused; an HKDF_SHA512 line is refused without
`ctx=`, without a `mode=` or an `extra=` that its context requires, and with one that it does not take. -/
def Obligations.AssemblerExpansion : Prop :=
  (∀ row ∈ plainLines, ∀ l : AsmLine, l.mnemonic = row.1 →
    (row.2.2.map Prod.snd).Pairwise (· < ·) ∧
    (∀ value : AsmName → Nat, (∀ p ∈ row.2.2, value p.1 < 2 ^ 32) →
      l.operands.Perm (row.2.2.map fun p => (p.1, .number (value p.1))) →
      assemble l = .ok (lineAccesses row.2.2 value (encode row.2.1))) ∧
    (∀ as, assemble l = .ok as → l.expandsTo row.2.2 (encode row.2.1) as) ∧
    ((∃ p ∈ row.2.2, l.value? p.1 = none) → l.refused)) ∧
  ∀ l : AsmLine, l.mnemonic = .hkdfSha512 →
    (l.value? .ctx = none → l.refused) ∧
    ∀ c : HkdfContext,
      ((hkdfRegisters c).map Prod.snd).Pairwise (· < ·) ∧
      (∀ (value : AsmName → Nat) (m : Nat), (∀ p ∈ hkdfRegisters c, value p.1 < 2 ^ 32) → m < 2 ^ 8 →
        l.operands.Perm ((.ctx, .context c) :: (if c ∈ modeContexts then [(.mode, .number m)] else []) ++
          (hkdfRegisters c).map fun p => (p.1, .number (value p.1))) →
        assemble l = .ok (lineAccesses (hkdfRegisters c) value (hkdfWord c m))) ∧
      (l.value? .ctx = some (.context c) →
        (∀ as, assemble l = .ok as → ∃ m < 2 ^ 8,
          (c ∈ modeContexts → l.value? .mode = some (.number m)) ∧
          l.expandsTo (hkdfRegisters c) (hkdfWord c m) as) ∧
        ((∃ p ∈ hkdfRegisters c, l.value? p.1 = none) → l.refused) ∧
        (c ∈ modeContexts → l.value? .mode = none → l.refused) ∧
        (c ∉ modeContexts → l.value? .mode ≠ none → l.refused) ∧
        (c ∉ extraContexts → l.value? .extra ≠ none → l.refused))

end Slice0Statements
end

