-- ==== Sys2Proof/Laws/Bytes.lean ====
section
/-! SUPPORT. Byte strings: their lengths, the two encodings of numbers, exclusive-or, and pieces. -/

namespace Sys2Proof.Machine

/-! ## Lengths -/

@[simp] theorem length_zeroBytes (n : Nat) : (zeroBytes n).length = n := by simp [zeroBytes]

@[simp] theorem length_slice (s : Bytes) (a n : Nat) : (slice s a n).length = min n (s.length - a) := by
  simp [slice]

@[simp] theorem length_xorBytes (a b : Bytes) : (xorBytes a b).length = min a.length b.length := by
  simp [xorBytes]

@[simp] theorem length_leBytes (n v : Nat) : (leBytes n v).length = n := by
  induction n generalizing v with
  | zero => rfl
  | succ n ih => simp [leBytes, ih]

@[simp] theorem length_beBytes (n v : Nat) : (beBytes n v).length = n := by simp [beBytes]

@[simp] theorem length_le32 (v : Word32) : (le32 v).length = 4 := by simp [le32]

@[simp] theorem length_le64 (v : Word64) : (le64 v).length = 8 := by simp [le64]

@[simp] theorem length_be32 (v : Nat) : (be32 v).length = 4 := by simp [be32]

@[simp] theorem length_add128 (a b : Bytes) : (add128 a b).length = 16 := by simp [add128]

@[simp] theorem length_sub128 (a b : Bytes) : (sub128 a b).length = 16 := by simp [sub128]

@[simp] theorem length_shiftLeftBytes (c : Byte) (t : Bytes) :
    (shiftLeftBytes c t).1.length = t.length := by
  induction t generalizing c with
  | nil => rfl
  | cons b t ih => simp [shiftLeftBytes, ih]

@[simp] theorem length_xorFirst (v : Byte) (t : Bytes) : (xorFirst v t).length = t.length := by
  cases t <;> rfl

@[simp] theorem length_mulx (t : Bytes) : (mulx t).length = t.length := by
  unfold mulx
  dsimp only
  split <;> simp

/-! ## Numbers and their encodings -/

/-- A string of n bytes encodes a number below 2^(8n). -/
theorem leNat_lt (s : Bytes) : leNat s < 256 ^ s.length := by
  induction s with
  | nil => simp [leNat]
  | cons b s ih =>
    have hb := b.isLt
    simp only [leNat, List.length_cons, Nat.pow_succ]
    omega

/-- The number that the encoding of v holds is v mod 2^(8n) (40_primitives.md R142). -/
theorem leNat_leBytes (n v : Nat) : leNat (leBytes n v) = v % 256 ^ n := by
  induction n generalizing v with
  | zero => simp [leBytes, leNat, Nat.mod_one]
  | succ n ih =>
    simp only [leBytes, leNat, ih, BitVec.toNat_ofNat]
    rw [show 256 ^ (n + 1) = 256 * 256 ^ n from Nat.pow_succ', Nat.mod_mul]

/-- `LE32(s, o)` is the number that the four bytes at the offset encode (R141). -/
theorem toNat_le32At (s : Bytes) (o : Nat) : (le32At s o).toNat = leNat (slice s o 4) := by
  have h := leNat_lt (slice s o 4)
  have hl : 256 ^ (slice s o 4).length ≤ 256 ^ 4 := Nat.pow_le_pow_right (by decide) (by simp)
  rw [le32At, BitVec.toNat_ofNat, Nat.mod_eq_of_lt (by omega)]

/-- `LE64(s, o)` is the number that the eight bytes at the offset encode (R141). -/
theorem toNat_le64At (s : Bytes) (o : Nat) : (le64At s o).toNat = leNat (slice s o 8) := by
  have h := leNat_lt (slice s o 8)
  have hl : 256 ^ (slice s o 8).length ≤ 256 ^ 8 := Nat.pow_le_pow_right (by decide) (by simp)
  rw [le64At, BitVec.toNat_ofNat, Nat.mod_eq_of_lt (by omega)]

/-- Encoding the number of a string gives the string back. -/
theorem leBytes_leNat (s : Bytes) : leBytes s.length (leNat s) = s := by
  induction s with
  | nil => rfl
  | cons b s ih =>
    have hb := b.isLt
    have h₁ : (b.toNat + 256 * leNat s) / 256 = leNat s := by omega
    have h₂ : BitVec.ofNat 8 (b.toNat + 256 * leNat s) = b := by
      apply BitVec.eq_of_toNat_eq
      simp only [BitVec.toNat_ofNat]
      omega
    simp only [leNat, List.length_cons, leBytes, h₁, h₂, ih]

/-- Two strings of one length that encode the same number are the same. -/
theorem leNat_injective {s t : Bytes} (hl : s.length = t.length) (h : leNat s = leNat t) : s = t := by
  rw [← leBytes_leNat s, ← leBytes_leNat t, hl, h]

/-! ## Exclusive-or -/

/-- Exclusive-or with the same string twice changes nothing. -/
theorem xorBytes_cancel {a b : Bytes} (h : a.length ≤ b.length) : xorBytes (xorBytes a b) b = a := by
  induction a generalizing b with
  | nil => simp [xorBytes]
  | cons x a ih =>
    cases b with
    | nil => simp at h
    | cons y b =>
      simp only [List.length_cons, Nat.add_le_add_iff_right] at h
      have := ih h
      simp only [xorBytes] at this
      simp [xorBytes, this]

theorem xorBytes_comm (a b : Bytes) : xorBytes a b = xorBytes b a := by
  unfold xorBytes
  rw [List.zipWith_comm]
  congr 1
  funext x y
  exact BitVec.xor_comm y x

/-! ## Pieces -/

/-- With a bound of at least the length, the pieces joined are the list. -/
theorem chunksFuel_flatten {α : Type} {n : Nat} (hn : 0 < n) (k : Nat) (l : List α) (hk : l.length ≤ k) :
    (chunksFuel n k l).flatten = l := by
  induction k generalizing l with
  | zero =>
    cases l with
    | nil => rfl
    | cons x l => simp at hk
  | succ k ih =>
    cases l with
    | nil => rfl
    | cons x l =>
      simp only [List.length_cons] at hk
      have hd : ((x :: l).drop n).length ≤ k := by
        simp only [List.length_drop, List.length_cons]
        omega
      rw [chunksFuel, List.flatten_cons, ih _ hd, List.take_append_drop]

/-- The pieces of a list joined are the list. -/
theorem chunks_flatten {α : Type} {n : Nat} (hn : 0 < n) (l : List α) : (chunks n l).flatten = l :=
  chunksFuel_flatten hn l.length l (Nat.le_refl _)

/-- The bound on the number of pieces does not matter once it is the length. -/
theorem chunksFuel_mono {α : Type} {n : Nat} (hn : 0 < n) (k : Nat) (l : List α) (hk : l.length ≤ k) :
    chunksFuel n k l = chunks n l := by
  unfold chunks
  suffices ∀ k k' (l : List α), l.length ≤ k → l.length ≤ k' → chunksFuel n k l = chunksFuel n k' l from
    this k l.length l hk (Nat.le_refl _)
  intro k
  induction k with
  | zero =>
    intro k' l h _
    cases l with
    | nil => cases k' <;> rfl
    | cons x l => simp at h
  | succ k ih =>
    intro k' l h h'
    cases l with
    | nil => cases k' <;> rfl
    | cons x l =>
      cases k' with
      | zero => simp at h'
      | succ k' =>
        simp only [List.length_cons] at h h'
        simp only [chunksFuel]
        congr 1
        apply ih <;> simp only [List.length_drop, List.length_cons] <;> omega

@[simp] theorem chunks_nil {α : Type} (n : Nat) : chunks n ([] : List α) = [] := rfl

/-- The first piece and the pieces of the rest. -/
theorem chunks_cons {α : Type} {n : Nat} (hn : 0 < n) {l : List α} (hl : l ≠ []) :
    chunks n l = l.take n :: chunks n (l.drop n) := by
  cases l with
  | nil => exact absurd rfl hl
  | cons x l =>
    show chunksFuel n (l.length + 1) (x :: l) = _
    rw [chunksFuel, chunksFuel_mono hn]
    simp only [List.length_drop, List.length_cons]
    omega

/-- A full piece in front is the first piece. -/
theorem chunks_append {α : Type} {n : Nat} (hn : 0 < n) {p l : List α} (hp : p.length = n) :
    chunks n (p ++ l) = p :: chunks n l := by
  have hne : p ++ l ≠ [] := by
    cases p with
    | nil => simp only [List.length_nil] at hp; omega
    | cons x p => simp
  rw [chunks_cons hn hne, List.take_left' hp, List.drop_left' hp]

/-- Where n divides the length, every piece has n elements. -/
theorem length_of_mem_chunks {α : Type} {n : Nat} (hn : 0 < n) {l : List α} (hl : l.length % n = 0) :
    ∀ p ∈ chunks n l, p.length = n := by
  suffices ∀ k (l : List α), l.length ≤ k → l.length % n = 0 → ∀ p ∈ chunks n l, p.length = n from
    this _ l (Nat.le_refl _) hl
  intro k
  induction k with
  | zero =>
    intro l hk _ p hp
    have : l = [] := List.eq_nil_of_length_eq_zero (by omega)
    subst this
    simp at hp
  | succ k ih =>
    intro l hk hl p hp
    by_cases hnil : l = []
    · subst hnil
      simp at hp
    · have hpos : 0 < l.length := List.length_pos_iff.mpr hnil
      have hle : n ≤ l.length := Nat.le_of_mod_lt (by omega)
      rw [chunks_cons hn hnil, List.mem_cons] at hp
      rcases hp with rfl | hp
      · simp [hle]
      · refine ih (l.drop n) ?_ ?_ p hp
        · simp only [List.length_drop]; omega
        · rw [List.length_drop, ← Nat.mod_eq_sub_mod hle]; exact hl

end Sys2Proof.Machine
end

