-- ==== Sys2Proof/Laws/State.lean ====
section
/-! SUPPORT. One lemma per field per update of the state, all true by rfl, so that no later proof unfolds
a record update. -/

namespace Sys2Proof.Machine

/-! ## memWrite -/

@[simp] theorem memWrite_id (s : State) (a : Nat) (bs : Bytes) : (s.memWrite a bs).id = s.id := rfl
@[simp] theorem memWrite_dbufsz (s : State) (a : Nat) (bs : Bytes) : (s.memWrite a bs).dbufsz = s.dbufsz := rfl
@[simp] theorem memWrite_doneIe (s : State) (a : Nat) (bs : Bytes) : (s.memWrite a bs).doneIe = s.doneIe := rfl
@[simp] theorem memWrite_errIe (s : State) (a : Nat) (bs : Bytes) : (s.memWrite a bs).errIe = s.errIe := rfl
@[simp] theorem memWrite_done (s : State) (a : Nat) (bs : Bytes) : (s.memWrite a bs).done = s.done := rfl
@[simp] theorem memWrite_err (s : State) (a : Nat) (bs : Bytes) : (s.memWrite a bs).err = s.err := rfl
@[simp] theorem memWrite_cmd (s : State) (a : Nat) (bs : Bytes) : (s.memWrite a bs).cmd = s.cmd := rfl
@[simp] theorem memWrite_errcode (s : State) (a : Nat) (bs : Bytes) : (s.memWrite a bs).errcode = s.errcode := rfl
@[simp] theorem memWrite_errinfo (s : State) (a : Nat) (bs : Bytes) : (s.memWrite a bs).errinfo = s.errinfo := rfl
@[simp] theorem memWrite_operands (s : State) (a : Nat) (bs : Bytes) : (s.memWrite a bs).operands = s.operands := rfl
@[simp] theorem memWrite_dbuf (s : State) (a : Nat) (bs : Bytes) : (s.memWrite a bs).dbuf = Memory.writeBytes a bs s.dbuf := rfl
@[simp] theorem memWrite_phase (s : State) (a : Nat) (bs : Bytes) : (s.memWrite a bs).phase = s.phase := rfl
@[simp] theorem memWrite_resetInput (s : State) (a : Nat) (bs : Bytes) : (s.memWrite a bs).resetInput = s.resetInput := rfl
@[simp] theorem memWrite_inbox (s : State) (a : Nat) (bs : Bytes) : (s.memWrite a bs).inbox = s.inbox := rfl
@[simp] theorem memWrite_response (s : State) (a : Nat) (bs : Bytes) : (s.memWrite a bs).response = s.response := rfl
@[simp] theorem memWrite_resetEpoch (s : State) (a : Nat) (bs : Bytes) : (s.memWrite a bs).resetEpoch = s.resetEpoch := rfl
@[simp] theorem memWrite_drawCount (s : State) (a : Nat) (bs : Bytes) : (s.memWrite a bs).drawCount = s.drawCount := rfl

/-! ## takeWord -/

@[simp] theorem takeWord_id (w : Word32) (s : State) : (s.takeWord w).id = s.id := rfl
@[simp] theorem takeWord_dbufsz (w : Word32) (s : State) : (s.takeWord w).dbufsz = s.dbufsz := rfl
@[simp] theorem takeWord_doneIe (w : Word32) (s : State) : (s.takeWord w).doneIe = s.doneIe := rfl
@[simp] theorem takeWord_errIe (w : Word32) (s : State) : (s.takeWord w).errIe = s.errIe := rfl
@[simp] theorem takeWord_done (w : Word32) (s : State) : (s.takeWord w).done = false := rfl
@[simp] theorem takeWord_err (w : Word32) (s : State) : (s.takeWord w).err = s.err := rfl
@[simp] theorem takeWord_cmd (w : Word32) (s : State) : (s.takeWord w).cmd = w := rfl
@[simp] theorem takeWord_errcode (w : Word32) (s : State) : (s.takeWord w).errcode = s.errcode := rfl
@[simp] theorem takeWord_errinfo (w : Word32) (s : State) : (s.takeWord w).errinfo = s.errinfo := rfl
@[simp] theorem takeWord_operands (w : Word32) (s : State) : (s.takeWord w).operands = s.operands := rfl
@[simp] theorem takeWord_dbuf (w : Word32) (s : State) : (s.takeWord w).dbuf = s.dbuf := rfl
@[simp] theorem takeWord_phase (w : Word32) (s : State) : (s.takeWord w).phase = s.phase := rfl
@[simp] theorem takeWord_resetInput (w : Word32) (s : State) : (s.takeWord w).resetInput = s.resetInput := rfl
@[simp] theorem takeWord_inbox (w : Word32) (s : State) : (s.takeWord w).inbox = s.inbox := rfl
@[simp] theorem takeWord_response (w : Word32) (s : State) : (s.takeWord w).response = s.response := rfl
@[simp] theorem takeWord_resetEpoch (w : Word32) (s : State) : (s.takeWord w).resetEpoch = s.resetEpoch := rfl
@[simp] theorem takeWord_drawCount (w : Word32) (s : State) : (s.takeWord w).drawCount = s.drawCount := rfl

/-! ## resetEngine -/

@[simp] theorem resetEngine_id (s : State) : (s.resetEngine).id = s.id := rfl
@[simp] theorem resetEngine_dbufsz (s : State) : (s.resetEngine).dbufsz = s.dbufsz := rfl
@[simp] theorem resetEngine_doneIe (s : State) : (s.resetEngine).doneIe = false := rfl
@[simp] theorem resetEngine_errIe (s : State) : (s.resetEngine).errIe = false := rfl
@[simp] theorem resetEngine_done (s : State) : (s.resetEngine).done = false := rfl
@[simp] theorem resetEngine_err (s : State) : (s.resetEngine).err = false := rfl
@[simp] theorem resetEngine_cmd (s : State) : (s.resetEngine).cmd = 0 := rfl
@[simp] theorem resetEngine_errcode (s : State) : (s.resetEngine).errcode = .none := rfl
@[simp] theorem resetEngine_errinfo (s : State) : (s.resetEngine).errinfo = 0 := rfl
@[simp] theorem resetEngine_operands (s : State) : (s.resetEngine).operands = Vector.replicate 8 0 := rfl
@[simp] theorem resetEngine_dbuf (s : State) : (s.resetEngine).dbuf = [] := rfl
@[simp] theorem resetEngine_phase (s : State) : (s.resetEngine).phase = .idle := rfl
@[simp] theorem resetEngine_resetInput (s : State) : (s.resetEngine).resetInput = s.resetInput := rfl
@[simp] theorem resetEngine_inbox (s : State) : (s.resetEngine).inbox = s.inbox := rfl
@[simp] theorem resetEngine_response (s : State) : (s.resetEngine).response = s.response := rfl
@[simp] theorem resetEngine_resetEpoch (s : State) : (s.resetEngine).resetEpoch = s.resetEpoch + 1 := rfl
@[simp] theorem resetEngine_drawCount (s : State) : (s.resetEngine).drawCount = s.drawCount := rfl

/-! ## writeOperand -/

@[simp] theorem writeOperand_id (i : Fin 8) (v : Word32) (s : State) : (writeOperand i v s).id = s.id := rfl
@[simp] theorem writeOperand_dbufsz (i : Fin 8) (v : Word32) (s : State) : (writeOperand i v s).dbufsz = s.dbufsz := rfl
@[simp] theorem writeOperand_doneIe (i : Fin 8) (v : Word32) (s : State) : (writeOperand i v s).doneIe = s.doneIe := rfl
@[simp] theorem writeOperand_errIe (i : Fin 8) (v : Word32) (s : State) : (writeOperand i v s).errIe = s.errIe := rfl
@[simp] theorem writeOperand_done (i : Fin 8) (v : Word32) (s : State) : (writeOperand i v s).done = s.done := rfl
@[simp] theorem writeOperand_err (i : Fin 8) (v : Word32) (s : State) : (writeOperand i v s).err = s.err := rfl
@[simp] theorem writeOperand_cmd (i : Fin 8) (v : Word32) (s : State) : (writeOperand i v s).cmd = s.cmd := rfl
@[simp] theorem writeOperand_errcode (i : Fin 8) (v : Word32) (s : State) : (writeOperand i v s).errcode = s.errcode := rfl
@[simp] theorem writeOperand_errinfo (i : Fin 8) (v : Word32) (s : State) : (writeOperand i v s).errinfo = s.errinfo := rfl
@[simp] theorem writeOperand_operands (i : Fin 8) (v : Word32) (s : State) : (writeOperand i v s).operands = s.operands.set i.val v i.isLt := rfl
@[simp] theorem writeOperand_dbuf (i : Fin 8) (v : Word32) (s : State) : (writeOperand i v s).dbuf = s.dbuf := rfl
@[simp] theorem writeOperand_phase (i : Fin 8) (v : Word32) (s : State) : (writeOperand i v s).phase = s.phase := rfl
@[simp] theorem writeOperand_resetInput (i : Fin 8) (v : Word32) (s : State) : (writeOperand i v s).resetInput = s.resetInput := rfl
@[simp] theorem writeOperand_inbox (i : Fin 8) (v : Word32) (s : State) : (writeOperand i v s).inbox = s.inbox := rfl
@[simp] theorem writeOperand_response (i : Fin 8) (v : Word32) (s : State) : (writeOperand i v s).response = s.response := rfl
@[simp] theorem writeOperand_resetEpoch (i : Fin 8) (v : Word32) (s : State) : (writeOperand i v s).resetEpoch = s.resetEpoch := rfl
@[simp] theorem writeOperand_drawCount (i : Fin 8) (v : Word32) (s : State) : (writeOperand i v s).drawCount = s.drawCount := rfl

/-! ## placeCmdWrite -/

@[simp] theorem placeCmdWrite_id (w : Word32) (s : State) : (s.placeCmdWrite w).id = s.id := rfl
@[simp] theorem placeCmdWrite_dbufsz (w : Word32) (s : State) : (s.placeCmdWrite w).dbufsz = s.dbufsz := rfl
@[simp] theorem placeCmdWrite_doneIe (w : Word32) (s : State) : (s.placeCmdWrite w).doneIe = s.doneIe := rfl
@[simp] theorem placeCmdWrite_errIe (w : Word32) (s : State) : (s.placeCmdWrite w).errIe = s.errIe := rfl
@[simp] theorem placeCmdWrite_done (w : Word32) (s : State) : (s.placeCmdWrite w).done = s.done := rfl
@[simp] theorem placeCmdWrite_err (w : Word32) (s : State) : (s.placeCmdWrite w).err = false := rfl
@[simp] theorem placeCmdWrite_cmd (w : Word32) (s : State) : (s.placeCmdWrite w).cmd = s.cmd := rfl
@[simp] theorem placeCmdWrite_errcode (w : Word32) (s : State) : (s.placeCmdWrite w).errcode = .none := rfl
@[simp] theorem placeCmdWrite_errinfo (w : Word32) (s : State) : (s.placeCmdWrite w).errinfo = 0 := rfl
@[simp] theorem placeCmdWrite_operands (w : Word32) (s : State) : (s.placeCmdWrite w).operands = s.operands := rfl
@[simp] theorem placeCmdWrite_dbuf (w : Word32) (s : State) : (s.placeCmdWrite w).dbuf = s.dbuf := rfl
@[simp] theorem placeCmdWrite_phase (w : Word32) (s : State) : (s.placeCmdWrite w).phase = .idle := rfl
@[simp] theorem placeCmdWrite_resetInput (w : Word32) (s : State) : (s.placeCmdWrite w).resetInput = false := rfl
@[simp] theorem placeCmdWrite_inbox (w : Word32) (s : State) : (s.placeCmdWrite w).inbox = .access (cmdWrite w) :: s.inbox := rfl
@[simp] theorem placeCmdWrite_response (w : Word32) (s : State) : (s.placeCmdWrite w).response = s.response := rfl
@[simp] theorem placeCmdWrite_resetEpoch (w : Word32) (s : State) : (s.placeCmdWrite w).resetEpoch = s.resetEpoch := rfl
@[simp] theorem placeCmdWrite_drawCount (w : Word32) (s : State) : (s.placeCmdWrite w).drawCount = s.drawCount := rfl

/-! ## after -/

@[simp] theorem stateAfter_id (s : State) (rest : List Event) (r : Option BusResponse) : (s.after rest r).id = s.id := rfl
@[simp] theorem stateAfter_dbufsz (s : State) (rest : List Event) (r : Option BusResponse) : (s.after rest r).dbufsz = s.dbufsz := rfl
@[simp] theorem stateAfter_doneIe (s : State) (rest : List Event) (r : Option BusResponse) : (s.after rest r).doneIe = s.doneIe := rfl
@[simp] theorem stateAfter_errIe (s : State) (rest : List Event) (r : Option BusResponse) : (s.after rest r).errIe = s.errIe := rfl
@[simp] theorem stateAfter_done (s : State) (rest : List Event) (r : Option BusResponse) : (s.after rest r).done = s.done := rfl
@[simp] theorem stateAfter_err (s : State) (rest : List Event) (r : Option BusResponse) : (s.after rest r).err = s.err := rfl
@[simp] theorem stateAfter_cmd (s : State) (rest : List Event) (r : Option BusResponse) : (s.after rest r).cmd = s.cmd := rfl
@[simp] theorem stateAfter_errcode (s : State) (rest : List Event) (r : Option BusResponse) : (s.after rest r).errcode = s.errcode := rfl
@[simp] theorem stateAfter_errinfo (s : State) (rest : List Event) (r : Option BusResponse) : (s.after rest r).errinfo = s.errinfo := rfl
@[simp] theorem stateAfter_operands (s : State) (rest : List Event) (r : Option BusResponse) : (s.after rest r).operands = s.operands := rfl
@[simp] theorem stateAfter_dbuf (s : State) (rest : List Event) (r : Option BusResponse) : (s.after rest r).dbuf = s.dbuf := rfl
@[simp] theorem stateAfter_phase (s : State) (rest : List Event) (r : Option BusResponse) : (s.after rest r).phase = s.phase := rfl
@[simp] theorem stateAfter_resetInput (s : State) (rest : List Event) (r : Option BusResponse) : (s.after rest r).resetInput = s.resetInput := rfl
@[simp] theorem stateAfter_inbox (s : State) (rest : List Event) (r : Option BusResponse) : (s.after rest r).inbox = rest := rfl
@[simp] theorem stateAfter_response (s : State) (rest : List Event) (r : Option BusResponse) : (s.after rest r).response = r := rfl
@[simp] theorem stateAfter_resetEpoch (s : State) (rest : List Event) (r : Option BusResponse) : (s.after rest r).resetEpoch = s.resetEpoch := rfl
@[simp] theorem stateAfter_drawCount (s : State) (rest : List Event) (r : Option BusResponse) : (s.after rest r).drawCount = s.drawCount := rfl

/-! ## answer -/

@[simp] theorem answer_id (s : State) (r : BusResponse) : (s.answer r).id = s.id := rfl
@[simp] theorem answer_dbufsz (s : State) (r : BusResponse) : (s.answer r).dbufsz = s.dbufsz := rfl
@[simp] theorem answer_doneIe (s : State) (r : BusResponse) : (s.answer r).doneIe = s.doneIe := rfl
@[simp] theorem answer_errIe (s : State) (r : BusResponse) : (s.answer r).errIe = s.errIe := rfl
@[simp] theorem answer_done (s : State) (r : BusResponse) : (s.answer r).done = s.done := rfl
@[simp] theorem answer_err (s : State) (r : BusResponse) : (s.answer r).err = s.err := rfl
@[simp] theorem answer_cmd (s : State) (r : BusResponse) : (s.answer r).cmd = s.cmd := rfl
@[simp] theorem answer_errcode (s : State) (r : BusResponse) : (s.answer r).errcode = s.errcode := rfl
@[simp] theorem answer_errinfo (s : State) (r : BusResponse) : (s.answer r).errinfo = s.errinfo := rfl
@[simp] theorem answer_operands (s : State) (r : BusResponse) : (s.answer r).operands = s.operands := rfl
@[simp] theorem answer_dbuf (s : State) (r : BusResponse) : (s.answer r).dbuf = s.dbuf := rfl
@[simp] theorem answer_phase (s : State) (r : BusResponse) : (s.answer r).phase = s.phase := rfl
@[simp] theorem answer_resetInput (s : State) (r : BusResponse) : (s.answer r).resetInput = s.resetInput := rfl
@[simp] theorem answer_inbox (s : State) (r : BusResponse) : (s.answer r).inbox = s.inbox := rfl
@[simp] theorem answer_response (s : State) (r : BusResponse) : (s.answer r).response = some r := rfl
@[simp] theorem answer_resetEpoch (s : State) (r : BusResponse) : (s.answer r).resetEpoch = s.resetEpoch := rfl
@[simp] theorem answer_drawCount (s : State) (r : BusResponse) : (s.answer r).drawCount = s.drawCount := rfl

@[simp] theorem after_answer (s : State) (rest : List Event) (r : BusResponse) :
    (s.after rest none).answer r = s.after rest (some r) := rfl

/-! ## withError, and raiseError through it -/

@[simp] theorem withError_id (s : State) (c : ErrorCode) (w : Word32) : (s.withError c w).id = s.id := rfl
@[simp] theorem withError_dbufsz (s : State) (c : ErrorCode) (w : Word32) : (s.withError c w).dbufsz = s.dbufsz := rfl
@[simp] theorem withError_doneIe (s : State) (c : ErrorCode) (w : Word32) : (s.withError c w).doneIe = s.doneIe := rfl
@[simp] theorem withError_errIe (s : State) (c : ErrorCode) (w : Word32) : (s.withError c w).errIe = s.errIe := rfl
@[simp] theorem withError_done (s : State) (c : ErrorCode) (w : Word32) : (s.withError c w).done = s.done := rfl
@[simp] theorem withError_err (s : State) (c : ErrorCode) (w : Word32) : (s.withError c w).err = true := rfl
@[simp] theorem withError_cmd (s : State) (c : ErrorCode) (w : Word32) : (s.withError c w).cmd = s.cmd := rfl
@[simp] theorem withError_errcode (s : State) (c : ErrorCode) (w : Word32) : (s.withError c w).errcode = if s.err then s.errcode else c := rfl
@[simp] theorem withError_errinfo (s : State) (c : ErrorCode) (w : Word32) : (s.withError c w).errinfo = if s.err then s.errinfo else w := rfl
@[simp] theorem withError_operands (s : State) (c : ErrorCode) (w : Word32) : (s.withError c w).operands = s.operands := rfl
@[simp] theorem withError_dbuf (s : State) (c : ErrorCode) (w : Word32) : (s.withError c w).dbuf = s.dbuf := rfl
@[simp] theorem withError_phase (s : State) (c : ErrorCode) (w : Word32) : (s.withError c w).phase = s.phase := rfl
@[simp] theorem withError_resetInput (s : State) (c : ErrorCode) (w : Word32) : (s.withError c w).resetInput = s.resetInput := rfl
@[simp] theorem withError_inbox (s : State) (c : ErrorCode) (w : Word32) : (s.withError c w).inbox = s.inbox := rfl
@[simp] theorem withError_response (s : State) (c : ErrorCode) (w : Word32) : (s.withError c w).response = s.response := rfl
@[simp] theorem withError_resetEpoch (s : State) (c : ErrorCode) (w : Word32) : (s.withError c w).resetEpoch = s.resetEpoch := rfl
@[simp] theorem withError_drawCount (s : State) (c : ErrorCode) (w : Word32) : (s.withError c w).drawCount = s.drawCount := rfl

/-- Raising an error is the one update `withError` (60_exceptions.md R343). -/
theorem raiseError_eq_withError (c : ErrorCode) (w : Word32) (s : State) :
    raiseError c w s = s.withError c w := by
  unfold raiseError State.withError
  cases s.err <;> rfl

end Sys2Proof.Machine
end

