-- ==== Sys2Proof/Laws/Memory.lean ====
section
/-! SUPPORT. The bytes of DBUF: read after write, the canonical form, and the frame of a write. -/

namespace Sys2Proof.Machine

/-! ## One byte -/

/-- Reading after writing one byte. -/
theorem read?_write (a a' : Nat) (b : Byte) (m : Memory) :
    Memory.read? a' (Memory.write a b m) = if a' = a then some b else Memory.read? a' m := by
  induction m with
  | nil => simp [Memory.write, Memory.read?]
  | cons c m ih =>
    obtain ⟨k, v⟩ := c
    simp only [Memory.write]
    split
    · simp [Memory.read?]
    · split
      · rename_i h
        subst h
        by_cases h : a' = a <;> simp [Memory.read?, h]
      · rename_i h₁ h₂
        by_cases h : a' = k
        · subst h
          simp [Memory.read?, Ne.symm h₂]
        · simp [Memory.read?, h, ih]

/-- Every entry of a memory after a write is the written one or an old one. -/
theorem mem_write {a : Nat} {b : Byte} {m : Memory} {c : Host.Cell} (h : c ∈ Memory.write a b m) :
    c = (a, b) ∨ c ∈ m := by
  induction m with
  | nil => simpa [Memory.write] using h
  | cons d m ih =>
    obtain ⟨k, v⟩ := d
    simp only [Memory.write] at h
    split at h
    · simpa using h
    · split at h
      · simp only [List.mem_cons] at h ⊢
        tauto
      · simp only [List.mem_cons] at h ⊢
        rcases h with h | h
        · exact .inr (.inl h)
        · rcases ih h with h | h <;> tauto

/-- A write keeps the canonical form. -/
theorem wf_write {a : Nat} {b : Byte} {m : Memory} (h : Memory.wf m) :
    Memory.wf (Memory.write a b m) := by
  induction m with
  | nil => simp [Memory.wf, Memory.write]
  | cons c m ih =>
    obtain ⟨k, v⟩ := c
    obtain ⟨hk, hm⟩ := List.pairwise_cons.mp h
    simp only [Memory.write]
    split
    · rename_i hlt
      refine List.pairwise_cons.mpr ⟨fun c hc => ?_, h⟩
      rcases List.mem_cons.mp hc with rfl | hc
      · exact hlt
      · exact Nat.lt_trans hlt (hk c hc)
    · split
      · rename_i heq
        subst heq
        exact List.pairwise_cons.mpr ⟨hk, hm⟩
      · rename_i h₁ h₂
        refine List.pairwise_cons.mpr ⟨fun c hc => ?_, ih hm⟩
        rcases mem_write hc with rfl | hc
        · show k < a
          omega
        · exact hk c hc

/-! ## Byte strings -/

/-- Reading after writing a byte string. -/
theorem read?_writeBytes (a a' : Nat) (bs : Bytes) (m : Memory) :
    Memory.read? a' (Memory.writeBytes a bs m) =
      if a ≤ a' ∧ a' < a + bs.length then bs[a' - a]? else Memory.read? a' m := by
  induction bs generalizing a m with
  | nil =>
    have : ¬ (a ≤ a' ∧ a' < a + 0) := by omega
    rw [Memory.writeBytes, List.length_nil, if_neg this]
  | cons b bs ih =>
    simp only [Memory.writeBytes, ih, read?_write, List.length_cons]
    by_cases h : a' = a
    · subst h
      simp
    · by_cases h₁ : a + 1 ≤ a' ∧ a' < a + 1 + bs.length
      · have h₂ : a ≤ a' ∧ a' < a + (bs.length + 1) := by omega
        obtain ⟨k, rfl⟩ : ∃ k, a' = a + k + 1 := ⟨a' - a - 1, by omega⟩
        have e₁ : a + k + 1 - (a + 1) = k := by omega
        have e₂ : a + k + 1 - a = k + 1 := by omega
        rw [if_pos h₁, if_pos h₂, e₁, e₂, List.getElem?_cons_succ]
      · have h₂ : ¬ (a ≤ a' ∧ a' < a + (bs.length + 1)) := by omega
        rw [if_neg h₁, if_neg h₂, if_neg h]

/-- Writing a byte string keeps the canonical form. -/
theorem wf_writeBytes {a : Nat} {bs : Bytes} {m : Memory} (h : Memory.wf m) :
    Memory.wf (Memory.writeBytes a bs m) := by
  induction bs generalizing a m with
  | nil => exact h
  | cons b bs ih => exact ih (wf_write h)

/-- Writing a byte string below a bound keeps every address below it. -/
theorem writeBytes_inside {n a : Nat} {bs : Bytes} {m : Memory} (h : ∀ c ∈ m, c.1 < n)
    (hb : a + bs.length ≤ n) : ∀ c ∈ Memory.writeBytes a bs m, c.1 < n := by
  induction bs generalizing a m with
  | nil => exact h
  | cons b bs ih =>
    simp only [List.length_cons] at hb
    refine ih (fun c hc => ?_) (by omega)
    rcases mem_write hc with rfl | hc
    · show a < n
      omega
    · exact h c hc

/-- The memory of `State.reset` has the canonical form. -/
theorem wf_reset : Memory.wf State.reset.dbuf := List.Pairwise.nil

/-- The memory after a reset of the engine has the canonical form. -/
theorem wf_resetEngine (s : State) : Memory.wf s.resetEngine.dbuf := List.Pairwise.nil

/-! ## The reads of the state -/

/-- A byte after a write: the written byte inside the string, the old one outside it. -/
theorem dbufByte_memWrite (s : State) (a a' : Nat) (bs : Bytes) :
    (s.memWrite a bs).dbufByte a' =
      if a ≤ a' ∧ a' < a + bs.length then bs.getD (a' - a) 0 else s.dbufByte a' := by
  unfold State.dbufByte
  simp only [memWrite_dbuf, memWrite_resetEpoch, read?_writeBytes]
  split
  · rename_i h
    rw [List.getD_eq_getElem?_getD, List.getElem?_eq_getElem (by omega)]
    rfl
  · rfl

/-- A byte depends on DBUF and on the number of the reset alone. -/
theorem dbufByte_congr {s t : State} (h₁ : t.dbuf = s.dbuf) (h₂ : t.resetEpoch = s.resetEpoch) (a : Nat) :
    t.dbufByte a = s.dbufByte a := by
  unfold State.dbufByte
  rw [h₁, h₂]

/-- A string read has the size of its range. -/
@[simp] theorem length_memRead (s : State) (r : Range) : (s.memRead r).length = r.size := by
  simp [State.memRead]

/-- Byte j of a string read. -/
theorem getElem?_memRead (s : State) (r : Range) (j : Nat) :
    (s.memRead r)[j]? = if j < r.size then some (s.dbufByte (r.addr + j)) else none := by
  unfold State.memRead
  split
  · rename_i h
    simp [h]
  · rename_i h
    simp [Nat.le_of_not_lt h]

/-- Two states that agree on the bytes of a range read the same string from it. -/
theorem memRead_congr {s t : State} {r : Range} (h : ∀ a, r.mem a → t.dbufByte a = s.dbufByte a) :
    t.memRead r = s.memRead r := by
  apply List.ext_getElem?
  intro j
  rw [getElem?_memRead, getElem?_memRead]
  split
  · rename_i hj
    rw [h (r.addr + j) ⟨by omega, by omega⟩]
  · rfl

/-- Reading the range just written gives the string written. -/
theorem memRead_memWrite_same (s : State) (r : Range) (bs : Bytes) (h : bs.length = r.size) :
    (s.memWrite r.addr bs).memRead r = bs := by
  apply List.ext_getElem?
  intro j
  rw [getElem?_memRead]
  split
  · rename_i hj
    rw [dbufByte_memWrite, if_pos ⟨by omega, by omega⟩]
    have e : r.addr + j - r.addr = j := by omega
    rw [e, List.getD_eq_getElem?_getD, List.getElem?_eq_getElem (by omega)]
    rfl
  · rename_i hj
    exact (List.getElem?_eq_none (by omega)).symm

/-- A byte outside the range written is as before. -/
theorem dbufByte_memWrite_outside (s : State) (r : Range) (bs : Bytes) (h : bs.length = r.size) {a : Nat}
    (ha : ¬ r.mem a) : (s.memWrite r.addr bs).dbufByte a = s.dbufByte a := by
  rw [dbufByte_memWrite, if_neg]
  rw [h]
  exact ha

end Sys2Proof.Machine
end

