-- ==== Sys2Proof/Laws/Ops.lean ====
section
/-! SUPPORT. What the command framework can do, said once: the checks of a submission, its two outcomes,
and the completion (spec/40_primitives.md R170 to R176). -/

namespace Sys2Proof.Machine

/-! ## The checks -/

theorem fits_iff (n : Nat) (r : Range) : r.fits n = true ↔ r.addr + r.size ≤ n := by
  simp [Range.fits]

theorem overlaps_eq_false_iff (r t : Range) : r.overlaps t = false ↔ r.disjoint t := by
  unfold Range.overlaps Range.disjoint
  simp only [Bool.and_eq_false_iff, decide_eq_false_iff_not]
  omega

/-- The range rule, in exact integers (R172). -/
theorem rangesFit_iff (n : Nat) (c : Command) :
    c.rangesFit n = true ↔ ∀ r ∈ c.ranges, r.addr + r.size ≤ n := by
  unfold Command.rangesFit
  rw [List.all_eq_true]
  exact forall_congr' fun r => imp_congr_right fun _ => fits_iff n r

/-- The alias rule (R174). -/
theorem aliasOk_iff (c : Command) :
    c.aliasOk = true ↔ (∀ r ∈ c.inputs, c.output.disjoint r) ∧
      ∀ r ∈ c.dataInput.toList, r = c.output ∨ c.output.disjoint r := by
  unfold Command.aliasOk
  simp only [Bool.and_eq_true, List.all_eq_true, Bool.not_eq_true', overlaps_eq_false_iff,
    Bool.or_eq_true, beq_iff_eq]

/-- A command raises no error exactly when its length predicate holds and its ranges are acceptable. -/
theorem error_eq_none_iff (n : Nat) (c : Command) :
    c.error n = none ↔ c.lengthOk = true ∧ acceptable n c.inputs c.dataInput c.output := by
  have h₁ := rangesFit_iff n c
  have h₂ := aliasOk_iff c
  unfold Command.ranges at h₁
  unfold Command.error acceptable
  rw [← h₁, ← h₂]
  cases c.lengthOk <;> cases c.rangesFit n <;> cases c.aliasOk <;> simp

/-- The error that a command raises is the first of LENGTH, RANGE and ALIAS that applies. -/
theorem error_eq_some_iff (n : Nat) (c : Command) (e : ErrorCode) :
    c.error n = some e ↔
      (c.lengthOk = false ∧ e = .length) ∨
      (c.lengthOk = true ∧ c.rangesFit n = false ∧ e = .range) ∨
      (c.lengthOk = true ∧ c.rangesFit n = true ∧ c.aliasOk = false ∧ e = .aliasing) := by
  unfold Command.error
  cases c.lengthOk <;> cases c.rangesFit n <;> cases c.aliasOk <;> simp [eq_comm]

/-! ## The two events of a command -/

/-- Every meaning is the framework run on the instruction's own command. -/
theorem exec_eq_runCommand (i : Instr) (s : State) : exec i s = runCommand i (commandOf i) s := by
  cases i <;> rfl

/-- A refused submission: CMD takes the word, DONE is cleared, and the error is raised (R343). -/
theorem submitCommand_refused {w : Word32} {c : Command} {s : State} {e : ErrorCode}
    (h : c.error s.dbufsz.toNat = some e) : submitCommand w c s = (s.takeWord w).withError e w := by
  simp [submitCommand, h, refuseWord, raiseError_eq_withError]

/-- An accepted submission: CMD takes the word, DONE is cleared, and the command is latched (R170). -/
theorem submitCommand_accepted {w : Word32} {c : Command} {s : State}
    (h : c.error s.dbufsz.toNat = none) :
    submitCommand w c s = { s.takeWord w with phase := .busy { word := w, x := s.operands } } := by
  simp [submitCommand, h]

/-- What a completion answers. -/
theorem completeCommand_eq_next_iff {c : Command} {s t : State} :
    completeCommand c s = .next t ↔ c.error s.dbufsz.toNat = none ∧
      t = { s.memWrite c.output.addr (c.result s.memRead) with phase := .idle, done := true } := by
  unfold completeCommand
  cases c.error s.dbufsz.toNat <;> simp [eq_comm]

/-- A completion writes the output range and nothing else (R176, R179), its output being of the right
size. -/
theorem completeCommand_completedWith {c : Command} {s : State} (h : c.error s.dbufsz.toNat = none)
    (hl : (c.result s.memRead).length = c.output.size) :
    ∃ t, completeCommand c s = .next t ∧ s.completedWith t c.output (c.result s.memRead) := by
  refine ⟨_, completeCommand_eq_next_iff.mpr ⟨h, rfl⟩, rfl, rfl, ?_, ?_, ?_⟩
  · exact (memRead_congr fun a _ => dbufByte_congr rfl rfl a).trans (memRead_memWrite_same s _ _ hl)
  · intro a ha
    exact (dbufByte_congr rfl rfl a).trans (dbufByte_memWrite_outside s _ _ hl ha)
  · simp [State.sameRegisters]

/-- An instruction in phase IDLE is submitted, or ignored while ERR is 1. -/
theorem exec_idle {i : Instr} {s : State} (h : s.phase = .idle) :
    exec i s = .next (if s.err then s else submitCommand (encode i) (commandOf i s.operands) s) := by
  rw [exec_eq_runCommand, runCommand, h]

/-- An instruction in phase BUSY completes with the latched operands. -/
theorem exec_busy {i : Instr} {s : State} {l : Latch} (h : s.phase = .busy l) :
    exec i s = completeCommand (commandOf i l.x) s := by
  rw [exec_eq_runCommand, runCommand, h]

/-- No instruction is refused by the model. -/
theorem exec_ne_refused (i : Instr) (s : State) (r : Refusal) : exec i s ≠ .refused r := by
  cases h : s.phase with
  | idle => simp [exec_idle h]
  | busy l =>
    rw [exec_busy h, completeCommand]
    split <;> simp

end Sys2Proof.Machine
end

