-- ==== Sys2Proof/Laws/Engine.lean ====
section
/-! SUPPORT. What a step can do, said once: `Moves s t` has one constructor for each thing that can happen,
and `step_moves` says that a step which answers a next state is one of them. -/

namespace Sys2Proof.Machine

/-- A host write that is no submission: the state it leaves, on a state that has answered the access. -/
def plainWrite (a : Access) (v : Word32) (s : State) : State :=
  writeTarget a.offset (s.targetAt a.offset) v s

/-- The things that can happen in one step. -/
inductive Moves (s : State) : State → Prop where
  /-- nothing: the inbox is empty and the engine is idle -/
  | waits (hi : s.inbox = []) (hp : s.phase = .idle) : Moves s (s.after [] none)
  /-- the engine's turn comes while it is idle -/
  | turnsIdle (rest : List Event) (hi : s.inbox = .engineTurn :: rest) (hp : s.phase = .idle) :
      Moves s (s.after rest none)
  /-- the engine completes the latched command -/
  | completes (rest : List Event) (l : Latch) (i : Instr)
      (hi : (s.inbox = [] ∧ rest = []) ∨ s.inbox = .engineTurn :: rest) (hp : s.phase = .busy l)
      (hd : decode l.word = .ok i) (he : (commandOf i l.x).error s.dbufsz.toNat = none) :
      Moves s { (s.after rest none).memWrite (commandOf i l.x).output.addr
        ((commandOf i l.x).result (s.after rest none).memRead) with phase := .idle, done := true }
  /-- the reset input is driven -/
  | resets (rest : List Event) (b : Bool) (hi : s.inbox = .resetInput b :: rest) :
      Moves s (driveReset b (s.after rest none))
  /-- an access is not performed, because the reset input is asserted -/
  | drops (rest : List Event) (a : Access) (hi : s.inbox = .access a :: rest)
      (hr : s.resetInput = true) : Moves s (s.after rest none)
  /-- an access gets a bus error -/
  | rejects (rest : List Event) (a : Access) (hi : s.inbox = .access a :: rest)
      (hr : s.resetInput = false) (ha : a.served = false) : Moves s (s.after rest (some .busError))
  /-- the host reads -/
  | reads (rest : List Event) (a : Access) (hi : s.inbox = .access a :: rest)
      (hr : s.resetInput = false) (ha : a.served = true) (hk : a.kind = .read) :
      Moves s (busRead a.offset (s.after rest none))
  /-- the host writes anything but CMD -/
  | writes (rest : List Event) (a : Access) (v : Word32) (hi : s.inbox = .access a :: rest)
      (hr : s.resetInput = false) (ha : a.served = true) (hk : a.kind = .write v)
      (ht : s.targetAt a.offset ≠ .cmd) :
      Moves s (plainWrite a v (s.after rest (some .writeAck)))
  /-- the host writes CMD while BUSY -/
  | violates (rest : List Event) (a : Access) (v : Word32) (l : Latch) (hi : s.inbox = .access a :: rest)
      (hr : s.resetInput = false) (ha : a.served = true) (hk : a.kind = .write v)
      (ht : s.targetAt a.offset = .cmd) (hp : s.phase = .busy l) :
      Moves s ((s.after rest (some .writeAck)).withError .busyViolation (a.offset.setWidth 32))
  /-- the host writes CMD in the error state -/
  | ignores (rest : List Event) (a : Access) (v : Word32) (hi : s.inbox = .access a :: rest)
      (hr : s.resetInput = false) (ha : a.served = true) (hk : a.kind = .write v)
      (ht : s.targetAt a.offset = .cmd) (hp : s.phase = .idle) (he : s.err = true) :
      Moves s (s.after rest (some .writeAck))
  /-- the host writes a word to CMD that is no command -/
  | refusesWord (rest : List Event) (a : Access) (w : Word32) (d : DecodeError)
      (hi : s.inbox = .access a :: rest)
      (hr : s.resetInput = false) (ha : a.served = true) (hk : a.kind = .write w)
      (ht : s.targetAt a.offset = .cmd) (hp : s.phase = .idle) (hn : s.err = false)
      (hd : decode w = .error d) :
      Moves s (((s.after rest (some .writeAck)).takeWord w).withError (decodeErrorCode d) w)
  /-- the host writes a command to CMD that fails a check -/
  | refusesCommand (rest : List Event) (a : Access) (w : Word32) (i : Instr) (e : ErrorCode)
      (hi : s.inbox = .access a :: rest)
      (hr : s.resetInput = false) (ha : a.served = true) (hk : a.kind = .write w)
      (ht : s.targetAt a.offset = .cmd) (hp : s.phase = .idle) (hn : s.err = false)
      (hd : decode w = .ok i) (he : (commandOf i s.operands).error s.dbufsz.toNat = some e) :
      Moves s (((s.after rest (some .writeAck)).takeWord (encode i)).withError e (encode i))
  /-- the host writes a command to CMD that the engine accepts -/
  | accepts (rest : List Event) (a : Access) (w : Word32) (i : Instr) (hi : s.inbox = .access a :: rest)
      (hr : s.resetInput = false) (ha : a.served = true) (hk : a.kind = .write w)
      (ht : s.targetAt a.offset = .cmd) (hp : s.phase = .idle) (hn : s.err = false)
      (hd : decode w = .ok i) (he : (commandOf i s.operands).error s.dbufsz.toNat = none) :
      Moves s { (s.after rest (some .writeAck)).takeWord (encode i) with
        phase := .busy { word := encode i, x := s.operands } }

theorem busy_iff {s : State} : s.busy = true ↔ ∃ l, s.phase = .busy l := by
  unfold State.busy
  cases s.phase <;> simp

theorem not_busy_iff {s : State} : s.busy = false ↔ s.phase = .idle := by
  unfold State.busy
  cases s.phase <;> simp

/-- The engine's turn in phase BUSY, where it answers a next state. -/
theorem engineTurn_busy {s t : State} {l : Latch} (hp : s.phase = .busy l) (h : engineTurn s = .next t) :
    ∃ i, decode l.word = .ok i ∧ (commandOf i l.x).error s.dbufsz.toNat = none ∧
      t = { s.memWrite (commandOf i l.x).output.addr ((commandOf i l.x).result s.memRead) with
        phase := .idle, done := true } := by
  rw [engineTurn, hp] at h
  simp only at h
  split at h
  · rename_i i hd
    rw [exec_busy hp, completeCommand_eq_next_iff] at h
    exact ⟨i, hd, h⟩
  · simp at h

/-! ## The step by its event -/

theorem step_nil {s : State} (hi : s.inbox = []) : step s = engineTurn (s.after [] none) := by
  simp only [step, advance, hi]

theorem step_engineTurn {s : State} {rest : List Event} (hi : s.inbox = .engineTurn :: rest) :
    step s = engineTurn (s.after rest none) := by
  simp only [step, advance, hi, performEvent]

theorem step_resetInput {s : State} {rest : List Event} {b : Bool}
    (hi : s.inbox = .resetInput b :: rest) : step s = .next (driveReset b (s.after rest none)) := by
  simp only [step, advance, hi, performEvent]

theorem step_access_dropped {s : State} {rest : List Event} {a : Access}
    (hi : s.inbox = .access a :: rest) (hr : s.resetInput = true) :
    step s = .next (s.after rest none) := by
  simp only [step, advance, hi, performEvent, stateAfter_resetInput, hr, if_true]

theorem step_access_rejected {s : State} {rest : List Event} {a : Access}
    (hi : s.inbox = .access a :: rest) (hr : s.resetInput = false) (ha : a.served = false) :
    step s = .next (s.after rest (some .busError)) := by
  simp only [step, advance, hi, performEvent, stateAfter_resetInput, hr, performAccess, ha,
    Bool.false_eq_true, if_false]
  rfl

theorem step_read {s : State} {rest : List Event} {a : Access}
    (hi : s.inbox = .access a :: rest) (hr : s.resetInput = false) (ha : a.served = true)
    (hk : a.kind = .read) : step s = .next (busRead a.offset (s.after rest none)) := by
  simp only [step, advance, hi, performEvent, stateAfter_resetInput, hr, performAccess, ha, hk,
    Bool.false_eq_true, if_false, if_true]

theorem step_write {s : State} {rest : List Event} {a : Access} {v : Word32}
    (hi : s.inbox = .access a :: rest) (hr : s.resetInput = false) (ha : a.served = true)
    (hk : a.kind = .write v) :
    step s = busWrite a.offset v (s.after rest (some .writeAck)) := by
  simp only [step, advance, hi, performEvent, stateAfter_resetInput, hr, performAccess, ha, hk,
    Bool.false_eq_true, if_false, if_true]
  rfl

/-- What a served write does to a state that has taken it from the inbox. -/
theorem busWrite_moves {s t : State} {rest : List Event} {a : Access} {v : Word32}
    (hi : s.inbox = .access a :: rest) (hr : s.resetInput = false) (ha : a.served = true)
    (hk : a.kind = .write v) (h : busWrite a.offset v (s.after rest (some .writeAck)) = .next t) :
    Moves s t := by
  by_cases ht : s.targetAt a.offset = .cmd
  · have ht' : (s.after rest (some .writeAck)).targetAt a.offset = .cmd := ht
    simp only [busWrite, ht', writeCmd] at h
    cases hp : s.phase with
    | busy l =>
      have hb : (s.after rest (some .writeAck)).busy = true := busy_iff.mpr ⟨l, hp⟩
      simp only [hb, if_true, Host.Outcome.next.injEq] at h
      subst h
      rw [busyViolation, raiseError_eq_withError]
      exact .violates rest a v l hi hr ha hk ht hp
    | idle =>
      have hb : (s.after rest (some .writeAck)).busy = false := not_busy_iff.mpr hp
      simp only [hb, Bool.false_eq_true, if_false, stateAfter_err] at h
      cases he : s.err with
      | true =>
        simp only [he, if_true, Host.Outcome.next.injEq] at h
        subst h
        exact .ignores rest a v hi hr ha hk ht hp he
      | false =>
        simp only [he, Bool.false_eq_true, if_false, submitWord] at h
        split at h
        · rename_i d hd
          simp only [Host.Outcome.next.injEq] at h
          subst h
          rw [refuseWord, raiseError_eq_withError]
          exact .refusesWord rest a v d hi hr ha hk ht hp he hd
        · rename_i i hd
          have hp' : (s.after rest (some .writeAck)).phase = .idle := hp
          simp only [exec_idle hp', stateAfter_err, he, Bool.false_eq_true, if_false,
            Host.Outcome.next.injEq] at h
          subst h
          cases hc : (commandOf i s.operands).error s.dbufsz.toNat with
          | some e =>
            rw [stateAfter_operands, submitCommand_refused (s := s.after rest (some .writeAck)) hc]
            exact .refusesCommand rest a v i e hi hr ha hk ht hp he hd hc
          | none =>
            rw [stateAfter_operands, submitCommand_accepted (s := s.after rest (some .writeAck)) hc]
            exact .accepts rest a v i hi hr ha hk ht hp he hd hc
  · have ht' : (s.after rest (some .writeAck)).targetAt a.offset ≠ .cmd := ht
    have : plainWrite a v (s.after rest (some .writeAck)) = t := by
      unfold busWrite at h
      unfold plainWrite
      split at h
      · rename_i hc
        exact absurd hc ht'
      · simpa using h
    subst this
    exact .writes rest a v hi hr ha hk ht

/-- A step that answers a next state is one of the moves. -/
theorem step_moves {s t : State} (h : step s = .next t) : Moves s t := by
  have turn : ∀ rest, ((s.inbox = [] ∧ rest = []) ∨ s.inbox = .engineTurn :: rest) →
      engineTurn (s.after rest none) = .next t → Moves s t := by
    intro rest hi h
    cases hp : s.phase with
    | idle =>
      have : engineTurn (s.after rest none) = .next (s.after rest none) := by
        simp [engineTurn, hp]
      rw [this, Host.Outcome.next.injEq] at h
      subst h
      rcases hi with ⟨hi, rfl⟩ | hi
      · exact .waits hi hp
      · exact .turnsIdle rest hi hp
    | busy l =>
      have hp' : (s.after rest none).phase = .busy l := hp
      obtain ⟨i, hd, he, rfl⟩ := engineTurn_busy hp' h
      exact .completes rest l i hi hp hd he
  cases hi : s.inbox with
  | nil => exact turn [] (.inl ⟨hi, rfl⟩) (step_nil hi ▸ h)
  | cons e rest =>
    cases e with
    | engineTurn => exact turn rest (.inr hi) (step_engineTurn hi ▸ h)
    | resetInput b =>
      rw [step_resetInput hi, Host.Outcome.next.injEq] at h
      exact h ▸ .resets rest b hi
    | access a =>
      cases hr : s.resetInput with
      | true =>
        rw [step_access_dropped hi hr, Host.Outcome.next.injEq] at h
        exact h ▸ .drops rest a hi hr
      | false =>
        cases ha : a.served with
        | false =>
          rw [step_access_rejected hi hr ha, Host.Outcome.next.injEq] at h
          exact h ▸ .rejects rest a hi hr ha
        | true =>
          cases hk : a.kind with
          | read =>
            rw [step_read hi hr ha hk, Host.Outcome.next.injEq] at h
            exact h ▸ .reads rest a hi hr ha hk
          | write v => exact busWrite_moves hi hr ha hk (step_write hi hr ha hk ▸ h)

/-! ## The end of a run -/

/-- A turn of the engine after the end of a run leaves the run ended and its result as it is (R401). -/
theorem runEnded_engineTurn {s : State} {rest : List Event} (h : s.runEnded)
    (hi : s.inbox = .engineTurn :: rest) :
    ∃ t, step s = .next t ∧ t.runEnded ∧ t.runResult = s.runResult := by
  refine ⟨s.after rest none, ?_, ⟨fun e he => h.1 e (hi ▸ List.mem_cons_of_mem _ he), h.2⟩, rfl⟩
  have hp : (s.after rest none).phase = .idle := h.2
  rw [step_engineTurn hi, engineTurn, hp]

end Sys2Proof.Machine
end

