-- ==== Sys2Proof/Laws/Bus.lean ====
section
/-! SUPPORT. The host's window: which offset is which register, and what a read or a write can do
(spec/10_state.md R32 to R42). -/

namespace Sys2Proof.Machine

/-! ## The register map -/

/-- Below 0x20 the map is the table of the fixed offsets. -/
theorem target_low {n : Nat} {o : BitVec 17} (h : o.toNat < 0x20) :
    target n o = fixedTarget o.toNat := by
  unfold target
  simp only
  rw [if_neg (by omega), if_neg (by omega)]

/-- The operand registers are at 0x20 to 0x3C. -/
theorem target_operand {n : Nat} {o : BitVec 17} (h₁ : 0x20 ≤ o.toNat) (h₂ : o.toNat < 0x40) :
    target n o = .operand (Fin.ofNat 8 ((o.toNat - 0x20) / 4)) := by
  unfold target
  simp only
  rw [if_neg (by omega), if_pos ⟨h₁, h₂⟩]

/-- From 0x40 to 0xFFFF every offset is reserved. -/
theorem target_reserved {n : Nat} {o : BitVec 17} (h₁ : 0x40 ≤ o.toNat) (h₂ : o.toNat < 0x10000) :
    target n o = .reserved := by
  unfold target
  simp only
  rw [if_neg (by omega), if_neg (by omega)]
  unfold fixedTarget
  split <;> first | omega | rfl

/-- The DBUF window. -/
theorem target_dbuf {n : Nat} {o : BitVec 17} (h₁ : 0x10000 ≤ o.toNat) (h₂ : o.toNat < 0x10000 + n) :
    target n o = .dbuf (o.toNat - 0x10000) := by
  unfold target
  simp only
  rw [if_pos h₁, if_pos h₂]

/-- The reserved part of the DBUF window. -/
theorem target_dbufBeyond {n : Nat} {o : BitVec 17} (h₁ : 0x10000 ≤ o.toNat)
    (h₂ : 0x10000 + n ≤ o.toNat) : target n o = .dbufBeyond := by
  unfold target
  simp only
  rw [if_pos h₁, if_neg (by omega)]

/-- CMD is at offset 0x10 and nowhere else. -/
theorem target_eq_cmd_iff {n : Nat} {o : BitVec 17} : target n o = .cmd ↔ o.toNat = 0x10 := by
  by_cases h : o.toNat < 0x20
  · rw [target_low h]
    unfold fixedTarget
    split <;> simp_all
  · refine ⟨fun ht => ?_, fun ho => absurd (by omega) h⟩
    unfold target at ht
    simp only at ht
    split at ht
    · split at ht <;> simp at ht
    · split at ht
      · simp at ht
      · unfold fixedTarget at ht
        split at ht <;> simp_all

/-- A word of DBUF stands at 0x10000 plus its address. -/
theorem target_eq_dbuf {n : Nat} {o : BitVec 17} {a : Nat} (h : target n o = .dbuf a) :
    o.toNat = 0x10000 + a ∧ a < n := by
  unfold target at h
  simp only at h
  split at h
  · split at h
    · simp only [Target.dbuf.injEq] at h
      omega
    · simp at h
  · split at h
    · simp at h
    · unfold fixedTarget at h
      split at h <;> simp at h

/-- Operand register Ai stands at 0x20 + 4i. -/
theorem target_operandOffset {n : Nat} (i : Fin 8) : target n (operandOffset i) = .operand i := by
  have h : (operandOffset i).toNat = 0x20 + 4 * i.val := by
    have := i.isLt
    simp only [operandOffset, BitVec.toNat_ofNat]
    omega
  have := i.isLt
  rw [target_operand (by omega) (by omega), h]
  congr 1
  apply Fin.ext
  simp only [Fin.ofNat]
  omega

/-- An access is served when it is a word access at a multiple of 4. -/
theorem served_iff (a : Access) : a.served = true ↔ a.width = .word ∧ a.offset.toNat % 4 = 0 := by
  simp [Access.served]

/-! ## Reads and writes -/

/-- A read keeps everything but the response and the counter of the draws. -/
theorem busRead_eq (o : BitVec 17) (s : State) :
    ∃ v n, busRead o s = { s with response := some (.readData v), drawCount := n } := by
  unfold busRead
  dsimp only
  split
  · exact ⟨_, _, rfl⟩
  · exact ⟨_, s.drawCount, rfl⟩

/-- What a write of anything but CMD can do. -/
theorem writeTarget_cases (o : BitVec 17) (t : Target) (v : Word32) (s : State) :
    (t = .ctrl ∧ v.getLsbD 31 = true ∧ writeTarget o t v s = s.resetEngine) ∨
    (t = .ctrl ∧ v.getLsbD 31 = false ∧
      writeTarget o t v s = { s with doneIe := v.getLsbD 0, errIe := v.getLsbD 1 }) ∨
    (t = .status ∧ writeTarget o t v s = { s with done := s.done && !v.getLsbD 1 }) ∨
    (s.busy = true ∧ ((∃ i, t = .operand i) ∨ (∃ a, t = .dbuf a) ∨ t = .dbufBeyond) ∧
      writeTarget o t v s = s.withError .busyViolation (o.setWidth 32)) ∨
    (∃ i, s.busy = false ∧ t = .operand i ∧ writeTarget o t v s = writeOperand i v s) ∨
    (∃ a, s.busy = false ∧ t = .dbuf a ∧ writeTarget o t v s = s.memWrite a (le32 v)) ∨
    ((t = .id ∨ t = .dbufsz ∨ t = .cmd ∨ t = .errcode ∨ t = .errinfo ∨ t = .reserved ∨
      (t = .dbufBeyond ∧ s.busy = false)) ∧ writeTarget o t v s = s) := by
  cases t with
  | ctrl =>
    cases hv : v.getLsbD 31 with
    | true => exact .inl ⟨rfl, rfl, by simp only [writeTarget, writeCtrl, hv, if_true]⟩
    | false =>
      refine .inr (.inl ⟨rfl, rfl, ?_⟩)
      simp only [writeTarget, writeCtrl, hv, Bool.false_eq_true, if_false]
  | status =>
    refine .inr (.inr (.inl ⟨rfl, ?_⟩))
    simp only [writeTarget, writeStatus]
    cases hv : v.getLsbD 1 <;> simp
  | operand i =>
    cases hb : s.busy <;> simp [writeTarget, hb, busyViolation, raiseError_eq_withError]
  | dbuf a =>
    cases hb : s.busy <;> simp [writeTarget, hb, busyViolation, raiseError_eq_withError, writeDbufWord]
  | dbufBeyond =>
    cases hb : s.busy <;> simp [writeTarget, hb, busyViolation, raiseError_eq_withError]
  | id => simp [writeTarget]
  | dbufsz => simp [writeTarget]
  | cmd => simp [writeTarget]
  | errcode => simp [writeTarget]
  | errinfo => simp [writeTarget]
  | reserved => simp [writeTarget]

end Sys2Proof.Machine
end

