-- ==== Sys2Proof/Laws/PerInstr.lean ====
section
/-! SUPPORT. A statement about every instruction as syntax, one lemma per constructor. -/

namespace Sys2Proof.Laws.EncodesLegalFields

/-- The fields of the instruction are those of a command word that 40_primitives.md R170 does not refuse
at steps 3 to 7. -/
def Statement (i : Instr) : Prop := i.fields.wellFormed = true

theorem hchacha12 : Statement .hchacha12 := rfl
theorem chacha12Xor : Statement .chacha12Xor := rfl
theorem xchacha12Xor : Statement .xchacha12Xor := rfl
theorem xchacha12Stream : Statement .xchacha12Stream := rfl
theorem poly1305e : Statement .poly1305e := rfl
theorem nh : Statement .nh := rfl
theorem adiantumHash : Statement .adiantumHash := rfl
theorem aes256Enc : Statement .aes256Enc := rfl
theorem aes256Dec : Statement .aes256Dec := rfl
theorem xtsEnc : Statement .xtsEnc := rfl
theorem xtsDec : Statement .xtsDec := rfl
theorem adiantumEnc : Statement .adiantumEnc := rfl
theorem adiantumDec : Statement .adiantumDec := rfl
theorem hkdfKeyIdentifier : Statement .hkdfKeyIdentifier := rfl
theorem hkdfPerFileEncKey : Statement .hkdfPerFileEncKey := rfl

theorem hkdfDirectKey (mode : Byte) : Statement (.hkdfDirectKey mode) := by
  simp [Statement, Instr.fields, hkdfFields, Cmd32.wellFormed, Cmd32.opAssigned, assignedOpcodes,
    Cmd32.reservedZero, Cmd32.ctxLegal, Cmd32.modeLegal, HkdfContext.tag, opHkdfSha512]

theorem hkdfIvInoLblk64Key (mode : Byte) : Statement (.hkdfIvInoLblk64Key mode) := by
  simp [Statement, Instr.fields, hkdfFields, Cmd32.wellFormed, Cmd32.opAssigned, assignedOpcodes,
    Cmd32.reservedZero, Cmd32.ctxLegal, Cmd32.modeLegal, HkdfContext.tag, opHkdfSha512]

theorem hkdfDirhashKey : Statement .hkdfDirhashKey := rfl

theorem hkdfIvInoLblk32Key (mode : Byte) : Statement (.hkdfIvInoLblk32Key mode) := by
  simp [Statement, Instr.fields, hkdfFields, Cmd32.wellFormed, Cmd32.opAssigned, assignedOpcodes,
    Cmd32.reservedZero, Cmd32.ctxLegal, Cmd32.modeLegal, HkdfContext.tag, opHkdfSha512]

theorem hkdfInodeHashKey : Statement .hkdfInodeHashKey := rfl
theorem aes256Cmac : Statement .aes256Cmac := rfl
theorem cmacKdf : Statement .cmacKdf := rfl

end Sys2Proof.Laws.EncodesLegalFields
end

