-- ==== Sys2Proof/Laws/Sha512.lean ====
section
/-! SUPPORT. The lengths of what SHA-512 and HMAC compute (spec/40_primitives.md R163, R165). -/

namespace Sys2Proof.Machine

/-- A round keeps the eight working variables. -/
theorem length_sha512Round {v : List Word64} (h : v.length = 8) (kw : Word64) :
    (sha512Round v kw).length = 8 := by simp [sha512Round, h]

/-- The compression keeps the eight words of the hash value. -/
theorem length_sha512Compress {h : List Word64} (hl : h.length = 8) (block : Bytes) :
    (sha512Compress h block).length = 8 := by
  have rounds : ∀ (kws v : List Word64), v.length = 8 → (kws.foldl sha512Round v).length = 8 := by
    intro kws
    induction kws with
    | nil => exact fun _ hv => hv
    | cons kw kws ih => exact fun v hv => ih _ (length_sha512Round hv kw)
  simp [sha512Compress, hl, rounds]

/-- `SHA512(M)` has 64 bytes (R163). -/
@[simp] theorem length_sha512 (m : Bytes) : (sha512 m).length = 64 := by
  have blocks : ∀ (bs : List Bytes) (h : List Word64), h.length = 8 →
      (bs.foldl sha512Compress h).length = 8 := by
    intro bs
    induction bs with
    | nil => exact fun _ hv => hv
    | cons b bs ih => exact fun h hh => ih _ (length_sha512Compress hh b)
  simp [sha512, List.length_flatMap, blocks _ sha512H0 rfl]

/-- `HMAC(k, m)` has 64 bytes (R165). -/
@[simp] theorem length_hmac (k m : Bytes) : (hmac k m).length = 64 := by simp [hmac]

end Sys2Proof.Machine
end

