-- ==== Sys2Proof/Tests/Slice0.lean ====
section
/-! SUPPORT. The tests of the model. Expected values come from the spec: the command words from the
encoding of spec/30_encoding.md, the outputs from spec/95_test_vectors.md. The second half gives, for each
statement of Sys2Proof/Certificates/Slice0/Obligations.lean, states and operands that meet its
hypotheses. -/

namespace Sys2Proof.Tests

-- One theorem after the other: each kernel evaluation would otherwise hold a thread and its stack.
set_option Elab.async false

open Sys2Proof Sys2Proof.Machine

/-! ## Helpers -/

/-- Operand registers A0 to A7 from the values listed, the others 0. -/
def ops (x : List Nat) : Operands := Vector.ofFn fun j => BitVec.ofNat 32 (x.getD j.val 0)

/-- DBUF with these bytes from address 0 on. -/
def layout (bs : Bytes) : Memory := bs.zipIdx.map fun p => (p.2, p.1)

/-- A busy engine: the command latched, these bytes in DBUF, these events to come. -/
def busyState (i : Instr) (x : List Nat) (bs : Bytes) (inbox : List Event) : State :=
  { State.reset with
    cmd := encode i, operands := ops x, phase := .busy { word := encode i, x := ops x },
    dbuf := layout bs, inbox := inbox }

/-- An idle engine with these operands, about to see these events. -/
def idleState (x : List Nat) (inbox : List Event) : State :=
  { State.reset with operands := ops x, inbox := inbox }

/-- The engine completes the command with this output, and sets DONE. -/
def completes (i : Instr) (x : List Nat) (bs : Bytes) (dst : Range) (want : Bytes) : Bool :=
  match exec i (busyState i x bs []) with
  | .next t => t.memRead dst == want && t.done && t.phase == .idle
  | _       => false

/-- The error code, ERRINFO and STATUS after the CMD write of a word with these operands. -/
def submits (w : Word32) (x : List Nat) : Option (Nat × Word32 × Word32) :=
  match step (idleState x [.access (cmdWrite w)]) with
  | .next t => some (t.errcode.code.toNat, t.errinfo, t.statusWord)
  | _       => none

/-- The bytes first, first + 1, ... -/
def counting (first n : Nat) : Bytes := (List.range n).map fun i => BitVec.ofNat 8 (first + i)

/-! ## Well-formedness: an ill-formed term for each check -/

theorem test_opAssigned_refuses : (Cmd32.mk 0x05 0 0 0 0).opAssigned = false := by decide
theorem test_reservedZero_refuses_res0 : (Cmd32.mk 0x03 0 1 0 0).reservedZero = false := by decide
theorem test_reservedZero_refuses_res1 : (Cmd32.mk 0x03 0 0 0 1).reservedZero = false := by decide
theorem test_ctxLegal_refuses_plain : (Cmd32.mk 0x03 1 0 0 0).ctxLegal = false := by decide
theorem test_ctxLegal_refuses_hkdf : (Cmd32.mk 0x40 0 0 0 0).ctxLegal = false := by decide
theorem test_modeLegal_refuses_plain : (Cmd32.mk 0x22 0 0 1 0).modeLegal = false := by decide
theorem test_modeLegal_refuses_hkdf : (Cmd32.mk 0x40 1 0 1 0).modeLegal = false := by decide
theorem test_wellFormed_refuses : (Cmd32.mk 0x40 1 0 1 0).wellFormed = false := by decide
theorem test_wellFormed_accepts : (Cmd32.mk 0x40 6 0 0xFF 0).wellFormed = true := by decide

/-! ## Decoding: words written out from the fields of 30_encoding.md R100, RES1 first -/

theorem test_decode_hchacha12 :
    decode 0b00000000_00000000_00000_000_00000001#32 = .ok .hchacha12 := by rfl
theorem test_decode_chacha12Xor :
    decode 0b00000000_00000000_00000_000_00000010#32 = .ok .chacha12Xor := by rfl
theorem test_decode_xchacha12Xor :
    decode 0b00000000_00000000_00000_000_00000011#32 = .ok .xchacha12Xor := by rfl
theorem test_decode_xchacha12Stream :
    decode 0b00000000_00000000_00000_000_00000100#32 = .ok .xchacha12Stream := by rfl
theorem test_decode_poly1305e :
    decode 0b00000000_00000000_00000_000_00010000#32 = .ok .poly1305e := by rfl
theorem test_decode_nh : decode 0b00000000_00000000_00000_000_00010001#32 = .ok .nh := by rfl
theorem test_decode_adiantumHash :
    decode 0b00000000_00000000_00000_000_00010010#32 = .ok .adiantumHash := by rfl
theorem test_decode_aes256Enc :
    decode 0b00000000_00000000_00000_000_00100000#32 = .ok .aes256Enc := by rfl
theorem test_decode_aes256Dec :
    decode 0b00000000_00000000_00000_000_00100001#32 = .ok .aes256Dec := by rfl
theorem test_decode_xtsEnc : decode 0b00000000_00000000_00000_000_00100010#32 = .ok .xtsEnc := by rfl
theorem test_decode_xtsDec : decode 0b00000000_00000000_00000_000_00100011#32 = .ok .xtsDec := by rfl
theorem test_decode_adiantumEnc :
    decode 0b00000000_00000000_00000_000_00110000#32 = .ok .adiantumEnc := by rfl
theorem test_decode_adiantumDec :
    decode 0b00000000_00000000_00000_000_00110001#32 = .ok .adiantumDec := by rfl
theorem test_decode_hkdfKeyIdentifier :
    decode 0b00000000_00000000_00000_001_01000000#32 = .ok .hkdfKeyIdentifier := by rfl
theorem test_decode_hkdfPerFileEncKey :
    decode 0b00000000_00000000_00000_010_01000000#32 = .ok .hkdfPerFileEncKey := by rfl
theorem test_decode_hkdfDirectKey :
    decode 0b00000000_10000001_00000_011_01000000#32 = .ok (.hkdfDirectKey 0x81) := by rfl
theorem test_decode_hkdfIvInoLblk64Key :
    decode 0b00000000_00010010_00000_100_01000000#32 = .ok (.hkdfIvInoLblk64Key 0x12) := by rfl
theorem test_decode_hkdfDirhashKey :
    decode 0b00000000_00000000_00000_101_01000000#32 = .ok .hkdfDirhashKey := by rfl
theorem test_decode_hkdfIvInoLblk32Key :
    decode 0b00000000_11111110_00000_110_01000000#32 = .ok (.hkdfIvInoLblk32Key 0xFE) := by rfl
theorem test_decode_hkdfInodeHashKey :
    decode 0b00000000_00000000_00000_111_01000000#32 = .ok .hkdfInodeHashKey := by rfl
theorem test_decode_aes256Cmac :
    decode 0b00000000_00000000_00000_000_01000001#32 = .ok .aes256Cmac := by rfl
theorem test_decode_cmacKdf : decode 0b00000000_00000000_00000_000_01000010#32 = .ok .cmacKdf := by rfl

theorem test_decodeTableWord : decodeTableWord 32 0x00010440 = some (.hkdfIvInoLblk64Key 1) := by rfl
theorem test_decodeTableWord_cuts : decodeTableWord 8 0xFF22 = some .xtsEnc := by rfl
theorem test_decodeTableWord_refuses : decodeTableWord 32 0x00000800 = none := by rfl

/-! ## Outputs: the vectors of 95_test_vectors.md -/

/-- V-CH-1. -/
theorem test_hchacha12 :
    completes .hchacha12 [0, 32, 48] (counting 0 32 ++ beBytes 16 0x000000090000004a0000000031415927)
      ⟨48, 32⟩
      (beBytes 32 0x0086ac4411543fe27005e85ab8854f5daac9cc4e5811e8487f2c90452624d5fe) = true := by
  decide +kernel

/-- V-CH-4, the first bytes of block 1: the counter carries from word 12 into word 13. In place. -/
theorem test_chacha12Xor_carry :
    completes .chacha12Xor [0, 32, 48, 68, 48]
      (counting 0 32 ++ beBytes 4 0xffffffff ++ zeroBytes 80) ⟨112, 4⟩ (beBytes 4 0x880e567c) = true := by
  decide +kernel

/-- V-CH-5 on one byte. -/
theorem test_xchacha12Xor :
    completes .xchacha12Xor [0, 32, 56, 1, 56] (counting 0 32 ++ counting 0x40 24 ++ [0x00]) ⟨56, 1⟩
      [0xae] = true := by decide +kernel

/-- V-CH-7: a length of 0 writes nothing and sets DONE. -/
theorem test_xchacha12Xor_empty :
    completes .xchacha12Xor [0, 32, 56, 0, 56] (counting 0 32 ++ counting 0x40 24 ++ [0x5a]) ⟨56, 1⟩
      [0x5a] = true := by decide +kernel

/-- V-CH-5; A2 is ignored. -/
theorem test_xchacha12Stream :
    completes .xchacha12Stream [0, 32, 0xffffffff, 8, 56] (counting 0 32 ++ counting 0x40 24) ⟨56, 8⟩
      (beBytes 8 0xae8f1abcb48412bd) = true := by decide +kernel

/-- V-PE-1. -/
theorem test_poly1305e :
    completes .poly1305e [0, 16, 34, 50]
      (beBytes 16 0x85d6be7857556d337f4452fe42d506a8 ++
        beBytes 34 0x43727970746f6772617068696320466f72756d2052657365617263682047726f7570)
      ⟨50, 16⟩ (beBytes 16 0xa7039d36354384c8776c94ffcab7318d) = true := by decide +kernel

/-- V-PE-4, second part: one byte and r = 1. -/
theorem test_poly1305e_partial :
    completes .poly1305e [0, 16, 1, 20] (0x01 :: zeroBytes 15 ++ [0x01]) ⟨20, 16⟩
      (beBytes 16 0x01010000000000000000000000000000) = true := by decide +kernel

/-- V-NH-1. -/
theorem test_nh :
    nh (counting 0 1072) (zeroBytes 16) =
      beBytes 32 0x3078da5835f18a00b0bb21e4443dd3043003717b6495230db04ec81e94f97b19 := by decide +kernel

/-- V-NH-4. -/
theorem test_nh_wraps :
    nh (zeroBytes 1072) (List.replicate 16 0xff) =
      beBytes 32 0x02000000fcffffff02000000fcffffff02000000fcffffff02000000fcffffff := by decide +kernel

/-- V-AH-1. -/
theorem test_adiantumHash_empty :
    adiantumHash ((List.range 1104).map fun i => BitVec.ofNat 8 (7 * i + 1)) (counting 0 32) [] =
      beBytes 16 0x80e6e6f8935602a5fb615158dc61f8e2 := by decide +kernel

/-- V-AH-2. -/
theorem test_adiantumHash :
    adiantumHash ((List.range 1104).map fun i => BitVec.ofNat 8 (7 * i + 1)) (counting 0 32)
      (counting 0 17) = beBytes 16 0xd49a548aec5896499d9b11fcabdb2796 := by decide +kernel

/-- `LE64(s, o)` of the bytes 0, 1, 2, ... at offset 1, by R141. -/
theorem test_le64At : le64At (counting 0 10) 1 = 0x0807060504030201 := by decide +kernel

/-- V-AES-1, in place. -/
theorem test_aes256Enc :
    completes .aes256Enc [0, 32, 32] (counting 0 32 ++ beBytes 16 0x00112233445566778899aabbccddeeff)
      ⟨32, 16⟩ (beBytes 16 0x8ea2b7ca516745bfeafc49904b496089) = true := by decide +kernel

/-- V-AES-1, backwards. -/
theorem test_aes256Dec :
    completes .aes256Dec [0, 32, 48] (counting 0 32 ++ beBytes 16 0x8ea2b7ca516745bfeafc49904b496089)
      ⟨48, 16⟩ (beBytes 16 0x00112233445566778899aabbccddeeff) = true := by decide +kernel

/-- V-XTS-2. -/
theorem test_xtsEnc :
    completes .xtsEnc [0, 64, 80, 32, 112] (counting 0 64 ++ zeroBytes 48) ⟨112, 32⟩
      (beBytes 32 0xcd6b103236fbd87dba93e9001e29bc3d5e885d6abd1577e3e0e0a5f49e444894) = true := by
  decide +kernel

/-- V-XTS-2, backwards, in place. -/
theorem test_xtsDec :
    completes .xtsDec [0, 64, 80, 32, 80]
      (counting 0 64 ++ zeroBytes 16 ++
        beBytes 32 0xcd6b103236fbd87dba93e9001e29bc3d5e885d6abd1577e3e0e0a5f49e444894)
      ⟨80, 32⟩ (zeroBytes 32) = true := by decide +kernel

/-- V-XTS-5: the doubling of a mask with a carry out. -/
theorem test_mulx : mulx (List.replicate 16 0xff) = 0x79 :: List.replicate 15 0xff := by decide +kernel

/-- V-ADI-2: a bulk part of one byte. -/
theorem test_adiantumEnc :
    completes .adiantumEnc [0, 32, 64, 17, 96]
      (counting 0 64 ++ (List.range 17).map fun i => BitVec.ofNat 8 (5 * i + 3)) ⟨96, 17⟩
      (beBytes 17 0x07a7a7cde1a7c5712dce1c9ced54fd78c5) = true := by decide +kernel

/-- V-ADI-1, backwards. -/
theorem test_adiantumDec :
    completes .adiantumDec [0, 32, 64, 16, 64]
      (counting 0 64 ++ beBytes 16 0x4daf52151f8c54996b9def75d171def1) ⟨64, 16⟩ (zeroBytes 16) = true := by
  decide +kernel

/-- V-HK-1. -/
theorem test_hkdfKeyIdentifier :
    completes .hkdfKeyIdentifier [0, 64, 0xffffffff, 16, 64] (zeroBytes 64) ⟨64, 16⟩
      (beBytes 16 0x69d7f347a3ca7bfa3e0c1d84e476d050) = true := by decide +kernel

/-- The info of V-HK-2. -/
theorem test_hkdfPerFileEncKey (x : Operands) (rd : Range → Bytes) :
    (commandOf .hkdfPerFileEncKey x).result rd =
      hkdf (rd ⟨reg x 0, reg x 1⟩)
        ([0x66, 0x73, 0x63, 0x72, 0x79, 0x70, 0x74, 0x00, 0x02] ++ rd ⟨reg x 2, 16⟩) (reg x 3) := by
  simp [commandOf, hkdfCommand, hkdfInfo, fscryptPrefix, contextTakesMode, contextTakesExtra,
    HkdfContext.tag]

/-- The info of V-HK-9. -/
theorem test_hkdfDirectKey (x : Operands) (rd : Range → Bytes) :
    (commandOf (.hkdfDirectKey 0x09) x).result rd =
      hkdf (rd ⟨reg x 0, reg x 1⟩)
        [0x66, 0x73, 0x63, 0x72, 0x79, 0x70, 0x74, 0x00, 0x03, 0x09] (reg x 3) := by
  simp [commandOf, hkdfCommand, hkdfInfo, fscryptPrefix, contextTakesMode, contextTakesExtra,
    HkdfContext.tag]

/-- The info of V-HK-4. -/
theorem test_hkdfIvInoLblk64Key (x : Operands) (rd : Range → Bytes) :
    (commandOf (.hkdfIvInoLblk64Key 0x01) x).result rd =
      hkdf (rd ⟨reg x 0, reg x 1⟩)
        ([0x66, 0x73, 0x63, 0x72, 0x79, 0x70, 0x74, 0x00, 0x04, 0x01] ++ rd ⟨reg x 2, 16⟩) (reg x 3) := by
  simp [commandOf, hkdfCommand, hkdfInfo, fscryptPrefix, contextTakesMode, contextTakesExtra,
    HkdfContext.tag]

/-- The info of V-HK-5. -/
theorem test_hkdfDirhashKey (x : Operands) (rd : Range → Bytes) :
    (commandOf .hkdfDirhashKey x).result rd =
      hkdf (rd ⟨reg x 0, reg x 1⟩)
        ([0x66, 0x73, 0x63, 0x72, 0x79, 0x70, 0x74, 0x00, 0x05] ++ rd ⟨reg x 2, 16⟩) (reg x 3) := by
  simp [commandOf, hkdfCommand, hkdfInfo, fscryptPrefix, contextTakesMode, contextTakesExtra,
    HkdfContext.tag]

/-- The info of V-HK-6. -/
theorem test_hkdfIvInoLblk32Key (x : Operands) (rd : Range → Bytes) :
    (commandOf (.hkdfIvInoLblk32Key 0x01) x).result rd =
      hkdf (rd ⟨reg x 0, reg x 1⟩)
        ([0x66, 0x73, 0x63, 0x72, 0x79, 0x70, 0x74, 0x00, 0x06, 0x01] ++ rd ⟨reg x 2, 16⟩) (reg x 3) := by
  simp [commandOf, hkdfCommand, hkdfInfo, fscryptPrefix, contextTakesMode, contextTakesExtra,
    HkdfContext.tag]

/-- The info of V-HK-7. -/
theorem test_hkdfInodeHashKey (x : Operands) (rd : Range → Bytes) :
    (commandOf .hkdfInodeHashKey x).result rd =
      hkdf (rd ⟨reg x 0, reg x 1⟩)
        [0x66, 0x73, 0x63, 0x72, 0x79, 0x70, 0x74, 0x00, 0x07] (reg x 3) := by
  simp [commandOf, hkdfCommand, hkdfInfo, fscryptPrefix, contextTakesMode, contextTakesExtra,
    HkdfContext.tag]

/-- V-CM-1: the empty message. -/
theorem test_aes256Cmac_empty :
    completes .aes256Cmac [0, 32, 0, 32]
      (beBytes 32 0x603deb1015ca71be2b73aef0857d77811f352c073b6108d72d9810a30914dff4) ⟨32, 16⟩
      (beBytes 16 0x028962f61b7bf89efc6b551f4667d983) = true := by decide +kernel

/-- V-CM-5: two blocks, the second padded. -/
theorem test_aes256Cmac :
    completes .aes256Cmac [0, 32, 17, 64]
      (beBytes 32 0x603deb1015ca71be2b73aef0857d77811f352c073b6108d72d9810a30914dff4 ++
        beBytes 17 0x6bc1bee22e409f96e93d7e117393172aae) ⟨64, 16⟩
      (beBytes 16 0x41cc34c20adf828f4896c8d19fab402d) = true := by decide +kernel

/-- V-KDF-2. -/
theorem test_cmacKdf :
    completes .cmacKdf [0, 32, 5, 37, 3, 1, 40]
      (counting 0 32 ++ beBytes 5 0x6c6162656c ++ beBytes 3 0x637478) ⟨40, 1⟩ [0x4d] = true := by
  decide +kernel

/-- V-KDF-3: empty label and context, two blocks. -/
theorem test_cmacKdf_empty :
    completes .cmacKdf [0, 0, 0, 0, 0, 17, 32] (counting 0 32) ⟨32, 17⟩
      (beBytes 17 0xfafcd754d0c3c5689c6eb8f7286954f66f) = true := by decide +kernel

/-! ## Submission: the table V-ERR of 95_test_vectors.md -/

theorem test_submit_illegalOpcode : submits 0x00000005 [] = some (1, 0x00000005, 0x4) := by decide +kernel
theorem test_submit_res0 : submits 0x00000803 [] = some (2, 0x00000803, 0x4) := by decide +kernel
theorem test_submit_res1 : submits 0x01000003 [] = some (2, 0x01000003, 0x4) := by decide +kernel
theorem test_submit_ctx : submits 0x00000103 [] = some (2, 0x00000103, 0x4) := by decide +kernel
theorem test_submit_mode :
    submits 0x00010140 [0, 0x40, 0, 0x10] = some (2, 0x00010140, 0x4) := by decide +kernel
theorem test_submit_context_first :
    submits 0x00050040 [0, 7, 0, 3] = some (3, 0x00050040, 0x4) := by decide +kernel
theorem test_submit_length : submits 0x00000011 [0, 0, 0x410] = some (4, 0x11, 0x4) := by decide +kernel
theorem test_submit_range_edge :
    submits 0x00000003 [0xFFE0, 0, 0, 0x10, 0x100] = some (0, 0, 0x1) := by decide +kernel
theorem test_submit_range :
    submits 0x00000003 [0xFFE1, 0, 0, 0x10, 0x100] = some (5, 3, 0x4) := by decide +kernel
theorem test_submit_range_no_wrap :
    submits 0x00000003 [0, 0, 0x100, 0xFFFFFFFF, 0x100] = some (5, 3, 0x4) := by decide +kernel
theorem test_submit_overlap :
    submits 0x00000003 [0, 0x20, 0x100, 0x20, 0x110] = some (6, 3, 0x4) := by decide +kernel
theorem test_submit_in_place :
    submits 0x00000003 [0, 0x20, 0x100, 0x20, 0x100] = some (0, 0, 0x1) := by decide +kernel
theorem test_submit_no_data_input :
    submits 0x00000010 [0, 0x100, 0x10, 0x100] = some (6, 0x10, 0x4) := by decide +kernel
theorem test_submit_empty_output :
    submits 0x00000003 [0, 0x20, 0x100, 0, 0x10] = some (0, 0, 0x1) := by decide +kernel

/-! ## The assembler: lines of 95_test_vectors.md section 4 -/

/-- P1: the expansion of the HKDF line; A2 is not written. -/
theorem test_assemble_hkdf :
    ((parseLine "hkdf.sha512 ctx=KEY_IDENTIFIER, ikm=0x0, ikmlen=64, outlen=16, dst=0x100").map assemble) =
      some (.ok [mmioWrite 0x00020 0, mmioWrite 0x00024 0x40, mmioWrite 0x0002C 0x10,
        mmioWrite 0x00030 0x100, mmioWrite 0x00010 0x140]) := by decide +kernel

/-- P2: the expansion of the XTS line. -/
theorem test_assemble_xts :
    ((parseLine "xts.dec key=0x0, tweak=0x40, src=0x100, len=64, dst=0x100").map assemble) =
      some (.ok [mmioWrite 0x00020 0, mmioWrite 0x00024 0x40, mmioWrite 0x00028 0x100,
        mmioWrite 0x0002C 0x40, mmioWrite 0x00030 0x100, mmioWrite 0x00010 0x23]) := by decide +kernel

/-- An omitted operand is an assembler error (30_encoding.md R113). -/
theorem test_assemble_omitted :
    ((parseLine "nh key=0x0, msg=0x500, dst=0x600").map assemble) = some (.error (.missing .len)) := by
  decide +kernel

/-- A partial word of `dbuf.fill` is padded with zero bytes (30_encoding.md R114). -/
theorem test_fill :
    fillAccesses 0x40 [0x07, 0x01, 0x02, 0x03, 0x34] =
      [mmioWrite 0x10040 0x03020107, mmioWrite 0x10044 0x00000034] := by decide +kernel

/-! ## The end of a run: 70_reset_and_hazards.md R401 -/

/-- A pending change of the reset input and a pending turn of the idle engine do not keep a run open. -/
theorem test_runEnded : (idleState [] [.resetInput true, .engineTurn]).runEnded := by
  unfold State.runEnded; decide

/-- An access still to come, or a command in flight, keeps it open. -/
theorem test_runEnded_open :
    ¬ (idleState [] [.engineTurn, .access (mmioRead 0)]).runEnded ∧
      ¬ (busyState .nh [0, 1072, 16, 2000] [] []).runEnded := by
  unfold State.runEnded; decide

/-! ## Hypotheses met: encoding and steps -/

theorem witness_EncodeOfDecode : decode 0x00FF0640 = .ok (.hkdfIvInoLblk32Key 0xFF) := by rfl

/-- A word that is refused, one whose key ends at the end of DBUF and is accepted, and one whose key ends
one byte further. -/
theorem witness_SubmissionReportsFirstFailingCheck :
    let s := fun a w => idleState [a, 0, 0, 0x10, 0x100] [.access (cmdWrite w)]
    (∀ a w, (s a w).inbox = [.access (cmdWrite w)] ∧ (s a w).resetInput = false ∧
      (s a w).phase = .idle ∧ (s a w).err = false) ∧
    firstFailingStep 65536 (s 0 0).operands 0 = some .illegalOpcode ∧
    firstFailingStep 65536 (s 0xFFE0 3).operands 3 = none ∧
    firstFailingStep 65536 (s 0xFFE1 3).operands 3 = some .range := by
  refine ⟨fun a w => ⟨rfl, rfl, rfl, rfl⟩, ?_, ?_, ?_⟩ <;> decide +kernel

theorem witness_CmdWriteStepRunsDecodedCommand :
    let s := idleState [] [.access (cmdWrite 0x00000001)]
    s.inbox = [.access (cmdWrite 0x00000001)] ∧ s.resetInput = false ∧ s.phase = .idle ∧
      decode 0x00000001 = .ok .hchacha12 := ⟨rfl, rfl, rfl, rfl⟩

theorem witness_EngineTurnRunsLatchedCommand :
    let s := busyState .nh [0, 1072, 16, 2000] []
    let l : Latch := { word := encode .nh, x := ops [0, 1072, 16, 2000] }
    ((s []).inbox = [] ∧ (s [.engineTurn]).inbox = [.engineTurn]) ∧ (s []).phase = .busy l ∧
      (s [.engineTurn]).phase = .busy l ∧ decode l.word = .ok .nh := ⟨⟨rfl, rfl⟩, rfl, rfl, rfl⟩

/-! ## Hypotheses met: reset -/

/-- A state after a later reset, and one in which the host has written byte 0 and not byte 1. -/
theorem witness_ResetTableValues :
    (∃ s : State, State.reset.resetEngine = s.resetEngine) ∧
      Memory.read? 1 (State.dbuf { State.reset with dbuf := layout [7] }) = none := ⟨⟨_, rfl⟩, rfl⟩

/-- SRST is written while BUSY and in the error state, which the step leaves. -/
theorem witness_SoftwareResetAtCtrlWrite :
    let s : State := { busyState .nh [0, 1072, 16, 2000] []
      [.access (mmioWrite 0x00008 0x80000003)] with err := true, errcode := .busyViolation, errinfo := 0x20 }
    s.inbox = [.access (mmioWrite 0x00008 0x80000003)] ∧ s.resetInput = false ∧
      (0x80000003 : Word32).getLsbD 31 = true ∧ s.err = true ∧
      ∃ t, step s = .next t ∧ t.err = false := ⟨rfl, rfl, by decide, rfl, _, rfl, rfl⟩

/-- The idle engine meets the invariant, whatever events come. -/
theorem idle_inv (x : List Nat) (inbox : List Event) : (idleState x inbox).Inv where
  sizeLegal := by show Config.defaultDbufSize ∈ Config.legalDbufSizes; decide
  dbufWf := List.Pairwise.nil
  dbufInside := fun c hc => absurd hc (by simp [idleState, State.reset])
  latch := fun l hl => absurd hl (by simp [idleState, State.reset])
  error := by simp [State.errorSound, idleState, State.reset]
  resetHeld := fun h => absurd h (by simp [idleState, State.reset])

theorem witness_ResetInputResets :
    let s := fun b e => { idleState [1, 2] [e] with resetInput := b }
    (s false (.resetInput true)).inbox = [.resetInput true] ∧
    ((s true (.resetInput false)).inbox = [.resetInput false] ∧
      (s true (.resetInput false)).resetInput = true) ∧
    ((s false (.resetInput false)).inbox = [.resetInput false] ∧
      (s false (.resetInput false)).resetInput = false) ∧
    ((s true (.access (mmioRead 0))).inbox = [.access (mmioRead 0)] ∧
      (s true (.access (mmioRead 0))).resetInput = true) ∧
    (s false (.resetInput true)).Inv ∧
    ∃ t, step (s false (.resetInput true)) = .next t ∧ t.resetInput = true :=
  ⟨rfl, ⟨rfl, rfl⟩, ⟨rfl, rfl⟩, ⟨rfl, rfl⟩, idle_inv [1, 2] [.resetInput true], _, rfl, rfl⟩

/-! ## Hypotheses met: registers and the bus -/

/-- Every statement about one host access asks for such a state: the access is the next event and the
reset input is released. The phase is IDLE or BUSY, and ERR 0 or 1, as the clause says. -/
theorem witness_access (a : Access) :
    let s := idleState [1, 2] [.access a]
    let b := busyState .nh [0, 1072, 16, 2000] [] [.access a]
    (s.inbox = [.access a] ∧ s.resetInput = false ∧ s.phase = .idle) ∧
    (b.inbox = [.access a] ∧ b.resetInput = false ∧
      b.phase = .busy { word := encode .nh, x := ops [0, 1072, 16, 2000] }) := ⟨⟨rfl, rfl, rfl⟩, rfl, rfl, rfl⟩

theorem witness_IdentityRegistersReadOnly :
    (∃ t, step (idleState [] [.access (mmioRead 0)]) = .next t) ∧
    (idleState [] [.access (mmioRead 0x00000)]).resetInput = false ∧
    (idleState [] [.access (mmioRead 0x00004)]).inbox = [.access (mmioRead 0x00004)] ∧
    (idleState [] [.access (mmioWrite 0x00000 1)]).inbox = [.access (mmioWrite 0x00000 1)] ∧
    (idleState [] [.access (mmioWrite 0x00004 1)]).inbox = [.access (mmioWrite 0x00004 1)] :=
  ⟨⟨_, rfl⟩, rfl, rfl, rfl, rfl⟩

/-- A0 and A7 are read and written, and a step changes A7. -/
theorem witness_OperandRegisterAccess :
    (idleState [] [.access (mmioRead (operandOffset 0))]).inbox =
      [.access (mmioRead (operandOffset 0))] ∧
    (idleState [] [.access (mmioWrite (operandOffset 7) 5)]).phase = .idle ∧
    (∃ t, step (idleState [] [.access (mmioWrite (operandOffset 7) 5)]) = .next t ∧
      t.operands ≠ (idleState [] [.access (mmioWrite (operandOffset 7) 5)]).operands) ∧
    (∃ t, step (idleState [1] [.resetInput true]) = .next t ∧
      t.operands ≠ (idleState [1] [.resetInput true]).operands) := by
  refine ⟨rfl, rfl, ⟨_, rfl, ?_⟩, ⟨_, rfl, ?_⟩⟩ <;> decide +kernel

theorem witness_CtrlAndStatusWrites :
    let s := fun a => { idleState [] [.access a] with done := true, err := true }
    (s (mmioWrite 0x00008 0x7FFFFFFF)).resetInput = false ∧
    (s (mmioWrite 0x00008 0x7FFFFFFF)).inbox = [.access (mmioWrite 0x00008 0x7FFFFFFF)] ∧
    (0x7FFFFFFF : Word32).getLsbD 31 = false ∧
    (s (mmioWrite 0x0000C 2)).inbox = [.access (mmioWrite 0x0000C 2)] := ⟨rfl, rfl, by decide, rfl⟩

theorem witness_RegisterReadValues (o : BitVec 17) :
    (idleState [] [.access (mmioRead o)]).resetInput = false ∧
    (idleState [] [.access (mmioRead o)]).inbox = [.access (mmioRead o)] := ⟨rfl, rfl⟩

/-- The error state, about to see each kind of access, the word of DBUF the first and the last. -/
theorem witness_ErrorStateIsSticky :
    let s := fun a => { idleState [] [.access a] with
      err := true, errcode := .range, errinfo := 3, cmd := 3 }
    (∀ a, (s a).err = true ∧ (s a).phase = .idle ∧ (s a).resetInput = false ∧
      (s a).inbox = [.access a]) ∧
    (∃ t, step (s (cmdWrite 3)) = .next t) ∧
    (∃ t, step { busyState .nh [0, 1072, 16, 2000] [] [.access (cmdWrite 3)] with err := true } = .next t) ∧
    (0 % 4 = 0 ∧ 0 + 4 ≤ (s (cmdWrite 3)).dbufsz.toNat ∧ (0x10000 : BitVec 17).toNat = 0x10000 + 0) ∧
    (65532 % 4 = 0 ∧ 65532 + 4 ≤ (s (cmdWrite 3)).dbufsz.toNat ∧
      (0x1FFFC : BitVec 17).toNat = 0x10000 + 65532) := by
  refine ⟨fun a => ⟨rfl, rfl, rfl, rfl⟩, ⟨_, rfl⟩, ⟨_, rfl⟩, ?_, ?_⟩ <;> decide +kernel

/-- A busy engine about to complete NH meets the invariant, whatever events come. -/
theorem busy_inv (inbox : List Event) : (busyState .nh [0, 1072, 16, 2000] [] inbox).Inv where
  sizeLegal := by show Config.defaultDbufSize ∈ Config.legalDbufSizes; decide
  dbufWf := List.Pairwise.nil
  dbufInside := fun c hc => absurd hc (by simp [busyState, layout])
  latch := by
    intro l hl
    have hl' : l = { word := encode .nh, x := ops [0, 1072, 16, 2000] } := by
      simp only [busyState, Phase.busy.injEq] at hl
      exact hl.symm
    subst hl'
    refine ⟨rfl, rfl, rfl, .nh, rfl, ?_⟩
    show (commandOf .nh (ops [0, 1072, 16, 2000])).error Config.defaultDbufSize.toNat = none
    decide +kernel
  error := by simp [State.errorSound, busyState, State.reset]
  resetHeld := fun h => absurd h (by simp [busyState, State.reset])

/-- A busy engine in the error state that a violation left meets the invariant. -/
theorem busy_err_inv (inbox : List Event) :
    State.Inv { busyState .nh [0, 1072, 16, 2000] [] inbox with
      err := true, errcode := .busyViolation, errinfo := 0x10000 } where
  sizeLegal := (busy_inv inbox).sizeLegal
  dbufWf := (busy_inv inbox).dbufWf
  dbufInside := (busy_inv inbox).dbufInside
  latch := (busy_inv inbox).latch
  error := by simp [State.errorSound, violationOffset]
  resetHeld := fun h => absurd h (by simp [busyState, State.reset])

/-- The edges of the ranges of offsets, a read, and the completion of a busy engine in the error state. -/
theorem witness_BusyViolation :
    let s := busyState .nh [0, 1072, 16, 2000] []
    let l : Latch := { word := encode .nh, x := ops [0, 1072, 16, 2000] }
    (∀ a, (s [.access a]).inbox = [.access a] ∧ (s [.access a]).resetInput = false ∧
      (s [.access a]).phase = .busy l) ∧
    (∀ o ∈ [0x10, 0x20, 0x3C, 0x10000, 0x1FFFC], violationOffset (BitVec.ofNat 17 o).toNat) ∧
    (∀ o ∈ [0x00, 0x04, 0x14, 0x1C, 0x40, 0xFFFC], (BitVec.ofNat 17 o).toNat % 4 = 0 ∧
      ¬ violationOffset (BitVec.ofNat 17 o).toNat ∧ BitVec.ofNat 17 o ≠ 0x00008 ∧
      BitVec.ofNat 17 o ≠ 0x0000C) ∧
    (∃ t, step (s [.access (mmioRead 0x1FFFC)]) = .next t) ∧
    State.Inv { s [.engineTurn] with err := true, errcode := .busyViolation, errinfo := 0x10000 } := by
  refine ⟨fun a => ⟨rfl, rfl, rfl⟩, ?_, ?_, ⟨_, rfl⟩, busy_err_inv _⟩
  · unfold violationOffset; decide +kernel
  · unfold violationOffset; decide +kernel

/-- The edges of the reserved ranges, for a DBUF of 8192 bytes. -/
theorem witness_ReservedOffsets :
    let s := fun e => { idleState [] [.access e] with dbufsz := 8192 }
    (∀ e, (s e).resetInput = false ∧ (s e).phase = .idle ∧ (s e).inbox = [.access e]) ∧
    ∀ o ∈ [0x1C, 0x40, 0xFFFC, 0x12000, 0x1FFFC], (BitVec.ofNat 17 o).toNat % 4 = 0 ∧
      ((BitVec.ofNat 17 o).toNat = 0x1C ∨
        (0x40 ≤ (BitVec.ofNat 17 o).toNat ∧ (BitVec.ofNat 17 o).toNat < 0x10000) ∨
        0x10000 + (8192 : Word32).toNat ≤ (BitVec.ofNat 17 o).toNat) := by
  refine ⟨fun e => ⟨rfl, rfl, rfl⟩, ?_⟩
  decide +kernel

theorem witness_UnservedAccessGetsBusError :
    let s := fun a => idleState [] [.access a]
    (s { offset := 0x00010, width := .byte, kind := .write 1 }).resetInput = false ∧
    (Width.byte ≠ .word) ∧ (0x1FFFF : BitVec 17).toNat % 4 ≠ 0 := ⟨rfl, by decide, by decide⟩

/-- The first and the last word of DBUF. -/
theorem witness_DbufWindowLittleEndian :
    (∀ a, (idleState [] [.access a]).resetInput = false ∧ (idleState [] [.access a]).phase = .idle ∧
      (idleState [] [.access a]).inbox = [.access a]) ∧
    (0 % 4 = 0 ∧ 0 + 4 ≤ Config.defaultDbufSize.toNat ∧ (0x10000 : BitVec 17).toNat = 0x10000 + 0) ∧
    (65532 % 4 = 0 ∧ 65532 + 4 ≤ Config.defaultDbufSize.toNat ∧
      (0x1FFFC : BitVec 17).toNat = 0x10000 + 65532) := by
  refine ⟨fun a => ⟨rfl, rfl, rfl⟩, ?_, ?_⟩ <;> decide +kernel

theorem witness_ReadsChangeNothing :
    let b := busyState .nh [0, 1072, 16, 2000] []
    (idleState [] [.access (mmioRead 0)]).phase = .idle ∧
    (b [.access (mmioRead 0x10000)]).phase ≠ .idle ∧
    ∀ o ∈ [0x10000, 0x1FFFC], (BitVec.ofNat 17 o).toNat % 4 = 0 ∧
      0x10000 ≤ (BitVec.ofNat 17 o).toNat ∧
      (BitVec.ofNat 17 o).toNat < 0x10000 + Config.defaultDbufSize.toNat := by
  refine ⟨rfl, by decide, ?_⟩
  decide +kernel

/-- A host write changes byte 3, and a completion (AES256_ENC, V-AES-1) changes byte 32. -/
theorem witness_DbufChangesOnlyBy :
    (∃ t, step { idleState [] [.access (mmioWrite 0x10000 0x01000000)] with dbuf := layout [0, 0, 0, 0] } =
        .next t ∧
      t.dbufByte 3 ≠ State.dbufByte { idleState [] [] with dbuf := layout [0, 0, 0, 0] } 3) ∧
    (∃ t, step (busyState .aes256Enc [0, 32, 32]
        (counting 0 32 ++ beBytes 16 0x00112233445566778899aabbccddeeff) []) = .next t ∧
      t.dbufByte 32 ≠ State.dbufByte (busyState .aes256Enc [0, 32, 32]
        (counting 0 32 ++ beBytes 16 0x00112233445566778899aabbccddeeff) []) 32) := by
  refine ⟨⟨_, rfl, ?_⟩, ⟨_, rfl, ?_⟩⟩ <;> decide +kernel

/-- The engine becomes BUSY, completes, and is reset while BUSY. -/
theorem witness_PhaseChangesOnlyBy :
    (∃ t l, step (idleState [0, 32, 48] [.access (cmdWrite 1)]) = .next t ∧ t.phase = .busy l) ∧
    (∃ t, step (busyState .hchacha12 [0, 32, 48] [] []) = .next t ∧
      (busyState .hchacha12 [0, 32, 48] [] []).done = false ∧ t.done = true) ∧
    (∃ t, step (busyState .hchacha12 [0, 32, 48] [] [.access (mmioWrite 0x00008 0x80000000)]) = .next t ∧
      t.phase = .idle) := ⟨⟨_, _, rfl, rfl⟩, ⟨_, rfl, rfl, rfl⟩, ⟨_, rfl, rfl⟩⟩

/-! ## Hypotheses met: the command framework -/

/-- In phase IDLE with ERR = 1; with ERR = 0 refused; with ERR = 0 accepted. -/
theorem witness_IdleExecSubmits :
    let s := idleState [0, 32, 49] []
    State.phase { s with err := true } = .idle ∧ s.phase = .idle ∧ s.err = false ∧
    (commandOf .nh s.operands).error s.dbufsz.toNat = some .length ∧
    (commandOf .hchacha12 s.operands).error s.dbufsz.toNat = none := by
  refine ⟨rfl, rfl, rfl, ?_, ?_⟩ <;> decide +kernel

/-- An empty range at the end of DBUF, and a command accepted with an output that ends there. -/
theorem witness_RangeRule :
    (Range.mk 65536 0).size = 0 ∧ accepted .hchacha12 (ops [0, 32, 65504]) 65536 := by
  refine ⟨rfl, ?_⟩
  unfold accepted
  decide +kernel

/-- The alias rule's hypotheses hold of overlapping, of equal and of neighbouring ranges. -/
theorem witness_AliasRule :
    ∀ dst ∈ [0x10, 0x40, 0x41, 0x50], lengthPredicate (ops [0, 0x40, dst]) .aes256Enc ∧
      ∀ r ∈ rangesOf (ops [0, 0x40, dst]) .aes256Enc, r.addr + r.size ≤ 65536 := by
  intro dst h
  refine ⟨trivial, ?_⟩
  simp only [List.mem_cons, List.not_mem_nil, or_false] at h
  rcases h with rfl | rfl | rfl | rfl <;> decide +kernel

theorem witness_UnacceptedLatchFaults :
    ((busyState .nh [] [] []).phase = .busy { word := encode .nh, x := ops [] } ∧
      (commandOf .nh (ops [])).error (busyState .nh [] [] []).dbufsz.toNat ≠ none) ∧
    (State.inbox { busyState .nh [] [] [.engineTurn] with
        phase := .busy { word := 0, x := ops [] } } = [.engineTurn] ∧
      decode 0 = .error .illegalOpcode) ∧
    (busyState .nh [0, 1072, 16, 2000] [] []).Inv := by
  refine ⟨⟨rfl, ?_⟩, ⟨rfl, rfl⟩, busy_inv []⟩
  decide +kernel

theorem witness_AcceptedCommandsCannotFail :
    (busyState .nh [0, 1072, 16, 2000] [] [.engineTurn]).Inv ∧ (idleState [] [.access (cmdWrite 0)]).Inv :=
  ⟨busy_inv _, idle_inv _ _⟩

theorem witness_StepKeepsInvariant :
    (busyState .nh [0, 1072, 16, 2000] [] [.access (mmioWrite 0x10000 1)]).Inv ∧
    ∃ t, step (busyState .nh [0, 1072, 16, 2000] [] [.access (mmioWrite 0x10000 1)]) = .next t :=
  ⟨busy_inv _, _, rfl⟩

theorem witness_BusyEngineCompletes :
    let l : Latch := { word := encode .nh, x := ops [0, 1072, 16, 2000] }
    let s := busyState .nh [0, 1072, 16, 2000] []
      [.access (mmioRead 0x0000C), .access (mmioWrite 0x00020 1), .engineTurn]
    s.Inv ∧ s.phase = .busy l ∧ decode l.word = .ok .nh ∧ ∀ e ∈ s.inbox, ¬ e.mayReset := by
  refine ⟨busy_inv _, rfl, rfl, ?_⟩
  intro e he
  simp only [busyState, List.mem_cons, List.not_mem_nil, or_false] at he
  rcases he with rfl | rfl | rfl <;> simp [Event.mayReset, mmioRead, mmioWrite]

/-- The same key and nonce at other addresses, and the output elsewhere. -/
theorem witness_CommandsDependOnlyOnInputs :
    let s₁ := busyState .hchacha12 [0, 32, 48] (zeroBytes 48) []
    let s₂ := busyState .hchacha12 [5, 0, 48] (zeroBytes 48) []
    (commandOf .hchacha12 (ops [0, 32, 48])).inputs.map s₁.memRead =
      (commandOf .hchacha12 (ops [5, 0, 48])).inputs.map s₂.memRead ∧
    (∃ t, exec .hchacha12 s₁ = .next t) ∧ (∃ t, exec .hchacha12 s₂ = .next t) := by
  refine ⟨?_, ⟨_, rfl⟩, ⟨_, rfl⟩⟩
  decide +kernel

/-! ## Hypotheses met: what each command completes with -/

/-- The latch of `busyState`. -/
def latch (i : Instr) (x : List Nat) : Latch := { word := encode i, x := ops x }

/-- The output at the end of DBUF, and right after the inputs. -/
theorem witness_HchachaResult (x : List Nat) (h : x ∈ [[0, 32, 65504], [16, 0, 48]]) :
    let s := busyState .hchacha12 x [] []
    let l := latch .hchacha12 x
    s.phase = .busy l ∧
      acceptable s.dbufsz.toNat [⟨reg l.x 0, 32⟩, ⟨reg l.x 1, 16⟩] none ⟨reg l.x 2, 32⟩ := by
  simp only [List.mem_cons, List.not_mem_nil, or_false] at h
  unfold acceptable Range.disjoint
  rcases h with rfl | rfl <;> exact ⟨rfl, by decide +kernel⟩

/-- In place up to the end of DBUF, and of length 0 with an output inside the key. -/
theorem witness_ChachaXorResult (x : List Nat) (h : x ∈ [[0, 32, 56, 65480, 56], [0, 32, 65536, 0, 16]]) :
    let s := busyState .chacha12Xor x [] []
    let l := latch .chacha12Xor x
    s.phase = .busy l ∧
      acceptable s.dbufsz.toNat [⟨reg l.x 0, 32⟩, ⟨reg l.x 1, 16⟩] (some ⟨reg l.x 2, reg l.x 3⟩) ⟨reg l.x 4, reg l.x 3⟩ := by
  simp only [List.mem_cons, List.not_mem_nil, or_false] at h
  unfold acceptable Range.disjoint
  rcases h with rfl | rfl <;> exact ⟨rfl, by decide +kernel⟩

/-- In place up to the end of DBUF, and of length 0 with an output inside the key. -/
theorem witness_XchachaXorResult (x : List Nat) (h : x ∈ [[0, 32, 56, 65480, 56], [0, 32, 65536, 0, 16]]) :
    let s := busyState .xchacha12Xor x [] []
    let l := latch .xchacha12Xor x
    s.phase = .busy l ∧
      acceptable s.dbufsz.toNat [⟨reg l.x 0, 32⟩, ⟨reg l.x 1, 24⟩] (some ⟨reg l.x 2, reg l.x 3⟩) ⟨reg l.x 4, reg l.x 3⟩ := by
  simp only [List.mem_cons, List.not_mem_nil, or_false] at h
  unfold acceptable Range.disjoint
  rcases h with rfl | rfl <;> exact ⟨rfl, by decide +kernel⟩

/-- With an A2 that is no address, and of length 0 at the end of DBUF. -/
theorem witness_XchachaStreamResult (x : List Nat) (h : x ∈ [[0, 32, 0xFFFFFFFF, 65480, 56], [0, 32, 0, 0, 65536]]) :
    let s := busyState .xchacha12Stream x [] []
    let l := latch .xchacha12Stream x
    s.phase = .busy l ∧
      acceptable s.dbufsz.toNat [⟨reg l.x 0, 32⟩, ⟨reg l.x 1, 24⟩] none ⟨reg l.x 4, reg l.x 3⟩ := by
  simp only [List.mem_cons, List.not_mem_nil, or_false] at h
  unfold acceptable Range.disjoint
  rcases h with rfl | rfl <;> exact ⟨rfl, by decide +kernel⟩

/-- A message as long as DBUF allows, and an empty one. -/
theorem witness_PolyResult (x : List Nat) (h : x ∈ [[0, 16, 65504, 65520], [0, 8, 0, 16]]) :
    let s := busyState .poly1305e x [] []
    let l := latch .poly1305e x
    s.phase = .busy l ∧
      acceptable s.dbufsz.toNat [⟨reg l.x 0, 16⟩, ⟨reg l.x 1, reg l.x 2⟩] none ⟨reg l.x 3, 16⟩ := by
  simp only [List.mem_cons, List.not_mem_nil, or_false] at h
  unfold acceptable Range.disjoint
  rcases h with rfl | rfl <;> exact ⟨rfl, by decide +kernel⟩

/-- The shortest and the longest message. -/
theorem witness_NhResult (x : List Nat) (h : x ∈ [[0, 1072, 16, 65504], [64464, 0, 1024, 1024]]) :
    let s := busyState .nh x [] []
    let l := latch .nh x
    s.phase = .busy l ∧
      reg l.x 2 % 16 = 0 ∧
      16 ≤ reg l.x 2 ∧
      reg l.x 2 ≤ 1024 ∧
      acceptable s.dbufsz.toNat [⟨reg l.x 0, 1072⟩, ⟨reg l.x 1, reg l.x 2⟩] none ⟨reg l.x 3, 32⟩ := by
  simp only [List.mem_cons, List.not_mem_nil, or_false] at h
  unfold acceptable Range.disjoint
  rcases h with rfl | rfl <;> exact ⟨rfl, by decide +kernel⟩

/-- The shortest and the longest message, with a key that ends one byte after DBUF. -/
theorem witness_NhResult_range (n : Nat) (h : n ∈ [16, 1024]) :
    let s := idleState [64465, 0, n, 2048] []
    s.phase = .idle ∧ s.err = false ∧ reg s.operands 2 % 16 = 0 ∧ 16 ≤ reg s.operands 2 ∧
      reg s.operands 2 ≤ 1024 ∧ s.dbufsz.toNat < reg s.operands 0 + 1072 := by
  simp only [List.mem_cons, List.not_mem_nil, or_false] at h
  rcases h with rfl | rfl <;> exact ⟨rfl, rfl, by decide +kernel⟩

/-- A message as long as DBUF allows, and an empty one. -/
theorem witness_AdiantumHashResult (x : List Nat) (h : x ∈ [[0, 1104, 1136, 64384, 65520], [0, 1104, 0, 0, 1136]]) :
    let s := busyState .adiantumHash x [] []
    let l := latch .adiantumHash x
    s.phase = .busy l ∧
      acceptable s.dbufsz.toNat [⟨reg l.x 0, 1104⟩, ⟨reg l.x 1, 32⟩, ⟨reg l.x 2, reg l.x 3⟩] none ⟨reg l.x 4, 16⟩ := by
  simp only [List.mem_cons, List.not_mem_nil, or_false] at h
  unfold acceptable Range.disjoint
  rcases h with rfl | rfl <;> exact ⟨rfl, by decide +kernel⟩

/-- An empty message, with a key that ends one byte after DBUF. -/
theorem witness_AdiantumHashResult_range :
    let s := idleState [64433, 0, 0, 0, 2048] []
    s.phase = .idle ∧ s.err = false ∧ s.dbufsz.toNat < reg s.operands 0 + 1104 :=
  ⟨rfl, rfl, by decide +kernel⟩

/-- In place, and apart at the end of DBUF. The latched word is no hypothesis. -/
theorem witness_AesBlockResults (x : List Nat) (h : x ∈ [[0, 32, 32], [0, 32, 65520]]) :
    let s := busyState .aes256Enc x [] []
    let l := latch .aes256Enc x
    s.phase = .busy l ∧
      acceptable s.dbufsz.toNat [⟨reg l.x 0, 32⟩] (some ⟨reg l.x 1, 16⟩) ⟨reg l.x 2, 16⟩ := by
  simp only [List.mem_cons, List.not_mem_nil, or_false] at h
  unfold acceptable Range.disjoint
  rcases h with rfl | rfl <;> exact ⟨rfl, by decide +kernel⟩

/-- The shortest data, apart, and the longest, in place. -/
theorem witness_XtsResults (x : List Nat) (h : x ∈ [[0, 64, 80, 16, 65520], [0, 64, 80, 65456, 80]]) :
    let s := busyState .xtsEnc x [] []
    let l := latch .xtsEnc x
    s.phase = .busy l ∧
      reg l.x 3 % 16 = 0 ∧
      16 ≤ reg l.x 3 ∧
      acceptable s.dbufsz.toNat [⟨reg l.x 0, 64⟩, ⟨reg l.x 1, 16⟩] (some ⟨reg l.x 2, reg l.x 3⟩) ⟨reg l.x 4, reg l.x 3⟩ := by
  simp only [List.mem_cons, List.not_mem_nil, or_false] at h
  unfold acceptable Range.disjoint
  rcases h with rfl | rfl <;> exact ⟨rfl, by decide +kernel⟩

/-- The shortest message, apart, and the longest, in place. -/
theorem witness_AdiantumResults (x : List Nat) (h : x ∈ [[0, 32, 64, 16, 65520], [0, 32, 64, 65472, 64]]) :
    let s := busyState .adiantumEnc x [] []
    let l := latch .adiantumEnc x
    s.phase = .busy l ∧
      16 ≤ reg l.x 3 ∧
      acceptable s.dbufsz.toNat [⟨reg l.x 0, 32⟩, ⟨reg l.x 1, 32⟩] (some ⟨reg l.x 2, reg l.x 3⟩) ⟨reg l.x 4, reg l.x 3⟩ := by
  simp only [List.mem_cons, List.not_mem_nil, or_false] at h
  unfold acceptable Range.disjoint
  rcases h with rfl | rfl <;> exact ⟨rfl, by decide +kernel⟩

/-- Both lengths of the key, one with an A2 that is no address. -/
theorem witness_HkdfTagOnlyResults (x : List Nat) (h : x ∈ [[0, 32, 0xFFFFFFFF, 16, 32], [0, 64, 0, 16, 65520]]) :
    let s := busyState .hkdfKeyIdentifier x [] []
    let l := latch .hkdfKeyIdentifier x
    s.phase = .busy l ∧
      (reg l.x 1 = 32 ∨ reg l.x 1 = 64) ∧
      reg l.x 3 = 16 ∧
      acceptable s.dbufsz.toNat [⟨reg l.x 0, reg l.x 1⟩] none ⟨reg l.x 4, 16⟩ := by
  simp only [List.mem_cons, List.not_mem_nil, or_false] at h
  unfold acceptable Range.disjoint
  rcases h with rfl | rfl <;> exact ⟨rfl, by decide +kernel⟩

/-- Both output lengths of PER_FILE_ENC_KEY, and that of DIRHASH_KEY. -/
theorem witness_HkdfNonceResults (x : List Nat) (h : x ∈ [[0, 32, 32, 32, 48], [0, 64, 64, 64, 65472], [0, 64, 64, 16, 80]]) :
    let s := busyState .hkdfPerFileEncKey x [] []
    let l := latch .hkdfPerFileEncKey x
    s.phase = .busy l ∧
      (reg l.x 1 = 32 ∨ reg l.x 1 = 64) ∧
      ((reg l.x 3 = 32 ∨ reg l.x 3 = 64) ∨ reg l.x 3 = 16) ∧
      acceptable s.dbufsz.toNat [⟨reg l.x 0, reg l.x 1⟩, ⟨reg l.x 2, 16⟩] none ⟨reg l.x 4, reg l.x 3⟩ := by
  simp only [List.mem_cons, List.not_mem_nil, or_false] at h
  unfold acceptable Range.disjoint
  rcases h with rfl | rfl | rfl <;> exact ⟨rfl, by decide +kernel⟩

/-- Both output lengths, one with an A2 that is no address. -/
theorem witness_HkdfDirectKeyResult (x : List Nat) (h : x ∈ [[0, 32, 0xFFFFFFFF, 32, 32], [0, 64, 0, 64, 65472]]) :
    let s := busyState (.hkdfDirectKey 9) x [] []
    let l := latch (.hkdfDirectKey 9) x
    s.phase = .busy l ∧
      (reg l.x 1 = 32 ∨ reg l.x 1 = 64) ∧
      (reg l.x 3 = 32 ∨ reg l.x 3 = 64) ∧
      acceptable s.dbufsz.toNat [⟨reg l.x 0, reg l.x 1⟩] none ⟨reg l.x 4, reg l.x 3⟩ := by
  simp only [List.mem_cons, List.not_mem_nil, or_false] at h
  unfold acceptable Range.disjoint
  rcases h with rfl | rfl <;> exact ⟨rfl, by decide +kernel⟩

/-- Both output lengths. -/
theorem witness_HkdfUuidResults (x : List Nat) (h : x ∈ [[0, 32, 32, 32, 48], [0, 64, 64, 64, 65472]]) :
    let s := busyState (.hkdfIvInoLblk64Key 1) x [] []
    let l := latch (.hkdfIvInoLblk64Key 1) x
    s.phase = .busy l ∧
      (reg l.x 1 = 32 ∨ reg l.x 1 = 64) ∧
      (reg l.x 3 = 32 ∨ reg l.x 3 = 64) ∧
      acceptable s.dbufsz.toNat [⟨reg l.x 0, reg l.x 1⟩, ⟨reg l.x 2, 16⟩] none ⟨reg l.x 4, reg l.x 3⟩ := by
  simp only [List.mem_cons, List.not_mem_nil, or_false] at h
  unfold acceptable Range.disjoint
  rcases h with rfl | rfl <;> exact ⟨rfl, by decide +kernel⟩

/-- A message as long as DBUF allows, and an empty one. -/
theorem witness_CmacResult (x : List Nat) (h : x ∈ [[0, 32, 65488, 65520], [0, 16, 0, 32]]) :
    let s := busyState .aes256Cmac x [] []
    let l := latch .aes256Cmac x
    s.phase = .busy l ∧
      acceptable s.dbufsz.toNat [⟨reg l.x 0, 32⟩, ⟨reg l.x 1, reg l.x 2⟩] none ⟨reg l.x 3, 16⟩ := by
  simp only [List.mem_cons, List.not_mem_nil, or_false] at h
  unfold acceptable Range.disjoint
  rcases h with rfl | rfl <;> exact ⟨rfl, by decide +kernel⟩

/-- One byte with an empty label and context, and an output that fills DBUF. -/
theorem witness_CmacKdfResult (x : List Nat) (h : x ∈ [[0, 0, 0, 0, 0, 1, 32], [0, 32, 5, 37, 3, 65496, 40]]) :
    let s := busyState .cmacKdf x [] []
    let l := latch .cmacKdf x
    s.phase = .busy l ∧
      1 ≤ reg l.x 5 ∧
      reg l.x 5 ≤ 0x1FFFFFFF ∧
      acceptable s.dbufsz.toNat [⟨reg l.x 0, 32⟩, ⟨reg l.x 1, reg l.x 2⟩, ⟨reg l.x 3, reg l.x 4⟩] none ⟨reg l.x 6, reg l.x 5⟩ := by
  simp only [List.mem_cons, List.not_mem_nil, or_false] at h
  unfold acceptable Range.disjoint
  rcases h with rfl | rfl <;> exact ⟨rfl, by decide +kernel⟩

/-! ## Hypotheses met: functions and the assembler -/

theorem witness_AesCiphersInvert : (zeroBytes 32).length = 32 ∧ (zeroBytes 16).length = 16 := by decide

theorem witness_XtsRoundTrip :
    (zeroBytes 64).length = 64 ∧ (zeroBytes 16).length = 16 ∧ (zeroBytes 16).length % 16 = 0 ∧
      16 ≤ (zeroBytes 16).length := by decide

theorem witness_AdiantumRoundTrip :
    (zeroBytes 32).length = 32 ∧ 16 ≤ (zeroBytes 16).length ∧ 16 ≤ (zeroBytes 17).length := by decide

/-- 0 has no inverse, 1 has one; both clauses on an entry of SBOX are met. -/
theorem witness_SboxIsAffineInverse : (0 : Byte) = 0 ∧ (1 : Byte) ≠ 0 := by decide

/-- A word of 4 and of 8 bytes at the end of a string, and strings of 16 bytes. -/
theorem witness_NumberEncodings :
    12 + 4 ≤ (List.replicate 16 (0xff : Byte)).length ∧ 8 + 8 ≤ (List.replicate 16 (0xff : Byte)).length ∧
      0 < 1 ∧ (List.replicate 16 (0xff : Byte)).length = 16 := by decide

theorem witness_SubtractionUndoesAddition :
    (zeroBytes 16).length = 16 ∧ (List.replicate 16 (0xff : Byte)).length = 16 := by decide

/-- Two strings with the same double are one string. -/
theorem witness_MulxDoubles :
    (zeroBytes 16).length = 16 ∧ mulx (zeroBytes 16) = mulx (zeroBytes 16) := by decide

theorem witness_ChachaBlockCounter : (List.replicate 16 (0xff : Byte)).length = 16 := by decide

theorem witness_CmacCornerCases :
    (zeroBytes 32).length = 32 ∧ (zeroBytes 0).length = 0 ∧ (zeroBytes 16).length = 16 ∧
      (zeroBytes 17).length = 17 := by decide

/-- A line in another order than the table's, one that omits an operand, and the HKDF lines of each clause:
whole, and refused for want of `ctx=`, of an operand, of `mode=`, and for a `mode=` and an `extra=` that
the context does not take. -/
theorem witness_AssemblerExpansion :
    let value : AsmName → Nat := fun n => match n with | .src => 0xFFFFFFFF | _ => 64
    let l : AsmLine := { mnemonic := .aes256Enc
                         operands := [(.dst, .number 64), (.key, .number 64), (.src, .number 0xFFFFFFFF)] }
    let h : AsmLine := { mnemonic := .hkdfSha512
                         operands := [(.mode, .number 255), (.ctx, .context .directKey), (.ikm, .number 64),
                           (.ikmlen, .number 64), (.outlen, .number 64), (.dst, .number 64)] }
    let k : AsmLine := { mnemonic := .hkdfSha512
                         operands := [(.ctx, .context .keyIdentifier), (.mode, .number 0),
                           (.extra, .number 0)] }
    (AsmMnemonic.aes256Enc, Instr.aes256Enc, [(.key, 0), (.src, 1), (.dst, 2)]) ∈ plainLines ∧
    (∀ n, value n < 2 ^ 32) ∧
    l.operands.Perm ([(.key, 0), (.src, 1), (.dst, 2)].map
      fun p : AsmName × Fin 8 => (p.1, .number (value p.1))) ∧
    (∃ as, assemble l = .ok as) ∧ AsmLine.value? { l with operands := [] } .key = none ∧
    h.operands.Perm ((.ctx, .context .directKey) ::
      (if HkdfContext.directKey ∈ modeContexts then [(.mode, .number 255)] else []) ++
      (hkdfRegisters .directKey).map fun p => (p.1, .number (value p.1))) ∧
    h.value? .ctx = some (.context .directKey) ∧ (∃ as, assemble h = .ok as) ∧
    AsmLine.value? { h with operands := [(.ctx, .context .directKey)] } .mode = none ∧
    AsmLine.value? { h with operands := [] } .ctx = none ∧
    k.value? .ctx = some (.context .keyIdentifier) ∧ k.value? .ikm = none ∧
    HkdfContext.keyIdentifier ∉ modeContexts ∧ k.value? .mode ≠ none ∧
    HkdfContext.keyIdentifier ∉ extraContexts ∧ k.value? .extra ≠ none := by
  refine ⟨by decide, fun n => ?_, by decide, ⟨_, rfl⟩, rfl, by decide, rfl, ⟨_, rfl⟩, rfl, rfl, rfl, rfl,
    by decide, by decide, by decide, by decide⟩
  cases n <;> decide

end Sys2Proof.Tests
end

/-! SUPPORT. The DBUF window in phase IDLE: the bytes of a little-endian word, and the step of an aligned
read or write of a word of DBUF (spec/20_memory.md R71, R72, R75). -/

namespace Sys2Proof.Machine

/-! ## The bytes of a little-endian encoding -/

/-- Byte i of the n-byte encoding of v (40_primitives.md R142). -/
theorem getElem?_leBytes {n i : Nat} (v : Nat) (h : i < n) :
    (leBytes n v)[i]? = some (BitVec.ofNat 8 (v / 256 ^ i)) := by
  induction n generalizing v i with
  | zero => exact absurd h (Nat.not_lt_zero i)
  | succ n ih =>
    cases i with
    | zero => simp [leBytes]
    | succ i =>
      rw [leBytes, List.getElem?_cons_succ, ih _ (Nat.lt_of_succ_lt_succ h), Nat.div_div_eq_div_mul,
        Nat.pow_succ']

/-- Bits 8j to 8j+7 of a word are its base-256 digit j. -/
theorem extractLsb'_eq_ofNat_div {w : Nat} (v : BitVec w) (j : Nat) :
    v.extractLsb' (8 * j) 8 = BitVec.ofNat 8 (v.toNat / 256 ^ j) := by
  rw [BitVec.extractLsb', Nat.shiftRight_eq_div_pow, Nat.pow_mul]

/-- Byte j of `LE32(v)` is bits 8j to 8j+7 of v (R142). -/
theorem getElem?_le32 (v : Word32) {j : Nat} (h : j < 4) :
    (le32 v)[j]? = some (v.extractLsb' (8 * j) 8) := by
  rw [le32, getElem?_leBytes _ h, extractLsb'_eq_ofNat_div]

/-! ## The word of DBUF -/

/-- The word of DBUF at an address is the one whose encoding stands there (20_memory.md R72). -/
theorem le32_dbufWord (s : State) (a : Nat) : le32 (s.dbufWord a) = s.memRead ⟨a, 4⟩ := by
  have hlt : leNat (s.memRead ⟨a, 4⟩) < 2 ^ 32 := by simpa using leNat_lt (s.memRead ⟨a, 4⟩)
  rw [le32, State.dbufWord, BitVec.toNat_ofNat, Nat.mod_eq_of_lt hlt]
  simpa using leBytes_leNat (s.memRead ⟨a, 4⟩)

/-- Bits 8j to 8j+7 of the word of DBUF at an address are byte j from that address on (R72). -/
theorem extractLsb'_dbufWord (s : State) (a : Nat) {j : Nat} (h : j < 4) :
    (s.dbufWord a).extractLsb' (8 * j) 8 = s.dbufByte (a + j) := by
  have hb := getElem?_le32 (s.dbufWord a) h
  rw [le32_dbufWord, getElem?_memRead, if_pos h, Option.some.injEq] at hb
  exact hb.symm

/-- Byte j from the address on, after a word was written there, is bits 8j to 8j+7 of the word (R72). -/
theorem dbufByte_memWrite_le32 (s : State) (a : Nat) (v : Word32) {j : Nat} (h : j < 4) :
    (s.memWrite a (le32 v)).dbufByte (a + j) = v.extractLsb' (8 * j) 8 := by
  have hin : a ≤ a + j ∧ a + j < a + (le32 v).length := by
    rw [length_le32]
    omega
  rw [dbufByte_memWrite, if_pos hin, Nat.add_sub_cancel_left, List.getD_eq_getElem?_getD,
    getElem?_le32 v h, Option.getD_some]

/-- A write of a word leaves the bytes below and above it as they are. -/
theorem dbufByte_memWrite_le32_outside (s : State) (a : Nat) (v : Word32) {b : Nat}
    (h : b < a ∨ a + 4 ≤ b) : (s.memWrite a (le32 v)).dbufByte b = s.dbufByte b :=
  dbufByte_memWrite_outside s ⟨a, 4⟩ (le32 v) (length_le32 v)
    (fun ⟨hlo, hhi⟩ => h.elim (Nat.not_lt.mpr hlo) (Nat.not_le.mpr hhi))

/-! ## The step of a DBUF access in phase IDLE -/

/-- The word of DBUF at address a stands at offset 0x10000 + a of the window (10_state.md R32). -/
theorem targetAt_dbuf {s : State} {o : BitVec 17} {a : Nat} (ho : o.toNat = 0x10000 + a)
    (ha : a < s.dbufsz.toNat) : s.targetAt o = .dbuf a := by
  rw [State.targetAt, target_dbuf (by omega) (by omega), ho, Nat.add_sub_cancel_left]

/-- An idle engine performs an aligned word write of DBUF. -/
theorem step_write_dbuf {s : State} {rest : List Event} {o : BitVec 17} {a : Nat} {v : Word32}
    (hi : s.inbox = .access (mmioWrite o v) :: rest) (hr : s.resetInput = false)
    (hp : s.phase = .idle) (hal : o.toNat % 4 = 0) (ht : s.targetAt o = .dbuf a) :
    step s = .next ((s.after rest (some .writeAck)).memWrite a (le32 v)) := by
  have hserved : (mmioWrite o v).served = true := (served_iff _).mpr ⟨rfl, hal⟩
  have ht' : (s.after rest (some .writeAck)).targetAt o = .dbuf a := ht
  have hb : (s.after rest (some .writeAck)).busy = false := not_busy_iff.mpr hp
  rw [step_write hi hr hserved rfl]
  simp only [busWrite, mmioWrite, ht', writeTarget, hb, Bool.false_eq_true, if_false, writeDbufWord]

/-- An idle engine answers an aligned word read of DBUF with the word that stands there. -/
theorem step_read_dbuf {s : State} {rest : List Event} {o : BitVec 17} {a : Nat}
    (hi : s.inbox = .access (mmioRead o) :: rest) (hr : s.resetInput = false)
    (hp : s.phase = .idle) (hal : o.toNat % 4 = 0) (ht : s.targetAt o = .dbuf a) :
    step s = .next (s.after rest (some (.readData (s.dbufWord a)))) := by
  have hserved : (mmioRead o).served = true := (served_iff _).mpr ⟨rfl, hal⟩
  have ht' : (s.after rest none).targetAt o = .dbuf a := ht
  have hb : (s.after rest none).busy = false := not_busy_iff.mpr hp
  rw [step_read hi hr hserved rfl]
  simp only [busRead, mmioRead, ht', hb, Bool.false_and, Bool.false_eq_true, if_false]
  rfl

/-- Settles O20: the step of a write and of a read of a word of DBUF, and the four bytes of that word. -/
theorem dbufWindowLittleEndian : Obligations.DbufWindowLittleEndian := by
  unfold Obligations.DbufWindowLittleEndian
  intro s rest o a hr hp hal hsz ho
  have hal' : o.toNat % 4 = 0 := by omega
  have ht : s.targetAt o = .dbuf a := targetAt_dbuf ho (by omega)
  constructor
  · intro v hi
    refine ⟨_, step_write_dbuf hi hr hp hal' ht, fun j hj => dbufByte_memWrite_le32 _ a v hj,
      fun b hb => ?_, ?_, hp, rfl⟩
    · rw [dbufByte_memWrite_le32_outside _ a v hb]
      exact dbufByte_congr rfl rfl b
    · simp [State.sameRegisters]
  · intro hi
    exact ⟨_, step_read_dbuf hi hr hp hal' ht, fun j hj => extractLsb'_dbufWord s a hj⟩

end Sys2Proof.Machine

/-! SUPPORT. The checks of a command against the tables of the spec: its length predicate, its ranges and its
overlaps (spec/30_encoding.md R110, 40_primitives.md R171 to R174). -/

namespace Sys2Proof.Machine

/-! ## The commands and the tables -/

/-- The length predicate of HKDF_SHA512 in a context (R173). -/
theorem lengthOk_hkdfCommand (c : HkdfContext) (mode : Byte) (x : Operands) :
    (hkdfCommand c mode x).lengthOk = true ↔
      (reg x 1 = 32 ∨ reg x 1 = 64) ∧ reg x 3 ∈ contextOutLengths c := by
  simp [hkdfCommand]

/-- The check of each command's lengths decides its row of the table (R173). -/
theorem lengthOk_iff (i : Instr) (x : Operands) :
    (commandOf i x).lengthOk = true ↔ lengthPredicate x i := by
  cases i with
  | hkdfKeyIdentifier | hkdfPerFileEncKey | hkdfDirectKey _ | hkdfIvInoLblk64Key _ | hkdfDirhashKey
  | hkdfIvInoLblk32Key _ | hkdfInodeHashKey =>
    simp [commandOf, lengthOk_hkdfCommand, contextOutLengths, lengthPredicate]
  | nh => simp [commandOf, nhCommand, lengthPredicate, and_assoc]
  | xtsEnc => simp [commandOf, xtsEncCommand, xtsCommand, lengthPredicate]
  | xtsDec => simp [commandOf, xtsDecCommand, xtsCommand, lengthPredicate]
  | adiantumEnc => simp [commandOf, adiantumEncCommand, adiantumCommand, lengthPredicate]
  | adiantumDec => simp [commandOf, adiantumDecCommand, adiantumCommand, lengthPredicate]
  | cmacKdf => simp [commandOf, cmacKdfCommand, lengthPredicate]
  | hchacha12 | chacha12Xor | xchacha12Xor | xchacha12Stream | poly1305e | adiantumHash | aes256Enc
  | aes256Dec | aes256Cmac => exact iff_of_true rfl trivial

theorem lengthOk_eq_false_iff (i : Instr) (x : Operands) :
    (commandOf i x).lengthOk = false ↔ ¬ lengthPredicate x i := by
  rw [← lengthOk_iff, Bool.not_eq_true]

/-- The inputs of each command but for its data input are those of the table (R171). -/
theorem inputs_commandOf (i : Instr) (x : Operands) : (commandOf i x).inputs = plainInputsOf x i := by
  cases i <;> rfl

/-- The data input of each command is that of the table (R110). -/
theorem dataInput_commandOf (i : Instr) (x : Operands) :
    (commandOf i x).dataInput = dataInputOf x i := by
  cases i <;> rfl

/-- The output of each command is that of the table (R171). -/
theorem output_commandOf (i : Instr) (x : Operands) : (commandOf i x).output = outputOf x i := by
  cases i <;> rfl

/-- All ranges of a command are those of the tables (R171). -/
theorem ranges_commandOf (i : Instr) (x : Operands) : (commandOf i x).ranges = rangesOf x i := by
  rw [Command.ranges, inputs_commandOf, dataInput_commandOf, output_commandOf, rangesOf]

/-! ## The three checks, failing -/

/-- The range check fails when some range ends above DBUF_SIZE (R172). -/
theorem rangesFit_eq_false_iff (n : Nat) (c : Command) :
    c.rangesFit n = false ↔ ∃ r ∈ c.ranges, n < r.addr + r.size := by
  rw [← Bool.not_eq_true, rangesFit_iff]
  simp only [not_forall, not_le, exists_prop]

/-- Two ranges that are not disjoint are not empty, and each begins before the other ends (R174). -/
theorem not_disjoint_iff (r t : Range) :
    ¬ r.disjoint t ↔
      0 < r.size ∧ 0 < t.size ∧ r.addr < t.addr + t.size ∧ t.addr < r.addr + r.size := by
  unfold Range.disjoint
  omega

/-- The ALIAS check fails when the output meets a plain input, or a data input other than itself (R174). -/
theorem aliasOk_eq_false_iff (c : Command) :
    c.aliasOk = false ↔
      ∃ r, (r ∈ c.inputs ∨ (c.dataInput = some r ∧ r ≠ c.output)) ∧ ¬ c.output.disjoint r := by
  rw [← Bool.not_eq_true, aliasOk_iff, not_and_or]
  simp only [not_forall, not_or, exists_prop, Option.mem_toList, or_and_right,
    exists_or, and_assoc]

/-- A command raises LENGTH exactly when its check of the lengths fails. -/
theorem error_eq_length_iff (n : Nat) (c : Command) :
    c.error n = some .length ↔ c.lengthOk = false := by
  simp [error_eq_some_iff]

/-- A command raises RANGE exactly when its lengths are legal and a range does not fit. -/
theorem error_eq_range_iff (n : Nat) (c : Command) :
    c.error n = some .range ↔ c.lengthOk = true ∧ c.rangesFit n = false := by
  simp [error_eq_some_iff]

/-- A command raises ALIAS exactly when its lengths and ranges pass and its output overlaps an input. -/
theorem error_eq_aliasing_iff (n : Nat) (c : Command) :
    c.error n = some .aliasing ↔ c.lengthOk = true ∧ c.rangesFit n = true ∧ c.aliasOk = false := by
  simp [error_eq_some_iff]

/-! ## The obligations -/

/-- Settles O25: LENGTH is raised exactly when the check of the lengths fails, and that check decides the
table. -/
theorem lengthPredicates : Obligations.LengthPredicates := by
  unfold Obligations.LengthPredicates
  intro i x n
  rw [error_eq_length_iff, lengthOk_eq_false_iff]

/-- Settles O26: the ranges are the table's, and the range check is in exact integers. -/
theorem rangeRule : Obligations.RangeRule := by
  unfold Obligations.RangeRule
  refine ⟨fun n r => ⟨fits_iff n r, fun hempty => ?_⟩, fun i x n =>
    ⟨inputs_commandOf i x, dataInput_commandOf i x, output_commandOf i x, ?_, fun hacc => ?_⟩⟩
  · rw [fits_iff, hempty, Nat.add_zero]
  · rw [error_eq_range_iff, lengthOk_iff, rangesFit_eq_false_iff, ranges_commandOf]
  · obtain ⟨_, hfit, _⟩ := (error_eq_none_iff n _).mp hacc
    rw [← ranges_commandOf]
    exact hfit

/-- Settles O27: under legal lengths and ranges ALIAS is the failing of the ALIAS check. -/
theorem aliasRule : Obligations.AliasRule := by
  unfold Obligations.AliasRule
  refine fun i x n => ⟨dataInput_commandOf i x, fun hlen hfit => ?_⟩
  have hlen' : (commandOf i x).lengthOk = true := (lengthOk_iff i x).mpr hlen
  have hfit' : (commandOf i x).rangesFit n = true := by
    rw [rangesFit_iff, ranges_commandOf]
    exact hfit
  rw [error_eq_aliasing_iff, and_iff_right hlen', and_iff_right hfit', aliasOk_eq_false_iff,
    inputs_commandOf, dataInput_commandOf, output_commandOf]
  simp only [not_disjoint_iff]

end Sys2Proof.Machine

/-! SUPPORT. The decoder against the fields of a word, and the step of a CMD write in an idle engine without an
error (spec/30_encoding.md R100 to R107, 40_primitives.md R170). -/

namespace Sys2Proof.Machine

/-! ## The fields and the word -/

/-- The word of the fields of a word is the word (30_encoding.md R100). -/
theorem toWord_ofWord (w : Word32) : (Cmd32.ofWord w).toWord = w := by
  simp only [Cmd32.ofWord, Cmd32.toWord]
  rw [BitVec.extractLsb'_append_extractLsb'_eq_extractLsb' (show 24 = 16 + 8 from rfl),
    BitVec.extractLsb'_append_extractLsb'_eq_extractLsb' (show 16 = 11 + 5 from rfl),
    BitVec.extractLsb'_append_extractLsb'_eq_extractLsb' (show 11 = 8 + 3 from rfl),
    BitVec.extractLsb'_append_extractLsb'_eq_extractLsb' (show 8 = 0 + 8 from rfl)]
  exact BitVec.extractLsb'_eq_self

/-! ## What the decoder accepts -/

/-- A row of the opcode map has the fields of its opcode (R105). -/
theorem fields_of_plainInstr {op : BitVec 8} {i : Instr} (h : plainInstr op = some i) :
    i.fields = plainFields op := by
  unfold plainInstr at h
  split at h
  case h_16 => simp at h
  all_goals
    rename_i hop
    obtain rfl := Option.some.inj h
    exact congrArg plainFields (BitVec.eq_of_toNat_eq hop.symm)

/-- The opcode map leaves out the opcodes that are not assigned, and HKDF_SHA512 (R105, R106). -/
theorem plainInstr_eq_none_iff :
    ∀ op : BitVec 8, plainInstr op = none ↔ op ∉ assignedOpcodes ∨ op = opHkdfSha512 := by
  decide +kernel

theorem withoutMode_eq_ok_iff {mode : Byte} {i j : Instr} :
    withoutMode mode i = .ok j ↔ mode = 0 ∧ i = j := by
  unfold withoutMode
  split
  · rename_i h
    rw [Except.ok.injEq, and_iff_right h]
  · rename_i h
    exact iff_of_false nofun (fun hj => h hj.1)

theorem withoutMode_eq_error_iff {mode : Byte} {i : Instr} {e : DecodeError} :
    withoutMode mode i = .error e ↔ mode ≠ 0 ∧ .reservedField = e := by
  unfold withoutMode
  split
  · rename_i h
    exact iff_of_false nofun (fun hj => hj.1 h)
  · rename_i h
    rw [Except.error.injEq, and_iff_right h]

/-- The CTX of a word is one of eight (R107). -/
theorem ctx_cases : ∀ ctx : BitVec 3,
    ctx = 0 ∨ ctx = 1 ∨ ctx = 2 ∨ ctx = 3 ∨ ctx = 4 ∨ ctx = 5 ∨ ctx = 6 ∨ ctx = 7 := by
  decide

/-- A command of HKDF_SHA512 has the CTX and the MODE that it was decoded from (R107). -/
theorem fields_of_decodeHkdf {ctx : BitVec 3} {mode : Byte} {i : Instr}
    (h : decodeHkdf ctx mode = .ok i) :
    i.fields = { op := opHkdfSha512, ctx := ctx, res0 := 0, mode := mode, res1 := 0 } := by
  rcases ctx_cases ctx with rfl | rfl | rfl | rfl | rfl | rfl | rfl | rfl
  case inl => exact absurd h nofun
  case inr.inr.inr.inl | inr.inr.inr.inr.inl | inr.inr.inr.inr.inr.inr.inl =>
    obtain rfl := Except.ok.inj h
    rfl
  all_goals
    obtain ⟨rfl, rfl⟩ := withoutMode_eq_ok_iff.mp h
    rfl

/-- HKDF_SHA512 is refused for CTX 0, and for a MODE byte where the context takes none (R170 steps 6, 7). -/
theorem decodeHkdf_eq_error_iff {ctx : BitVec 3} {mode : Byte} {e : DecodeError} :
    decodeHkdf ctx mode = .error e ↔
      (ctx = 0 ∧ .illegalContext = e) ∨
      (ctx ≠ 0 ∧ ctx ∉ ([3, 4, 6] : List (BitVec 3)) ∧ mode ≠ 0 ∧ .reservedField = e) := by
  rcases ctx_cases ctx with rfl | rfl | rfl | rfl | rfl | rfl | rfl | rfl
  all_goals simp [decodeHkdf, withoutMode_eq_error_iff]

/-- The fields of a decoded command are those of the word. -/
theorem fields_of_decodeFields {f : Cmd32} {i : Instr} (h : decodeFields f = .ok i) : i.fields = f := by
  obtain ⟨op, ctx, res0, mode, res1⟩ := f
  unfold decodeFields at h
  dsimp only at h
  split at h
  · rename_i hop
    split at h
    · simp at h
    · rename_i hres
      obtain ⟨rfl, rfl⟩ : res0 = 0 ∧ res1 = 0 := by simpa using hres
      rw [hop]
      exact fields_of_decodeHkdf h
  · split at h
    · simp at h
    · rename_i j hj
      split at h
      · simp at h
      · rename_i hres
        split at h
        · simp at h
        · rename_i hlow
          obtain ⟨rfl, rfl⟩ : res0 = 0 ∧ res1 = 0 := by simpa using hres
          obtain ⟨rfl, rfl⟩ : ctx = 0 ∧ mode = 0 := by simpa using hlow
          rw [← Except.ok.inj h]
          exact fields_of_plainInstr hj

/-- Each word has at most one meaning: a command's word is the one it was decoded from. -/
theorem encode_eq_of_decode {w : Word32} {i : Instr} (h : decode w = .ok i) : encode i = w := by
  rw [encode, fields_of_decodeFields h, toWord_ofWord]

/-- The fields of a command are legal (R100, R107). -/
theorem wellFormed_fields (i : Instr) : i.fields.wellFormed = true := by
  cases i with
  | hkdfDirectKey mode => exact Laws.EncodesLegalFields.hkdfDirectKey mode
  | hkdfIvInoLblk64Key mode => exact Laws.EncodesLegalFields.hkdfIvInoLblk64Key mode
  | hkdfIvInoLblk32Key mode => exact Laws.EncodesLegalFields.hkdfIvInoLblk32Key mode
  | _ => rfl

/-- The decoder accepts legal fields only. -/
theorem wellFormed_of_decode {w : Word32} {i : Instr} (h : decode w = .ok i) :
    (Cmd32.ofWord w).wellFormed = true :=
  fields_of_decodeFields h ▸ wellFormed_fields i

/-- What legal fields are, condition by condition (R100, R105, R107). -/
theorem wellFormed_iff (f : Cmd32) :
    f.wellFormed = true ↔
      f.op ∈ assignedOpcodes ∧ (f.res0 = 0 ∧ f.res1 = 0) ∧
        (if f.op = opHkdfSha512 then f.ctx ≠ 0 else f.ctx = 0) ∧
        (f.mode = 0 ∨ (f.op = opHkdfSha512 ∧ f.ctx ∈ ([3, 4, 6] : List (BitVec 3)))) := by
  simp only [Cmd32.wellFormed, Cmd32.opAssigned, Cmd32.reservedZero, Cmd32.ctxLegal, Cmd32.modeLegal,
    Bool.and_eq_true, Bool.or_eq_true, List.contains_iff_mem, beq_iff_eq, and_assoc, or_assoc,
    Bool.ite_eq_true_distrib, bne_iff_ne, List.mem_cons, List.not_mem_nil, or_false]

/-! ## The first failing step -/

/-- An HKDF_SHA512 word that is no command fails a step on its reserved fields, its CTX or its MODE. -/
theorem firstFailingStep_of_hkdf_error {w : Word32} {e : DecodeError}
    (hop : (Cmd32.ofWord w).op = opHkdfSha512) (h : decode w = .error e) (n : Nat) (x : Operands) :
    firstFailingStep n x w = some (decodeErrorCode e) := by
  have hassigned : ¬ (Cmd32.ofWord w).op ∉ assignedOpcodes := by
    rw [hop]
    decide
  rw [decode, decodeFields, if_pos hop] at h
  unfold firstFailingStep
  dsimp only
  rw [if_neg hassigned]
  split at h
  · rename_i hres
    rw [if_pos hres, ← Except.error.inj h]
    rfl
  · rename_i hres
    rw [if_neg hres, if_neg (fun hc => hc.1 hop)]
    rcases decodeHkdf_eq_error_iff.mp h with ⟨hctx, rfl⟩ | ⟨hctx, hnone, hmode, rfl⟩
    · rw [if_pos ⟨hop, hctx⟩]
      rfl
    · rw [if_neg (fun hc => hctx hc.2), if_pos ⟨hop, hnone, hmode⟩]
      rfl

/-- Any other word that is no command fails the step on its opcode, its reserved fields, or its CTX and MODE. -/
theorem firstFailingStep_of_plain_error {w : Word32} {e : DecodeError}
    (hop : (Cmd32.ofWord w).op ≠ opHkdfSha512) (h : decode w = .error e) (n : Nat) (x : Operands) :
    firstFailingStep n x w = some (decodeErrorCode e) := by
  have hmap := plainInstr_eq_none_iff (Cmd32.ofWord w).op
  rw [or_iff_left hop] at hmap
  rw [decode, decodeFields, if_neg hop] at h
  unfold firstFailingStep
  dsimp only
  split at h
  · rename_i hnone
    rw [if_pos (hmap.mp hnone), ← Except.error.inj h]
    rfl
  · rename_i i hi
    have hassigned : ¬ (Cmd32.ofWord w).op ∉ assignedOpcodes := by simp [← hmap, hi]
    rw [if_neg hassigned]
    split at h
    · rename_i hres
      rw [if_pos hres, ← Except.error.inj h]
      rfl
    · rename_i hres
      rw [if_neg hres]
      split at h
      · rename_i hlow
        rw [if_pos ⟨hop, hlow⟩, ← Except.error.inj h]
        rfl
      · exact absurd h nofun

/-- A word that is no command fails the step of its decoding error (R170 steps 3 to 7). -/
theorem firstFailingStep_of_decode_error {w : Word32} {e : DecodeError} (h : decode w = .error e)
    (n : Nat) (x : Operands) : firstFailingStep n x w = some (decodeErrorCode e) := by
  by_cases hop : (Cmd32.ofWord w).op = opHkdfSha512
  · exact firstFailingStep_of_hkdf_error hop h n x
  · exact firstFailingStep_of_plain_error hop h n x

/-- The word of a command passes steps 3 to 7, and its first failing step is that of the command (R170). -/
theorem firstFailingStep_of_decode_ok {w : Word32} {i : Instr} (h : decode w = .ok i) (n : Nat)
    (x : Operands) : firstFailingStep n x w = (commandOf i x).error n := by
  obtain ⟨hop, ⟨hres0, hres1⟩, hctx, hmode⟩ := (wellFormed_iff _).mp (wellFormed_of_decode h)
  unfold firstFailingStep
  dsimp only
  rw [if_neg (not_not_intro hop), if_neg (by simp [hres0, hres1]), h]
  by_cases hhkdf : (Cmd32.ofWord w).op = opHkdfSha512
  · rw [if_pos hhkdf] at hctx
    rw [if_neg (fun hc => hc.1 hhkdf), if_neg (fun hc => hctx hc.2),
      if_neg (fun hc => hmode.elim hc.2.2 (fun hm => hc.2.1 hm.2))]
  · rw [if_neg hhkdf] at hctx
    have hmode' : (Cmd32.ofWord w).mode = 0 := hmode.resolve_right (fun hm => hhkdf hm.1)
    rw [if_neg (by simp [hctx, hmode']), if_neg (fun hc => hhkdf hc.1), if_neg (fun hc => hhkdf hc.1)]

/-! ## The step -/

/-- CMD stands at its offset (10_state.md R32). -/
theorem targetAt_cmdWrite (s : State) (w : Word32) : s.targetAt (cmdWrite w).offset = .cmd :=
  target_eq_cmd_iff.mpr rfl

/-- An idle engine without an error submits the word of a CMD write (10_state.md R38). -/
theorem step_cmdWrite {s : State} {rest : List Event} {w : Word32}
    (hi : s.inbox = .access (cmdWrite w) :: rest) (hr : s.resetInput = false) (hp : s.phase = .idle)
    (he : s.err = false) : step s = submitWord w (s.after rest (some .writeAck)) := by
  have hb : (s.after rest (some .writeAck)).busy = false := not_busy_iff.mpr hp
  have hserved : (cmdWrite w).served = true := by simp [served_iff, cmdWrite]
  rw [step_write hi hr hserved rfl, busWrite, targetAt_cmdWrite]
  simp only [writeCmd, hb, stateAfter_err, he, Bool.false_eq_true, if_false]

/-- Submission of a word that is no command (R170 steps 3 to 7). -/
theorem submitWord_of_decode_error {w : Word32} {e : DecodeError} (h : decode w = .error e) (s : State) :
    submitWord w s = .next ((s.takeWord w).withError (decodeErrorCode e) w) := by
  simp only [submitWord, h, refuseWord, raiseError_eq_withError]

/-- Submission of the word of a command in an idle engine without an error (R170 steps 8 to 11). -/
theorem submitWord_of_decode_ok {w : Word32} {i : Instr} {s : State} (h : decode w = .ok i)
    (hp : s.phase = .idle) (he : s.err = false) :
    submitWord w s = .next (submitCommand w (commandOf i s.operands) s) := by
  simp only [submitWord, h, exec_idle hp, he, encode_eq_of_decode h, Bool.false_eq_true, if_false]

/-- Submission of a word whose first failing step raises an error (R170). -/
theorem submitWord_refused {w : Word32} {s : State} {e : ErrorCode} (hp : s.phase = .idle)
    (he : s.err = false) (h : firstFailingStep s.dbufsz.toNat s.operands w = some e) :
    submitWord w s = .next ((s.takeWord w).withError e w) := by
  cases hd : decode w with
  | error d =>
    rw [firstFailingStep_of_decode_error hd, Option.some.injEq] at h
    rw [submitWord_of_decode_error hd, h]
  | ok i =>
    rw [firstFailingStep_of_decode_ok hd] at h
    rw [submitWord_of_decode_ok hd hp he, submitCommand_refused h]

/-- Submission of a word that passes every step (R170 step 11). -/
theorem submitWord_accepted {w : Word32} {s : State} (hp : s.phase = .idle) (he : s.err = false)
    (h : firstFailingStep s.dbufsz.toNat s.operands w = none) :
    submitWord w s =
      .next { s.takeWord w with phase := .busy { word := w, x := s.operands } } := by
  cases hd : decode w with
  | error d => simp [firstFailingStep_of_decode_error hd] at h
  | ok i =>
    rw [firstFailingStep_of_decode_ok hd] at h
    rw [submitWord_of_decode_ok hd hp he, submitCommand_accepted h]

/-- Settles O5: the step submits the word, and the first failing step decides the outcome. -/
theorem submissionReportsFirstFailingCheck : Obligations.SubmissionReportsFirstFailingCheck := by
  unfold Obligations.SubmissionReportsFirstFailingCheck
  intro s rest w hi hr hp he
  have hstep := step_cmdWrite hi hr hp he
  refine ⟨fun e hfail => ?_, fun hpass => ?_⟩
  · rw [hstep, submitWord_refused (s := s.after rest (some .writeAck)) hp he hfail]
    simp [State.withError, State.takeWord, State.after, he]
  · rw [hstep, submitWord_accepted (s := s.after rest (some .writeAck)) hp he hpass]
    rfl

end Sys2Proof.Machine

/-! SUPPORT. The encodings of numbers, byte by byte (spec/40_primitives.md R141 to R144). -/

namespace Sys2Proof.Machine

/-! ## The number of a string, from its bytes -/

/-- The number of a string with one more byte at its end. -/
theorem leNat_concat (s : Bytes) (b : Byte) :
    leNat (s ++ [b]) = leNat s ||| b.toNat <<< (8 * s.length) := by
  have hlt : leNat s < 2 ^ (8 * s.length) := by simpa [Nat.pow_mul] using leNat_lt s
  have hadd : leNat (s ++ [b]) = b.toNat <<< (8 * s.length) + leNat s := by
    clear hlt
    rw [Nat.shiftLeft_eq, Nat.pow_mul]
    induction s with
    | nil => simp [leNat]
    | cons c s ih =>
      rw [List.cons_append, leNat, ih, leNat, List.length_cons]
      ring
  rw [hadd, Nat.shiftLeft_add_eq_or_of_lt hlt, Nat.or_comm]

/-- A slice of n + 1 bytes is the slice of n bytes and the byte after it (00_scope.md R9). -/
theorem slice_succ {s : Bytes} {o n : Nat} (h : o + n < s.length) :
    slice s o (n + 1) = slice s o n ++ [s.getD (o + n) 0] := by
  rw [slice, List.take_add_one, List.getElem?_drop, List.getElem?_eq_getElem h, List.getD_eq_getElem _ _ h]
  rfl

/-- One more byte of a slice stands above the bits of those before it (R141). -/
theorem leNat_slice_succ {s : Bytes} {o n : Nat} (h : o + n < s.length) :
    leNat (slice s o (n + 1)) = leNat (slice s o n) ||| (s.getD (o + n) 0).toNat <<< (8 * n) := by
  have hlen : (slice s o n).length = n := by
    rw [length_slice]
    omega
  rw [slice_succ h, leNat_concat, hlen]

/-- The number of the first byte of a slice. -/
theorem leNat_slice_one {s : Bytes} {o : Nat} (h : o < s.length) :
    leNat (slice s o 1) = (s.getD o 0).toNat := by
  rw [slice_succ h]
  simp [slice, leNat]

/-- `le(s)` as the sum of its bytes at their places (00_scope.md R10). -/
theorem leNat_eq_sum (s : Bytes) :
    leNat s = ((List.range s.length).map fun i => (s.getD i 0).toNat * 2 ^ (8 * i)).sum := by
  induction s with
  | nil => rfl
  | cons b s ih =>
    have hshift : ∀ i, ((b :: s).getD (i + 1) 0).toNat * 2 ^ (8 * (i + 1)) =
        256 * ((s.getD i 0).toNat * 2 ^ (8 * i)) := fun i => by
      rw [List.getD_cons_succ]
      ring
    rw [leNat, ih, List.length_cons, List.range_succ_eq_map, List.map_cons, List.sum_cons,
      List.map_map, ← List.sum_map_mul_left]
    simp only [Function.comp_def, Nat.succ_eq_add_one, hshift, List.getD_cons_zero, Nat.mul_zero,
      Nat.pow_zero, Nat.mul_one]

/-! ## The bytes of an encoding, from its bits -/

/-- The byte whose bits stand from bit 8i on is the base-256 digit i (R142). -/
theorem ofNat_shiftRight_and (v i : Nat) :
    BitVec.ofNat 8 ((v >>> (8 * i)) &&& 0xFF) = BitVec.ofNat 8 (v / 256 ^ i) := by
  apply BitVec.eq_of_toNat_eq
  rw [BitVec.toNat_ofNat, BitVec.toNat_ofNat, Nat.shiftRight_eq_div_pow, Nat.pow_mul,
    show (0xFF : Nat) = 2 ^ 8 - 1 from rfl, Nat.and_two_pow_sub_one_eq_mod, Nat.mod_mod]

/-- Byte i of `LE_n(v)` is `(v >> 8i) & 0xFF` (R142). -/
theorem getElem?_leBytes_bits {n i : Nat} (v : Nat) (h : i < n) :
    (leBytes n v)[i]? = some (BitVec.ofNat 8 ((v >>> (8 * i)) &&& 0xFF)) := by
  rw [getElem?_leBytes v h, ofNat_shiftRight_and]

/-- The four bytes of `BE32(v)`, highest first (R143). -/
theorem be32_eq (v : Nat) :
    be32 v = [BitVec.ofNat 8 ((v >>> 24) &&& 0xFF), BitVec.ofNat 8 ((v >>> 16) &&& 0xFF),
      BitVec.ofNat 8 ((v >>> 8) &&& 0xFF), BitVec.ofNat 8 (v &&& 0xFF)] := by
  have h := ofNat_shiftRight_and v
  have h0 : BitVec.ofNat 8 (v &&& 0xFF) = BitVec.ofNat 8 v := by simpa using h 0
  rw [h 3, h 2, h 1, h0]
  simp [be32, beBytes, leBytes, Nat.div_div_eq_div_mul]

/-- The number of `a +128 b` (R144). -/
theorem leNat_add128 (a b : Bytes) : leNat (add128 a b) = (leNat a + leNat b) % 2 ^ 128 := by
  rw [add128, leNat_leBytes]
  omega

/-! ## The obligation -/

/-- Settles O54: each byte of a slice adds its bits above those before it, and byte i of an encoding is the
base-256 digit i. -/
theorem numberEncodings : Obligations.NumberEncodings := by
  unfold Obligations.NumberEncodings
  refine ⟨fun s o => ⟨fun h => ?_, fun h => ?_⟩, leNat_eq_sum, fun n v => ⟨length_leBytes n v, ?_,
    fun i => getElem?_leBytes_bits v⟩, fun v u => ⟨rfl, rfl⟩, be32_eq,
    fun a b _ _ => ⟨length_add128 a b, leNat_add128 a b⟩⟩
  · rw [toNat_le32At, leNat_slice_succ (by omega), leNat_slice_succ (by omega),
      leNat_slice_succ (by omega), leNat_slice_one (by omega)]
    rfl
  · rw [toNat_le64At, leNat_slice_succ (by omega), leNat_slice_succ (by omega),
      leNat_slice_succ (by omega), leNat_slice_succ (by omega), leNat_slice_succ (by omega),
      leNat_slice_succ (by omega), leNat_slice_succ (by omega), leNat_slice_one (by omega)]
    rfl
  · rw [leNat_leBytes, Nat.pow_mul]

end Sys2Proof.Machine

/-! SUPPORT. The tables SBOX and INV_SBOX against the arithmetic of GF(2^8) (spec/40_primitives.md R150, R151). -/

namespace Sys2Proof.Machine

/-- The affine map of the S-box (R151). -/
def sboxAffine (i : Byte) : Byte :=
  i ^^^ i.rotateLeft 1 ^^^ i.rotateLeft 2 ^^^ i.rotateLeft 3 ^^^ i.rotateLeft 4 ^^^ 0x63

/-- The affine map that undoes the one of the S-box. -/
def sboxAffineInv (t : Byte) : Byte :=
  t.rotateLeft 1 ^^^ t.rotateLeft 3 ^^^ t.rotateLeft 6 ^^^ 0x05

theorem sboxAffine_sboxAffineInv : ∀ t : Byte, sboxAffine (sboxAffineInv t) = t := by decide +kernel

/-- The inverse in GF(2^8) of a byte but 0, read off its entry in SBOX. -/
theorem gmul_sboxAffineInv_sbox : ∀ b : Byte, b ≠ 0 → gmul b (sboxAffineInv (sbox b)) = 1 := by
  decide +kernel

theorem invSbox_sbox : ∀ b : Byte, invSbox (sbox b) = b := by decide +kernel

/-- The left inverse INV_SBOX of SBOX is its right inverse too, because there are finitely many bytes. -/
theorem sbox_invSbox (b : Byte) : sbox (invSbox b) = b := by
  have hinv : Function.LeftInverse invSbox sbox := invSbox_sbox
  have hsurj : Function.Surjective sbox := Finite.injective_iff_surjective.mp hinv.injective
  exact hinv.rightInverse_of_surjective hsurj b

/-- Settles O53: the inverse of a byte is what the affine map of the S-box sends to its entry. -/
theorem sboxIsAffineInverse : Obligations.SboxIsAffineInverse := by
  unfold Obligations.SboxIsAffineInverse
  refine ⟨fun b => ⟨sboxAffineInv (sbox b), ?_, gmul_sboxAffineInv_sbox b,
    (sboxAffine_sboxAffineInv (sbox b)).symm⟩, fun b => ⟨invSbox_sbox b, sbox_invSbox b⟩⟩
  rintro rfl
  decide

end Sys2Proof.Machine

/-! SUPPORT. The lengths of what ChaCha12 computes (spec/41_chacha.md R200 to R205). -/

namespace Sys2Proof.Machine

/-! ## The permutation keeps the length of a state -/

@[simp] theorem length_chachaHalf (n a b d : Nat) (st : List Word32) :
    (chachaHalf n a b d st).length = st.length := by simp [chachaHalf]

@[simp] theorem length_quarterRound (a b c d : Nat) (st : List Word32) :
    (quarterRound a b c d st).length = st.length := by simp [quarterRound]

@[simp] theorem length_columnRound (st : List Word32) : (columnRound st).length = st.length := by
  simp [columnRound]

@[simp] theorem length_diagonalRound (st : List Word32) : (diagonalRound st).length = st.length := by
  simp [diagonalRound]

@[simp] theorem length_doubleRounds (n : Nat) (st : List Word32) :
    (doubleRounds n st).length = st.length := by
  induction n generalizing st with
  | zero => rfl
  | succ n ih => simp [doubleRounds, ih]

@[simp] theorem length_permute12 (st : List Word32) : (permute12 st).length = st.length :=
  length_doubleRounds 6 st

/-! ## The keystream -/

@[simp] theorem length_chachaInit (key iv : Bytes) : (chachaInit key iv).length = 16 := by
  simp [chachaInit, le32Words]

@[simp] theorem length_chachaNextBlock (st : List Word32) :
    (chachaNextBlock st).length = st.length := by
  unfold chachaNextBlock
  dsimp only
  split <;> simp

theorem length_flatMap_le32 (ws : List Word32) : (ws.flatMap le32).length = 4 * ws.length := by
  simp [List.length_flatMap, Nat.mul_comm]

/-- A block holds four bytes for every word of its state (R204). -/
@[simp] theorem length_chachaBlock (st : List Word32) : (chachaBlock st).length = 4 * st.length := by
  rw [chachaBlock, length_flatMap_le32, List.length_zipWith, length_permute12, Nat.min_self]

/-- The counter keeps the length of the state, so all the blocks are of one length. -/
@[simp] theorem length_chachaBlocks (n : Nat) (st : List Word32) :
    (chachaBlocks n st).length = n * (4 * st.length) := by
  induction n generalizing st with
  | zero => simp [chachaBlocks]
  | succ n ih => simp [chachaBlocks, ih, Nat.succ_mul, Nat.add_comm]

/-- Enough 64-byte blocks are made for the n bytes asked for (R204). -/
@[simp] theorem length_chacha12Stream (key iv : Bytes) (n : Nat) :
    (chacha12Stream key iv n).length = n := by
  have hblocks : n ≤ ceilDiv n 64 * 64 := by
    unfold ceilDiv
    omega
  simpa [chacha12Stream] using hblocks

@[simp] theorem length_xchacha12Stream (key nonce : Bytes) (n : Nat) :
    (xchacha12Stream key nonce n).length = n := length_chacha12Stream _ _ n

/-! ## The obligation -/

/-- Settles O57: each stream is as long as the message, so exclusive-or with it a second time takes it off
every byte. -/
theorem xorStreamSelfInverse : Obligations.XorStreamSelfInverse := by
  unfold Obligations.XorStreamSelfInverse
  intro key nonce p
  exact ⟨xorBytes_cancel (length_xchacha12Stream key nonce p.length).ge,
    xorBytes_cancel (length_chacha12Stream key nonce p.length).ge⟩

end Sys2Proof.Machine

/-! SUPPORT. The two resets and the error state: the step of a software reset, and what keeps ERR at 1
(spec/70_reset_and_hazards.md R380, R381, 60_exceptions.md R353). -/

namespace Sys2Proof.Machine

/-! ## The reset state -/

/-- A reset gives every register, the phase and DBUF their values after reset (10_state.md R45). -/
theorem atReset_resetEngine (s : State) : s.resetEngine.atReset := by
  refine ⟨rfl, rfl, rfl, rfl, rfl, rfl, rfl, fun i => ?_, fun _ => rfl, rfl⟩
  rw [resetEngine_operands]
  simp [Vector.get]

@[simp] theorem ctrlWord_resetEngine (s : State) : s.resetEngine.ctrlWord = 0 := by
  simp [State.ctrlWord]

@[simp] theorem irq_resetEngine (s : State) : s.resetEngine.irq = false := rfl

/-- The reset input, driven to a level, resets the engine or leaves it as it is (R380; log 9). -/
theorem driveReset_cases (b : Bool) (s : State) :
    ((b = true ∨ s.resetInput = true) ∧
      driveReset b s = { s with resetInput := b }.resetEngine) ∨
    (b = false ∧ s.resetInput = false ∧ driveReset b s = s) := by
  unfold driveReset
  by_cases h : b = true ∨ s.resetInput = true
  · exact .inl ⟨h, if_pos (by simpa using h)⟩
  · obtain ⟨hb, hr⟩ := not_or.mp h
    exact .inr ⟨by simpa using hb, by simpa using hr, if_neg (by simpa using h)⟩

/-! ## The CTRL register -/

/-- CTRL is at offset 0x08 and nowhere else (10_state.md R32). -/
theorem target_eq_ctrl_iff {n : Nat} {o : BitVec 17} : target n o = .ctrl ↔ o = 0x00008 := by
  constructor
  · intro h
    apply BitVec.eq_of_toNat_eq
    unfold target at h
    dsimp only at h
    split at h
    · split at h <;> simp at h
    · split at h
      · simp at h
      · unfold fixedTarget at h
        split at h <;> simp_all
  · rintro rfl
    exact target_low (by decide)

/-- A served write at an offset is the aligned word write there. -/
theorem eq_mmioWrite {a : Access} {v : Word32} (ha : a.served = true) (hk : a.kind = .write v) :
    a = mmioWrite a.offset v := by
  obtain ⟨o, w, k⟩ := a
  obtain ⟨rfl, -⟩ := (served_iff _).mp ha
  cases hk
  rfl

/-- A CTRL write with bit 31 is acknowledged and resets the engine, in every phase (R381). -/
theorem step_write_srst {s : State} {rest : List Event} {v : Word32}
    (hi : s.inbox = .access (mmioWrite 0x00008 v) :: rest) (hr : s.resetInput = false)
    (hv : v.getLsbD 31 = true) : step s = .next (s.after rest (some .writeAck)).resetEngine := by
  have hserved : (mmioWrite 0x00008 v).served = true := by simp [served_iff, mmioWrite]
  have ht : (s.after rest (some .writeAck)).targetAt 0x00008 = .ctrl := target_eq_ctrl_iff.mpr rfl
  rw [step_write hi hr hserved rfl]
  simp only [busWrite, mmioWrite, ht, writeTarget, writeCtrl, hv, if_true]

/-! ## The error state -/

/-- A write of anything but CMD keeps ERR at 1, unless it writes CTRL with bit 31. -/
theorem writeTarget_keeps_err {o : BitVec 17} {t : Target} {v : Word32} {s : State}
    (he : s.err = true) :
    (writeTarget o t v s).err = true ∨ (t = .ctrl ∧ v.getLsbD 31 = true) := by
  rcases writeTarget_cases o t v s with ⟨ht, hv, -⟩ | ⟨-, -, hw⟩ | ⟨-, hw⟩ | ⟨-, -, hw⟩ |
    ⟨i, -, -, hw⟩ | ⟨a, -, -, hw⟩ | ⟨-, hw⟩
  · exact .inr ⟨ht, hv⟩
  all_goals
    left
    rw [hw]
    simp [he]

/-- In the error state every move keeps ERR at 1, but for one that an event which resets the engine
brings about (60_exceptions.md R353). -/
theorem moves_keeps_err {s t : State} (h : Moves s t) (he : s.err = true) :
    t.err = true ∨ s.resetsNext := by
  cases h with
  | waits | turnsIdle | drops | rejects | ignores | completes => exact .inl he
  | violates => exact .inl rfl
  | reads rest a =>
    obtain ⟨v, n, hread⟩ := busRead_eq a.offset (s.after rest none)
    exact .inl (hread ▸ he)
  | resets rest b hi =>
    rcases driveReset_cases b (s.after rest none) with ⟨hreset, -⟩ | ⟨-, -, hkept⟩
    · exact .inr (.inl ⟨b, rest, hi, hreset⟩)
    · rw [hkept]
      exact .inl he
  | writes rest a v hi hr ha hk =>
    have he' : (s.after rest (some .writeAck)).err = true := he
    rcases writeTarget_keeps_err (o := a.offset) (v := v) he' with hkept | ⟨ht, hv⟩
    · exact .inl hkept
    · rw [eq_mmioWrite ha hk, target_eq_ctrl_iff.mp ht] at hi
      exact .inr (.inr ⟨v, rest, hi, hr, hv⟩)
  | refusesWord | refusesCommand | accepts => exact absurd he (ne_true_of_eq_false ‹s.err = false›)

/-- Settles O10: the step of the CTRL write is the reset, and a step that leaves the error state is a move
that does not keep ERR at 1. -/
theorem softwareResetAtCtrlWrite : Obligations.SoftwareResetAtCtrlWrite := by
  unfold Obligations.SoftwareResetAtCtrlWrite
  constructor
  · intro s rest v hi hr hv
    exact ⟨_, step_write_srst hi hr hv, atReset_resetEngine _, ctrlWord_resetEngine _,
      irq_resetEngine _, rfl, rfl, hr, rfl, rfl, rfl, rfl⟩
  · intro s t hstep he hcleared
    exact (moves_keeps_err (step_moves hstep) he).resolve_left (by simp [hcleared])

end Sys2Proof.Machine

/-! SUPPORT. The decoder undoes the encoder, and accepts every word whose fields are legal
(spec/30_encoding.md R100 to R107). -/

namespace Sys2Proof.Machine

/-! ## From the fields to the word and back -/

/-- The fields of the word of some fields are those fields, bit by bit (30_encoding.md R100). -/
theorem ofWord_toWord (f : Cmd32) : Cmd32.ofWord f.toWord = f := by
  obtain ⟨op, ctx, res0, mode, res1⟩ := f
  simp only [Cmd32.ofWord, Cmd32.toWord, Cmd32.mk.injEq]
  refine ⟨?_, ?_, ?_, ?_, ?_⟩
  all_goals
    ext k hk
    simp only [BitVec.getElem_extractLsb', BitVec.getLsbD_append]
    grind

theorem ofWord_encode (i : Instr) : Cmd32.ofWord (encode i) = i.fields := ofWord_toWord i.fields

/-- Every arm of the opcode map and of the context map is read back from its fields (R105, R107). -/
theorem decodeFields_fields (i : Instr) : decodeFields i.fields = .ok i := by
  cases i <;> rfl

/-- Decoding the encoding of a command gives the command back. -/
@[simp] theorem decode_encode (i : Instr) : decode (encode i) = .ok i := by
  rw [decode, ofWord_encode, decodeFields_fields]

/-! ## Legal fields are decoded -/

/-- Legal fields of HKDF_SHA512 are a command (R107). -/
theorem exists_decodeHkdf_eq_ok {ctx : BitVec 3} {mode : Byte} (hctx : ctx ≠ 0)
    (hmode : mode = 0 ∨ ctx ∈ ([3, 4, 6] : List (BitVec 3))) : ∃ i, decodeHkdf ctx mode = .ok i := by
  cases h : decodeHkdf ctx mode with
  | ok i => exact ⟨i, rfl⟩
  | error e =>
    rcases decodeHkdf_eq_error_iff.mp h with ⟨h0, -⟩ | ⟨-, hnone, hne, -⟩
    · exact absurd h0 hctx
    · exact absurd hmode (not_or.mpr ⟨hne, hnone⟩)

/-- Legal fields are a command (R100, R105, R107). -/
theorem exists_decodeFields_eq_ok {f : Cmd32} (h : f.wellFormed = true) :
    ∃ i, decodeFields f = .ok i := by
  obtain ⟨hop, ⟨hres0, hres1⟩, hctx, hmode⟩ := (wellFormed_iff f).mp h
  have hres : ¬ (f.res0 ≠ 0 ∨ f.res1 ≠ 0) := by simp [hres0, hres1]
  unfold decodeFields
  by_cases hhkdf : f.op = opHkdfSha512
  · rw [if_pos hhkdf] at hctx
    rw [if_pos hhkdf, if_neg hres]
    exact exists_decodeHkdf_eq_ok hctx (hmode.imp_right And.right)
  · rw [if_neg hhkdf] at hctx
    have hmode' : f.mode = 0 := hmode.resolve_right fun hm => hhkdf hm.1
    have hplain : plainInstr f.op ≠ none := fun hnone =>
      ((plainInstr_eq_none_iff f.op).mp hnone).elim (· hop) hhkdf
    obtain ⟨i, hi⟩ := Option.ne_none_iff_exists'.mp hplain
    rw [if_neg hhkdf, hi]
    exact ⟨i, by simp [hres0, hres1, hctx, hmode']⟩

/-! ## The obligations -/

/-- Settles O1: the fields of a command are read back from its word and are legal. -/
theorem decodeOfEncode : Obligations.DecodeOfEncode := by
  unfold Obligations.DecodeOfEncode
  exact fun i => ⟨decode_encode i, ofWord_encode i ▸ wellFormed_fields i⟩

/-- Settles O2: the fields of a decoded command are those of the word. -/
theorem encodeOfDecode : Obligations.EncodeOfDecode := by
  unfold Obligations.EncodeOfDecode
  exact fun _ _ => encode_eq_of_decode

/-- Settles O3: a decoded command has legal fields, and no legal field makes the decoder refuse. -/
theorem decodeAcceptsExactlyWellFormed : Obligations.DecodeAcceptsExactlyWellFormed := by
  unfold Obligations.DecodeAcceptsExactlyWellFormed
  exact fun w => ⟨fun ⟨_, hi⟩ => wellFormed_of_decode hi, exists_decodeFields_eq_ok⟩

/-- Settles O4: the words are the encodings of the five commands, and each refused word fails its step. -/
theorem decodeWordsOfTheSpec : Obligations.DecodeWordsOfTheSpec := by
  unfold Obligations.DecodeWordsOfTheSpec
  exact ⟨decode_encode .xchacha12Xor, decode_encode .xtsEnc, decode_encode .hkdfKeyIdentifier,
    decode_encode (.hkdfIvInoLblk64Key 0x01), decode_encode (.hkdfDirectKey 0x09), rfl, rfl, rfl⟩

end Sys2Proof.Machine

/-! SUPPORT. The step of each kind of host access: reads, writes while BUSY and while IDLE, CMD writes
(spec/10_state.md R32 to R42, 20_memory.md R71 to R75, 60_exceptions.md R347). -/

namespace Sys2Proof.Machine

/-! ## The register map, on the fixed offsets -/

theorem targetAt_id (s : State) : s.targetAt 0x00000 = .id := target_low (by decide)
theorem targetAt_dbufsz (s : State) : s.targetAt 0x00004 = .dbufsz := target_low (by decide)
theorem targetAt_ctrl (s : State) : s.targetAt 0x00008 = .ctrl := target_low (by decide)
theorem targetAt_status (s : State) : s.targetAt 0x0000C = .status := target_low (by decide)
theorem targetAt_cmd (s : State) : s.targetAt 0x00010 = .cmd := target_low (by decide)
theorem targetAt_errcode (s : State) : s.targetAt 0x00014 = .errcode := target_low (by decide)
theorem targetAt_errinfo (s : State) : s.targetAt 0x00018 = .errinfo := target_low (by decide)

theorem targetAt_operandOffset (s : State) (i : Fin 8) :
    s.targetAt (operandOffset i) = .operand i := target_operandOffset i

theorem toNat_operandOffset (i : Fin 8) : (operandOffset i).toNat = 0x20 + 4 * i.val := by
  have := i.isLt
  simp only [operandOffset, BitVec.toNat_ofNat]
  omega

theorem operandOffset_aligned (i : Fin 8) : (operandOffset i).toNat % 4 = 0 := by
  rw [toNat_operandOffset]
  omega

/-- The targets whose write while BUSY is a violation (60_exceptions.md R347). -/
def Target.guarded : Target → Bool
  | .cmd | .operand _ | .dbuf _ | .dbufBeyond => true
  | .id | .dbufsz | .ctrl | .status | .errcode | .errinfo | .reserved => false

theorem guarded_fixedTarget_iff (o : Nat) : (fixedTarget o).guarded = true ↔ o = 0x10 := by
  unfold fixedTarget
  split <;> simp_all [Target.guarded]

/-- The guarded targets stand at the violation offsets (R347). -/
theorem guarded_target_iff {n : Nat} {o : BitVec 17} (hal : o.toNat % 4 = 0) :
    (target n o).guarded = true ↔ violationOffset o.toNat := by
  have hlt := o.isLt
  unfold violationOffset
  by_cases hlow : o.toNat < 0x20
  · rw [target_low hlow, guarded_fixedTarget_iff]
    omega
  · by_cases hop : o.toNat < 0x40
    · rw [target_operand (by omega) hop]
      exact iff_of_true rfl (by omega)
    · by_cases hres : o.toNat < 0x10000
      · rw [target_reserved (by omega) hres]
        exact iff_of_false nofun (by omega)
      · by_cases hin : o.toNat < 0x10000 + n
        · rw [target_dbuf (by omega) hin]
          exact iff_of_true rfl (by omega)
        · rw [target_dbufBeyond (by omega) (by omega)]
          exact iff_of_true rfl (by omega)

/-- STATUS is at offset 0x0C and nowhere else (10_state.md R32). -/
theorem target_eq_status_iff {n : Nat} {o : BitVec 17} : target n o = .status ↔ o = 0x0000C := by
  constructor
  · intro h
    apply BitVec.eq_of_toNat_eq
    unfold target at h
    dsimp only at h
    split at h
    · split at h <;> simp at h
    · split at h
      · simp at h
      · unfold fixedTarget at h
        split at h <;> simp_all
  · rintro rfl
    exact target_low (by decide)

/-- Ai stands at its own offset and at no other multiple of 4 (10_state.md R32). -/
theorem eq_operandOffset {n : Nat} {o : BitVec 17} {i : Fin 8} (hal : o.toNat % 4 = 0)
    (h : target n o = .operand i) : o = operandOffset i := by
  unfold target at h
  dsimp only at h
  split at h
  · split at h <;> simp at h
  · split at h
    · simp only [Target.operand.injEq] at h
      apply BitVec.eq_of_toNat_eq
      rw [toNat_operandOffset, ← h]
      simp only [Fin.ofNat]
      omega
    · unfold fixedTarget at h
      split at h <;> simp at h

/-! ## Reads -/

theorem served_mmioRead {o : BitVec 17} (hal : o.toNat % 4 = 0) : (mmioRead o).served = true :=
  (served_iff _).mpr ⟨rfl, hal⟩

theorem served_mmioWrite {o : BitVec 17} {v : Word32} (hal : o.toNat % 4 = 0) :
    (mmioWrite o v).served = true :=
  (served_iff _).mpr ⟨rfl, hal⟩

@[simp] theorem readTarget_after (s : State) (rest : List Event) (r : Option BusResponse) (t : Target) :
    (s.after rest r).readTarget t = s.readTarget t := by
  cases t <;> rfl

@[simp] theorem targetAt_after (s : State) (rest : List Event) (r : Option BusResponse)
    (o : BitVec 17) : (s.after rest r).targetAt o = s.targetAt o := rfl

@[simp] theorem busy_after (s : State) (rest : List Event) (r : Option BusResponse) :
    (s.after rest r).busy = s.busy := rfl

/-- An aligned word read returns what stands at the offset, unless it reads DBUF while BUSY (R75). -/
theorem step_mmioRead {s : State} {rest : List Event} {o : BitVec 17}
    (hi : s.inbox = .access (mmioRead o) :: rest) (hr : s.resetInput = false)
    (hal : o.toNat % 4 = 0) (h : s.phase = .idle ∨ (s.targetAt o).isDbuf = false) :
    step s = .next (s.after rest (some (.readData (s.readTarget (s.targetAt o))))) := by
  have hcond : (s.busy && (s.targetAt o).isDbuf) = false := by
    rw [Bool.and_eq_false_iff, not_busy_iff]
    exact h
  rw [step_read hi hr (served_mmioRead hal) rfl]
  simp only [mmioRead, busRead, targetAt_after, busy_after, hcond, readTarget_after]
  rfl

/-- A read of DBUF while BUSY returns the next draw (20_memory.md R74; log 5). -/
theorem step_mmioRead_draw {s : State} {rest : List Event} {o : BitVec 17} {l : Latch}
    (hi : s.inbox = .access (mmioRead o) :: rest) (hr : s.resetInput = false)
    (hal : o.toNat % 4 = 0) (hp : s.phase = .busy l) (ht : (s.targetAt o).isDbuf = true) :
    step s = .next { s with
      inbox := rest, response := some (.readData (Config.busyReadDraw s.drawCount)),
      drawCount := s.drawCount + 1 } := by
  have hb : s.busy = true := busy_iff.mpr ⟨l, hp⟩
  rw [step_read hi hr (served_mmioRead hal) rfl]
  simp only [mmioRead, busRead, targetAt_after, busy_after, hb, ht, Bool.and_self, if_true]
  rfl

/-- Only the DBUF window below DBUF_SIZE is read as DBUF (10_state.md R40, R42). -/
theorem isDbuf_targetAt_iff {s : State} {o : BitVec 17} :
    (s.targetAt o).isDbuf = true ↔ 0x10000 ≤ o.toNat ∧ o.toNat < 0x10000 + s.dbufsz.toNat := by
  constructor
  · intro h
    cases ht : s.targetAt o with
    | dbuf a =>
      have := target_eq_dbuf ht
      omega
    | _ => simp [ht, Target.isDbuf] at h
  · rintro ⟨hlo, hhi⟩
    rw [State.targetAt, target_dbuf hlo hhi]
    rfl

/-! ## Writes -/

/-- An aligned word write of anything but CMD is performed on what stands at the offset. -/
theorem step_mmioWrite {s : State} {rest : List Event} {o : BitVec 17} {v : Word32}
    (hi : s.inbox = .access (mmioWrite o v) :: rest) (hr : s.resetInput = false)
    (hal : o.toNat % 4 = 0) (ht : s.targetAt o ≠ .cmd) :
    step s = .next (writeTarget o (s.targetAt o) v (s.after rest (some .writeAck))) := by
  rw [step_write hi hr (served_mmioWrite hal) rfl]
  simp only [busWrite, mmioWrite, targetAt_after]

/-- A write to CMD (10_state.md R38). -/
theorem step_write_cmd {s : State} {rest : List Event} {w : Word32}
    (hi : s.inbox = .access (cmdWrite w) :: rest) (hr : s.resetInput = false) :
    step s = writeCmd 0x00010 w (s.after rest (some .writeAck)) := by
  rw [step_write hi hr (served_mmioWrite (by decide)) rfl, busWrite, targetAt_cmdWrite]
  rfl

/-- A write of a guarded target while BUSY is ignored and raises BUSY_VIOLATION (R347). -/
theorem step_write_guarded {s : State} {rest : List Event} {o : BitVec 17} {v : Word32} {l : Latch}
    (hi : s.inbox = .access (mmioWrite o v) :: rest) (hr : s.resetInput = false)
    (hal : o.toNat % 4 = 0) (hp : s.phase = .busy l) (hg : (s.targetAt o).guarded = true) :
    step s =
      .next ((s.after rest (some .writeAck)).withError .busyViolation (o.setWidth 32)) := by
  have hb : s.busy = true := busy_iff.mpr ⟨l, hp⟩
  rw [step_write hi hr (served_mmioWrite hal) rfl]
  cases ht : s.targetAt o with
  | cmd =>
    simp only [busWrite, mmioWrite, targetAt_after, ht, writeCmd, busy_after, hb, if_true,
      busyViolation, raiseError_eq_withError]
  | operand _ | dbuf _ | dbufBeyond =>
    simp only [busWrite, mmioWrite, targetAt_after, ht, writeTarget, busy_after, hb, if_true,
      busyViolation, raiseError_eq_withError]
  | id | dbufsz | ctrl | status | errcode | errinfo | reserved => simp [ht, Target.guarded] at hg

/-- The targets that ignore a write, in every phase (10_state.md R33, R34, R42). -/
theorem writeTarget_ignored {o : BitVec 17} {t : Target} {v : Word32} {s : State}
    (hg : t.guarded = false) (hc : t ≠ .ctrl) (hs : t ≠ .status) : writeTarget o t v s = s := by
  cases t with
  | ctrl => exact absurd rfl hc
  | status => exact absurd rfl hs
  | cmd | operand _ | dbuf _ | dbufBeyond => simp [Target.guarded] at hg
  | id | dbufsz | errcode | errinfo | reserved => rfl

/-- A write of a target that ignores it is acknowledged and does nothing else (log 8). -/
theorem step_write_ignored {s : State} {rest : List Event} {o : BitVec 17} {v : Word32}
    (hi : s.inbox = .access (mmioWrite o v) :: rest) (hr : s.resetInput = false)
    (hal : o.toNat % 4 = 0) (hg : (s.targetAt o).guarded = false) (hc : s.targetAt o ≠ .ctrl)
    (hs : s.targetAt o ≠ .status) : step s = .next (s.after rest (some .writeAck)) := by
  have hcmd : s.targetAt o ≠ .cmd := fun h => by simp [h, Target.guarded] at hg
  rw [step_mmioWrite hi hr hal hcmd, writeTarget_ignored hg hc hs]

/-- A write to CTRL without bit 31 sets the two enables (10_state.md R36). -/
theorem step_write_ctrl {s : State} {rest : List Event} {v : Word32}
    (hi : s.inbox = .access (mmioWrite 0x00008 v) :: rest) (hr : s.resetInput = false)
    (hv : v.getLsbD 31 = false) :
    step s = .next { s with
      inbox := rest, response := some .writeAck, doneIe := v.getLsbD 0, errIe := v.getLsbD 1 } := by
  rw [step_mmioWrite hi hr (by decide) (targetAt_ctrl s ▸ nofun), targetAt_ctrl, writeTarget, writeCtrl,
    hv]
  rfl

/-- A write to STATUS clears DONE when bit 1 is written 1 (10_state.md R37). -/
theorem step_write_status {s : State} {rest : List Event} {v : Word32}
    (hi : s.inbox = .access (mmioWrite 0x0000C v) :: rest) (hr : s.resetInput = false) :
    step s = .next { s with
      inbox := rest, response := some .writeAck,
      done := if v.getLsbD 1 = true then false else s.done } := by
  rw [step_mmioWrite hi hr (by decide) (targetAt_status s ▸ nofun), targetAt_status, writeTarget,
    writeStatus]
  split <;> rfl

/-- A write of an operand register in phase IDLE (10_state.md R35). -/
theorem step_write_operand {s : State} {rest : List Event} {i : Fin 8} {v : Word32}
    (hi : s.inbox = .access (mmioWrite (operandOffset i) v) :: rest) (hr : s.resetInput = false)
    (hp : s.phase = .idle) :
    step s = .next (writeOperand i v (s.after rest (some .writeAck))) := by
  have hb : s.busy = false := not_busy_iff.mpr hp
  rw [step_mmioWrite hi hr (operandOffset_aligned i) (targetAt_operandOffset s i ▸ nofun),
    targetAt_operandOffset, writeTarget, busy_after, hb]
  rfl

/-! ## CMD writes and the engine's turn -/

/-- A CMD write in the error state is ignored, in every phase (10_state.md R38; log 8). -/
theorem step_cmdWrite_ignored {s : State} {rest : List Event} {w : Word32}
    (hi : s.inbox = .access (cmdWrite w) :: rest) (hr : s.resetInput = false) (he : s.err = true) :
    step s = .next (s.after rest (some .writeAck)) := by
  rw [step_write_cmd hi hr, writeCmd, busy_after]
  split
  · rw [busyViolation, raiseError_eq_withError]
    simp [State.withError, State.after, he]
  · rw [stateAfter_err, he, if_pos rfl]

/-- The CMD write of a command's word in phase IDLE runs the command (log 1, log 3). -/
theorem step_cmdWrite_exec {s : State} {rest : List Event} {w : Word32} {i : Instr}
    (hi : s.inbox = .access (cmdWrite w) :: rest) (hr : s.resetInput = false) (hp : s.phase = .idle)
    (hd : decode w = .ok i) : step s = exec i (s.after rest (some .writeAck)) := by
  cases he : s.err with
  | true =>
    have hp' : (s.after rest (some .writeAck)).phase = .idle := hp
    rw [step_cmdWrite_ignored hi hr he, exec_idle hp', stateAfter_err, he, if_pos rfl]
  | false => simp only [step_cmdWrite hi hr hp he, submitWord, hd]

/-- The engine's turn runs the latched command (40_primitives.md R176). -/
theorem engineTurn_exec {s : State} {l : Latch} {i : Instr} (hp : s.phase = .busy l)
    (hd : decode l.word = .ok i) : engineTurn s = exec i s := by
  simp only [engineTurn, hp, hd]

/-! ## The obligations -/

/-- Settles O6: an idle engine submits the word, or ignores it while ERR is 1, and so does `exec`. -/
theorem cmdWriteStepRunsDecodedCommand : Obligations.CmdWriteStepRunsDecodedCommand := by
  unfold Obligations.CmdWriteStepRunsDecodedCommand
  exact fun s rest w i hi hr hp hd => step_cmdWrite_exec hi hr hp hd

/-- Settles O7: with an empty inbox and with a turn in it, the step is the engine's turn. -/
theorem engineTurnRunsLatchedCommand : Obligations.EngineTurnRunsLatchedCommand := by
  unfold Obligations.EngineTurnRunsLatchedCommand
  rintro s rest l i (⟨hi, rfl⟩ | hi) hp hd
  · rw [step_nil hi]
    exact engineTurn_exec hp hd
  · rw [step_engineTurn hi]
    exact engineTurn_exec hp hd

/-- Settles O8: the placed CMD write is the next event of an idle engine. -/
theorem fetchWordRunsItsCommand : Obligations.FetchWordRunsItsCommand := by
  unfold Obligations.FetchWordRunsItsCommand
  intro s i
  have hw : s.withFetchWord 32 (encode i).toNat = s.placeCmdWrite (encode i) := by
    rw [State.withFetchWord, Nat.mod_eq_of_lt (encode i).isLt, BitVec.ofNat_toNat, BitVec.setWidth_eq]
  rw [hw, step_cmdWrite_exec rfl rfl rfl (decode_encode i)]
  rfl

/-- Settles O19: an access that is not served gets a bus error. -/
theorem unservedAccessGetsBusError : Obligations.UnservedAccessGetsBusError := by
  unfold Obligations.UnservedAccessGetsBusError
  intro s rest a hi hr ha
  refine step_access_rejected hi hr (Bool.not_eq_true _ ▸ mt (served_iff a).mp ?_)
  exact fun ⟨hw, hal⟩ => ha.elim (· hw) (· hal)

/-- Settles O14: the steps of the two writes; the line is `irq` of the state after. -/
theorem ctrlAndStatusWrites : Obligations.CtrlAndStatusWrites := by
  unfold Obligations.CtrlAndStatusWrites
  refine fun s rest v hr => ⟨fun hi hv => ⟨_, step_write_ctrl hi hr hv, rfl, ?_⟩,
    fun hi => step_write_status hi hr⟩
  simp [State.irq]

theorem getLsbD_ctrlWord (s : State) (k : Nat) :
    s.ctrlWord.getLsbD k = if k = 0 then s.doneIe else if k = 1 then s.errIe else false := by
  change @BitVec.getLsbD (30 + 1 + 1) (0#30 ++ BitVec.ofBool s.errIe ++ BitVec.ofBool s.doneIe) k = _
  rw [BitVec.getLsbD_append, BitVec.getLsbD_append]
  rcases k with _ | _ | k <;> simp

theorem busy_eq_decide (s : State) : s.busy = decide (s.phase ≠ .idle) := by
  unfold State.busy
  cases s.phase <;> simp

theorem getLsbD_statusWord (s : State) (k : Nat) :
    s.statusWord.getLsbD k =
      if k = 0 then decide (s.phase ≠ .idle)
      else if k = 1 then s.done
      else if k = 2 then s.err
      else if k = 3 then (s.doneIe && s.done) || (s.errIe && s.err)
      else false := by
  rw [← busy_eq_decide]
  change @BitVec.getLsbD (28 + 1 + 1 + 1 + 1) (0#28 ++ BitVec.ofBool s.irq ++ BitVec.ofBool s.err ++
    BitVec.ofBool s.done ++ BitVec.ofBool s.busy) k = _
  rw [BitVec.getLsbD_append, BitVec.getLsbD_append, BitVec.getLsbD_append, BitVec.getLsbD_append]
  rcases k with _ | _ | _ | _ | k <;> simp [State.irq]

theorem errcodeWord_eq (s : State) : s.errcodeWord = s.errcode.code.setWidth 32 := by
  unfold State.errcodeWord
  cases s.errcode <;> rfl

/-- Settles O15: each read returns the register's word, whose bits are computed from its fields. -/
theorem registerReadValues : Obligations.RegisterReadValues := by
  unfold Obligations.RegisterReadValues
  refine ⟨fun s rest hr => ⟨fun hi => ⟨s.ctrlWord, ?_, getLsbD_ctrlWord s⟩,
    fun hi => ⟨s.statusWord, ?_, getLsbD_statusWord s⟩, fun hi => ?_, fun hi => ?_, fun hi => ?_⟩, rfl⟩
  · rw [step_mmioRead hi hr (by decide) (.inr (by rw [targetAt_ctrl]; rfl)), targetAt_ctrl]
    rfl
  · rw [step_mmioRead hi hr (by decide) (.inr (by rw [targetAt_status]; rfl)), targetAt_status]
    rfl
  · rw [step_mmioRead hi hr (by decide) (.inr (by rw [targetAt_cmd]; rfl)), targetAt_cmd]
    rfl
  · rw [step_mmioRead hi hr (by decide) (.inr (by rw [targetAt_errcode]; rfl)), targetAt_errcode,
      ← errcodeWord_eq]
    rfl
  · rw [step_mmioRead hi hr (by decide) (.inr (by rw [targetAt_errinfo]; rfl)), targetAt_errinfo]
    rfl

/-- What stands at a reserved offset (10_state.md R42). -/
theorem targetAt_reservedOffset {s : State} {o : BitVec 17}
    (h : o.toNat = 0x1C ∨ (0x40 ≤ o.toNat ∧ o.toNat < 0x10000) ∨ 0x10000 + s.dbufsz.toNat ≤ o.toNat) :
    s.targetAt o = .reserved ∨ (s.targetAt o = .dbufBeyond ∧ 0x10000 ≤ o.toNat) := by
  rcases h with h | ⟨hlo, hhi⟩ | h
  · left
    rw [State.targetAt, target_low (by omega), h]
    rfl
  · exact .inl (target_reserved hlo hhi)
  · exact .inr ⟨target_dbufBeyond (by omega) h, by omega⟩

/-- Settles O18: the offsets stand for reserved targets, which read 0 and ignore writes. -/
theorem reservedOffsets : Obligations.ReservedOffsets := by
  unfold Obligations.ReservedOffsets
  intro s rest o hr hal ho
  rcases targetAt_reservedOffset ho with ht | ⟨ht, hlo⟩
  · refine ⟨fun hi => ?_, fun v hi _ => ?_⟩
    · rw [step_mmioRead hi hr hal (.inr (ht ▸ rfl)), ht]
      rfl
    · exact step_write_ignored hi hr hal (ht ▸ rfl) (ht ▸ nofun) (ht ▸ nofun)
  · refine ⟨fun hi => ?_, fun v hi hp => ?_⟩
    · rw [step_mmioRead hi hr hal (.inr (ht ▸ rfl)), ht]
      rfl
    · have hb : s.busy = false := not_busy_iff.mpr (hp.resolve_left (by omega))
      rw [step_mmioWrite hi hr hal (ht ▸ nofun), ht, writeTarget, busy_after, hb]
      rfl

/-- Settles O21: a read of DBUF while BUSY is a draw, and any other read leaves the counter alone. -/
theorem readsChangeNothing : Obligations.ReadsChangeNothing := by
  unfold Obligations.ReadsChangeNothing
  intro s rest o hi hr hal
  by_cases h : s.phase = .idle ∨ (s.targetAt o).isDbuf = false
  · refine ⟨_, s.drawCount, step_mmioRead hi hr hal h, fun _ => rfl, fun hp hlo hhi => ?_⟩
    have hd := isDbuf_targetAt_iff.mpr ⟨hlo, hhi⟩
    exact absurd h (by simp [hp, hd])
  · obtain ⟨hp, hd⟩ := not_or.mp h
    rw [Bool.not_eq_false] at hd
    obtain ⟨l, hl⟩ : ∃ l, s.phase = .busy l := by
      cases hs : s.phase with
      | idle => exact absurd hs hp
      | busy l => exact ⟨l, rfl⟩
    refine ⟨_, _, step_mmioRead_draw hi hr hal hl hd, fun hc => ?_, fun _ _ _ => ⟨rfl, rfl⟩⟩
    have := (isDbuf_targetAt_iff.mp hd).1
    exact hc.elim (fun h => absurd h hp) (fun h => by omega)

end Sys2Proof.Machine

/-! SUPPORT. Pieces, and the lengths of what the AES-256 cipher and its key expansion compute
(spec/40_primitives.md R150 to R156). -/

namespace Sys2Proof.Machine

/-! ## Pieces -/

/-- Pieces of n elements each, joined and cut again, are the pieces. -/
theorem chunks_of_flatten {α : Type} {n : Nat} (hn : 0 < n) {ps : List (List α)}
    (h : ∀ p ∈ ps, p.length = n) : chunks n ps.flatten = ps := by
  induction ps with
  | nil => rfl
  | cons p ps ih =>
    obtain ⟨hp, hps⟩ := List.forall_mem_cons.mp h
    rw [List.flatten_cons, chunks_append hn hp, ih hps]

/-- A list of k · n elements has k pieces. -/
theorem length_chunks {α : Type} {n k : Nat} (hn : 0 < n) {l : List α} (hl : l.length = k * n) :
    (chunks n l).length = k := by
  have hps := length_of_mem_chunks hn (l := l) (by rw [hl, Nat.mul_mod_left])
  have hsum : (chunks n l).flatten.length = (chunks n l).length * n := by
    rw [List.length_flatten, List.map_congr_left hps, List.map_const', List.sum_replicate_nat]
  rw [chunks_flatten hn, hl] at hsum
  exact (Nat.eq_of_mul_eq_mul_right hn hsum).symm

/-! ## The transformations of a block -/

@[simp] theorem length_subBytes (s : Bytes) : (subBytes s).length = s.length := by simp [subBytes]

@[simp] theorem length_invSubBytes (s : Bytes) : (invSubBytes s).length = s.length := by
  simp [invSubBytes]

@[simp] theorem length_shiftRows (s : Bytes) : (shiftRows s).length = 16 := by simp [shiftRows]

@[simp] theorem length_invShiftRows (s : Bytes) : (invShiftRows s).length = 16 := by
  simp [invShiftRows]

@[simp] theorem length_mixColumn (c : Bytes) : (mixColumn c).length = c.length := by
  unfold mixColumn
  split <;> rfl

@[simp] theorem length_invMixColumn (c : Bytes) : (invMixColumn c).length = c.length := by
  unfold invMixColumn
  split <;> rfl

/-- A map of the columns that keeps their lengths keeps the length of the block. -/
theorem length_flatMap_chunks {f : Bytes → Bytes} (hf : ∀ c, (f c).length = c.length) (s : Bytes) :
    ((chunks 4 s).flatMap f).length = s.length := by
  have hflat := congrArg List.length (chunks_flatten (n := 4) (by decide) s)
  rw [List.length_flatten] at hflat
  simp only [List.length_flatMap, hf, hflat]

@[simp] theorem length_mixColumns (s : Bytes) : (mixColumns s).length = s.length :=
  length_flatMap_chunks length_mixColumn s

@[simp] theorem length_invMixColumns (s : Bytes) : (invMixColumns s).length = s.length :=
  length_flatMap_chunks length_invMixColumn s

/-! ## The key expansion -/

/-- Key words, newest first, from which the next word can be made: at least eight, of four bytes each. -/
def KeyWords (ws : List Bytes) : Prop := 8 ≤ ws.length ∧ ∀ w ∈ ws, w.length = 4

theorem KeyWords.length_getD {ws : List Bytes} (h : KeyWords ws) {i : Nat} (hi : i < 8) :
    (ws.getD i []).length = 4 := by
  have hlt : i < ws.length := Nat.lt_of_lt_of_le hi h.1
  rw [List.getD_eq_getElem _ _ hlt]
  exact h.2 _ (List.getElem_mem hlt)

@[simp] theorem length_rotWord (w : Bytes) : (rotWord w).length = w.length := by
  simp only [rotWord, List.length_append, List.length_drop, List.length_take]
  omega

@[simp] theorem length_subWord (w : Bytes) : (subWord w).length = w.length := by simp [subWord]

/-- A key word is four bytes (R152). -/
theorem length_nextKeyWord {ws : List Bytes} (h : KeyWords ws) (i : Nat) :
    (nextKeyWord i ws).length = 4 := by
  have h0 := h.length_getD (i := 0) (by decide)
  have h7 := h.length_getD (i := 7) (by decide)
  unfold nextKeyWord
  dsimp only
  rw [length_xorBytes, h7]
  split
  · rw [length_xorBytes, length_subWord, length_rotWord, h0]
    rfl
  · split
    · rw [length_subWord, h0, Nat.min_self]
    · rw [h0, Nat.min_self]

theorem KeyWords.expand {ws : List Bytes} (h : KeyWords ws) (n i : Nat) :
    KeyWords (expandKeyWords n i ws) ∧ (expandKeyWords n i ws).length = n + ws.length := by
  induction n generalizing i ws with
  | zero => exact ⟨h, (Nat.zero_add _).symm⟩
  | succ n ih =>
    have hnext : KeyWords (nextKeyWord i ws :: ws) :=
      ⟨Nat.le_succ_of_le h.1, List.forall_mem_cons.mpr ⟨length_nextKeyWord h i, h.2⟩⟩
    obtain ⟨hws, hlen⟩ := ih hnext (i + 1)
    refine ⟨hws, hlen.trans ?_⟩
    rw [List.length_cons]
    omega

/-- Round keys, as the cipher reads them: each of `rk[0]` to `rk[14]` has 16 bytes (R152). -/
def RoundKeys (rks : List Bytes) : Prop := ∀ n ≤ 14, (rks.getD n []).length = 16

/-- The key expansion gives fifteen round keys of 16 bytes (R152). -/
theorem roundKeys_aesRoundKeys {key : Bytes} (hk : key.length = 32) : RoundKeys (aesRoundKeys key) := by
  have hstart : KeyWords (chunks 4 key).reverse := by
    refine ⟨?_, fun w hw => ?_⟩
    · rw [List.length_reverse, length_chunks (k := 8) (by decide) hk]
    · exact length_of_mem_chunks (by decide) (by omega) w (List.mem_reverse.mp hw)
  obtain ⟨⟨-, hmem⟩, hcount⟩ := hstart.expand 52 8
  have hcount' : (expandKeyWords 52 8 (chunks 4 key).reverse).length = 60 := by
    rw [hcount, List.length_reverse, length_chunks (k := 8) (by decide) hk]
  have hlen : (expandKeyWords 52 8 (chunks 4 key).reverse).reverse.flatten.length = 15 * 16 := by
    rw [List.length_flatten, List.map_congr_left fun w hw => hmem w (List.mem_reverse.mp hw),
      List.map_const', List.sum_replicate_nat, List.length_reverse, hcount']
  intro n hn
  have hlt : n < (aesRoundKeys key).length := by
    rw [aesRoundKeys, length_chunks (k := 15) (by decide) hlen]
    omega
  rw [List.getD_eq_getElem _ _ hlt]
  exact length_of_mem_chunks (by decide) (by omega) _ (List.getElem_mem hlt)

/-! ## The rounds -/

/-- `AddRoundKey(n)` keeps the 16 bytes of a block (R153). -/
theorem length_addRoundKey {rks : List Bytes} (h : RoundKeys rks) {n : Nat} (hn : n ≤ 14) {s : Bytes}
    (hs : s.length = 16) : (addRoundKey rks n s).length = 16 := by
  rw [addRoundKey, length_xorBytes, h n hn, hs, Nat.min_self]

theorem length_encRounds {rks : List Bytes} (h : RoundKeys rks) {n i : Nat} (hn : i + n ≤ 15) {s : Bytes}
    (hs : s.length = 16) : (encRounds rks n i s).length = 16 := by
  induction n generalizing i s with
  | zero => exact hs
  | succ n ih => exact ih (by omega) (length_addRoundKey h (by omega) (by simp))

/-- `AES256_Enc(key, b)` has 16 bytes (R155). -/
theorem length_aes256Enc {key : Bytes} (hk : key.length = 32) (b : Bytes) :
    (aes256Enc key b).length = 16 :=
  length_addRoundKey (roundKeys_aesRoundKeys hk) (by decide) (by simp)

/-- `AES256_Dec(key, b)` has 16 bytes (R156). -/
theorem length_aes256Dec {key : Bytes} (hk : key.length = 32) (b : Bytes) :
    (aes256Dec key b).length = 16 :=
  length_addRoundKey (roundKeys_aesRoundKeys hk) (by decide) (by simp)

end Sys2Proof.Machine

/-! SUPPORT. The lengths of what the commands compute: every output fills its output range
(spec/40_primitives.md R171, R176). -/

namespace Sys2Proof.Machine

/-! ## The functions of the families -/

@[simp] theorem length_hchacha12 (key n16 : Bytes) : (hchacha12 key n16).length = 32 := by
  simp [hchacha12]

@[simp] theorem length_poly1305e (k16 msg : Bytes) : (poly1305e k16 msg).length = 16 :=
  length_leBytes 16 _

@[simp] theorem length_nh (kNH m : Bytes) : (nh kNH m).length = 32 := by
  simp [nh, List.length_flatMap]

@[simp] theorem length_adiantumHash (kH iv msg : Bytes) : (adiantumHash kH iv msg).length = 16 :=
  length_add128 _ _

/-- A block cipher of XTS: it takes blocks of 16 bytes to blocks of 16 bytes. -/
def KeepsBlocks (f : Bytes → Bytes) : Prop := ∀ b, b.length = 16 → (f b).length = 16

/-- XTS keeps the number of bytes of its blocks (43_aes_xts.md R260). -/
theorem length_xtsBlocks {f : Bytes → Bytes} (hf : KeepsBlocks f) {bs : List Bytes}
    (hbs : ∀ b ∈ bs, b.length = 16) {t : Bytes} (ht : t.length = 16) :
    (xtsBlocks f t bs).length = bs.flatten.length := by
  induction bs generalizing t with
  | nil => rfl
  | cons b bs ih =>
    obtain ⟨hb, hbs⟩ := List.forall_mem_cons.mp hbs
    have hblock : (xorBytes b t).length = 16 := by rw [length_xorBytes, hb, ht, Nat.min_self]
    rw [xtsBlocks, List.length_append, ih hbs (by rw [length_mulx, ht]), length_xorBytes,
      hf _ hblock, ht, List.flatten_cons, List.length_append, hb, Nat.min_self]

theorem length_key64_half {key : Bytes} (hk : key.length = 64) {a : Nat} (ha : a ≤ 32) :
    (slice key a 32).length = 32 := by
  rw [length_slice, hk]
  omega

theorem keepsBlocks_aes256Enc {key : Bytes} (hk : key.length = 32) : KeepsBlocks (aes256Enc key) :=
  fun b _ => length_aes256Enc hk b

theorem keepsBlocks_aes256Dec {key : Bytes} (hk : key.length = 32) : KeepsBlocks (aes256Dec key) :=
  fun b _ => length_aes256Dec hk b

theorem length_xtsMask {key : Bytes} (hk : key.length = 64) (tweak : Bytes) :
    (xtsMask key tweak).length = 16 :=
  length_aes256Enc (length_key64_half hk (Nat.le_refl 32)) tweak

/-- `XtsEnc` keeps the length (R260). -/
theorem length_xtsEnc {key tweak p : Bytes} (hk : key.length = 64) (hp : p.length % 16 = 0) :
    (xtsEnc key tweak p).length = p.length := by
  rw [xtsEnc, length_xtsBlocks (keepsBlocks_aes256Enc (length_key64_half hk (Nat.zero_le 32)))
    (length_of_mem_chunks (by decide) hp) (length_xtsMask hk tweak), chunks_flatten (by decide)]

/-- `XtsDec` keeps the length (R261). -/
theorem length_xtsDec {key tweak c : Bytes} (hk : key.length = 64) (hc : c.length % 16 = 0) :
    (xtsDec key tweak c).length = c.length := by
  rw [xtsDec, length_xtsBlocks (keepsBlocks_aes256Dec (length_key64_half hk (Nat.zero_le 32)))
    (length_of_mem_chunks (by decide) hc) (length_xtsMask hk tweak), chunks_flatten (by decide)]

@[simp] theorem length_adiantumBulk (k cm bulk : Bytes) :
    (adiantumBulk k cm bulk).length = bulk.length := by simp [adiantumBulk]

/-- `AdiantumEnc` keeps the length (44_adiantum.md R291). -/
theorem length_adiantumEnc {k iv p : Bytes} (hp : 16 ≤ p.length) :
    (adiantumEnc k iv p).length = p.length := by
  simp only [adiantumEnc, List.length_append, length_adiantumBulk, length_sub128, List.length_take]
  omega

/-- `AdiantumDec` keeps the length (R293). -/
theorem length_adiantumDec {k iv c : Bytes} (hc : 16 ≤ c.length) :
    (adiantumDec k iv c).length = c.length := by
  simp only [adiantumDec, List.length_append, length_adiantumBulk, length_sub128, List.length_take]
  omega

theorem length_hkdfBlocks (prk info : Bytes) (n i : Nat) (t : Bytes) :
    (hkdfBlocks prk info n i t).length = n * 64 := by
  induction n generalizing i t with
  | zero => simp [hkdfBlocks]
  | succ n ih => simp [hkdfBlocks, ih, Nat.succ_mul, Nat.add_comm]

theorem le_ceilDiv_mul {size n : Nat} (hn : 0 < n) : size ≤ ceilDiv size n * n := by
  have := Nat.div_add_mod (size + n - 1) n
  have := Nat.mod_lt (size + n - 1) hn
  unfold ceilDiv
  rw [Nat.mul_comm]
  omega

/-- `HKDF(ikm, info, n)` has n bytes (40_primitives.md R166). -/
@[simp] theorem length_hkdf (ikm info : Bytes) (n : Nat) : (hkdf ikm info n).length = n := by
  rw [hkdf, List.length_take, length_hkdfBlocks, Nat.min_eq_left (le_ceilDiv_mul (by decide))]

/-- `CMAC(K, M)` is one block (45_kdf.md R314). -/
theorem length_cmac {k : Bytes} (hk : k.length = 32) (m : Bytes) : (cmac k m).length = 16 :=
  length_aes256Enc hk _

/-- `CmacKdf` gives as many bytes as asked for (R316). -/
theorem length_cmacKdf {secret : Bytes} (hk : secret.length = 32) (label context : Bytes) (n : Nat) :
    (cmacKdf secret label context n).length = n := by
  simp only [cmacKdf, List.length_take, List.length_flatMap, length_cmac hk, List.map_const',
    List.sum_replicate_nat, List.length_range]
  exact Nat.min_eq_left (le_ceilDiv_mul (by decide))

/-! ## The commands -/

/-- A command of legal lengths, given as many bytes as its ranges hold, puts out as many as its output
range holds. -/
theorem length_result {i : Instr} {x : Operands} {rd : Range → Bytes}
    (hrd : ∀ r, (rd r).length = r.size) (h : lengthPredicate x i) :
    ((commandOf i x).result rd).length = (commandOf i x).output.size := by
  cases i with
  | hchacha12 => simp [commandOf, hchacha12Command]
  | chacha12Xor => simp [commandOf, chacha12XorCommand, hrd]
  | xchacha12Xor => simp [commandOf, xchacha12XorCommand, hrd]
  | xchacha12Stream => exact length_xchacha12Stream _ _ _
  | poly1305e => exact length_poly1305e _ _
  | nh => exact length_nh _ _
  | adiantumHash => exact length_adiantumHash _ _ _
  | aes256Enc => exact length_aes256Enc (hrd _) _
  | aes256Dec => exact length_aes256Dec (hrd _) _
  | xtsEnc => exact (length_xtsEnc (hrd _) (by rw [hrd]; exact h.1)).trans (hrd _)
  | xtsDec => exact (length_xtsDec (hrd _) (by rw [hrd]; exact h.1)).trans (hrd _)
  | adiantumEnc => exact (length_adiantumEnc (by rw [hrd]; exact h)).trans (hrd _)
  | adiantumDec => exact (length_adiantumDec (by rw [hrd]; exact h)).trans (hrd _)
  | hkdfKeyIdentifier | hkdfPerFileEncKey | hkdfDirectKey _ | hkdfIvInoLblk64Key _ | hkdfDirhashKey
  | hkdfIvInoLblk32Key _ | hkdfInodeHashKey => exact length_hkdf _ _ _
  | aes256Cmac => exact length_cmac (hrd _) _
  | cmacKdf => exact length_cmacKdf (hrd _) _ _ _

/-- The output of an accepted command fills its output range. -/
theorem length_result_memRead {i : Instr} {x : Operands} {n : Nat} (h : accepted i x n) (s : State) :
    ((commandOf i x).result s.memRead).length = (commandOf i x).output.size :=
  length_result (length_memRead s) ((lengthOk_iff i x).mp ((error_eq_none_iff n _).mp h).1)

/-- The output range of an accepted command lies inside DBUF (R172). -/
theorem output_inside {i : Instr} {x : Operands} {n : Nat} (h : accepted i x n) :
    (commandOf i x).output.addr + (commandOf i x).output.size ≤ n := by
  obtain ⟨-, hfit, -⟩ := (error_eq_none_iff n _).mp h
  exact hfit _ (by simp)

end Sys2Proof.Machine

/-! SUPPORT. What a command does in each phase: its submission while IDLE, its completion while BUSY, and that
its output depends on its input strings alone (spec/40_primitives.md R170 to R179). -/

namespace Sys2Proof.Machine

/-! ## Phase IDLE -/

/-- A command that fails a check is refused with its error (R170, R343). -/
theorem exec_idle_refused {i : Instr} {s : State} {e : ErrorCode} (hp : s.phase = .idle)
    (he : s.err = false) (h : (commandOf i s.operands).error s.dbufsz.toNat = some e) :
    exec i s = .next { s with
      cmd := encode i, done := false, err := true, errcode := e, errinfo := encode i } := by
  rw [exec_idle hp, submitCommand_refused h]
  simp [State.withError, State.takeWord, he]

/-- A command that passes every check is latched (R170). -/
theorem exec_idle_accepted {i : Instr} {s : State} (hp : s.phase = .idle) (he : s.err = false)
    (h : (commandOf i s.operands).error s.dbufsz.toNat = none) :
    exec i s = .next { s with
      cmd := encode i, done := false, phase := .busy { word := encode i, x := s.operands } } := by
  rw [exec_idle hp, submitCommand_accepted h]
  simp [State.takeWord, he]

/-- A command of legal lengths with a range that leaves DBUF raises RANGE (R172). -/
theorem exec_idle_range {i : Instr} {s : State} {r : Range} (hp : s.phase = .idle)
    (he : s.err = false) (hlen : lengthPredicate s.operands i) (hr : r ∈ rangesOf s.operands i)
    (hout : s.dbufsz.toNat < r.addr + r.size) :
    exec i s = .next { s with
      cmd := encode i, done := false, err := true, errcode := .range, errinfo := encode i } := by
  refine exec_idle_refused hp he ((error_eq_range_iff _ _).mpr ⟨(lengthOk_iff i _).mpr hlen, ?_⟩)
  rw [rangesFit_eq_false_iff, ranges_commandOf]
  exact ⟨r, hr, hout⟩

/-- Settles O24: the three outcomes of a submission. -/
theorem idleExecSubmits : Obligations.IdleExecSubmits := by
  unfold Obligations.IdleExecSubmits
  refine fun i s hp => ⟨fun he => ?_, fun he => ⟨fun e h => exec_idle_refused hp he h,
    fun h => exec_idle_accepted hp he h⟩⟩
  rw [exec_idle hp, he, if_pos rfl]

/-! ## Phase BUSY -/

/-- The command of a latch passes its checks when its row's length predicate holds and its ranges are
acceptable. -/
theorem accepted_iff {i : Instr} {x : Operands} {n : Nat} :
    accepted i x n ↔ lengthPredicate x i ∧
      acceptable n (plainInputsOf x i) (dataInputOf x i) (outputOf x i) := by
  rw [accepted, error_eq_none_iff, lengthOk_iff, inputs_commandOf, dataInput_commandOf, output_commandOf]

/-- An accepted command completes with its output at its output range (R176). -/
theorem exec_busy_accepted {i : Instr} {s : State} {l : Latch} (hp : s.phase = .busy l)
    (h : accepted i l.x s.dbufsz.toNat) :
    ∃ t, exec i s = .next t ∧
      s.completedWith t (outputOf l.x i) ((commandOf i l.x).result s.memRead) := by
  rw [exec_busy hp, ← output_commandOf]
  exact completeCommand_completedWith h (length_result_memRead h s)

/-- A command whose operands meet the length predicate and the rules of the ranges completes (R170, R176). -/
theorem exec_busy_completes (i : Instr) {s : State} {l : Latch} (hp : s.phase = .busy l)
    (hlen : lengthPredicate l.x i)
    (hacc : acceptable s.dbufsz.toNat (plainInputsOf l.x i) (dataInputOf l.x i) (outputOf l.x i)) :
    ∃ t, exec i s = .next t ∧
      s.completedWith t (outputOf l.x i) ((commandOf i l.x).result s.memRead) :=
  exec_busy_accepted hp (accepted_iff.mpr ⟨hlen, hacc⟩)

/-! ## Determinism -/

/-- The output of each command as a function of its input strings, its data string and the size of its
output. -/
def outputString (ins : List Bytes) (data : Bytes) (size : Nat) : Instr → Bytes
  | .hchacha12 => hchacha12 (ins.getD 0 []) (ins.getD 1 [])
  | .chacha12Xor => xorBytes data (chacha12Stream (ins.getD 0 []) (ins.getD 1 []) size)
  | .xchacha12Xor => xorBytes data (xchacha12Stream (ins.getD 0 []) (ins.getD 1 []) size)
  | .xchacha12Stream => xchacha12Stream (ins.getD 0 []) (ins.getD 1 []) size
  | .poly1305e => poly1305e (ins.getD 0 []) (ins.getD 1 [])
  | .nh => nh (ins.getD 0 []) (ins.getD 1 [])
  | .adiantumHash => adiantumHash (ins.getD 0 []) (ins.getD 1 []) (ins.getD 2 [])
  | .aes256Enc => aes256Enc (ins.getD 0 []) data
  | .aes256Dec => aes256Dec (ins.getD 0 []) data
  | .xtsEnc => xtsEnc (ins.getD 0 []) (ins.getD 1 []) data
  | .xtsDec => xtsDec (ins.getD 0 []) (ins.getD 1 []) data
  | .adiantumEnc => adiantumEnc (ins.getD 0 []) (ins.getD 1 []) data
  | .adiantumDec => adiantumDec (ins.getD 0 []) (ins.getD 1 []) data
  | .hkdfKeyIdentifier => hkdf (ins.getD 0 []) (hkdfInfo .keyIdentifier 0 []) size
  | .hkdfPerFileEncKey => hkdf (ins.getD 0 []) (hkdfInfo .perFileEncKey 0 (ins.getD 1 [])) size
  | .hkdfDirectKey mode => hkdf (ins.getD 0 []) (hkdfInfo .directKey mode []) size
  | .hkdfIvInoLblk64Key mode =>
      hkdf (ins.getD 0 []) (hkdfInfo .ivInoLblk64Key mode (ins.getD 1 [])) size
  | .hkdfDirhashKey => hkdf (ins.getD 0 []) (hkdfInfo .dirhashKey 0 (ins.getD 1 [])) size
  | .hkdfIvInoLblk32Key mode =>
      hkdf (ins.getD 0 []) (hkdfInfo .ivInoLblk32Key mode (ins.getD 1 [])) size
  | .hkdfInodeHashKey => hkdf (ins.getD 0 []) (hkdfInfo .inodeHashKey 0 []) size
  | .aes256Cmac => cmac (ins.getD 0 []) (ins.getD 1 [])
  | .cmacKdf => cmacKdf (ins.getD 0 []) (ins.getD 1 []) (ins.getD 2 []) size

/-- The output string of a command reads DBUF at its input ranges only. -/
theorem result_eq_outputString (i : Instr) (x : Operands) (rd : Range → Bytes) :
    (commandOf i x).result rd =
      outputString ((commandOf i x).inputs.map rd) (((commandOf i x).dataInput.map rd).getD [])
        (commandOf i x).output.size i := by
  cases i with
  | hchacha12 => simp [commandOf, hchacha12Command, outputString]
  | _ => rfl

/-- A completion leaves the output string in the output range. -/
theorem memRead_output_of_exec {i : Instr} {s t : State} {l : Latch} (hp : s.phase = .busy l)
    (h : exec i s = .next t) :
    t.memRead (commandOf i l.x).output = (commandOf i l.x).result s.memRead := by
  have hacc : accepted i l.x s.dbufsz.toNat := (completeCommand_eq_next_iff.mp (exec_busy hp ▸ h)).1
  obtain ⟨t', ht', -, -, hout, -⟩ := exec_busy_accepted hp hacc
  obtain rfl := Host.Outcome.next.inj (h.symm.trans ht')
  rw [output_commandOf, hout]

/-- Settles O33: each output is one function of the input strings and the output's size. -/
theorem commandsDependOnlyOnInputs : Obligations.CommandsDependOnlyOnInputs := by
  unfold Obligations.CommandsDependOnlyOnInputs
  intro i s₁ s₂ t₁ t₂ l₁ l₂ hp₁ hp₂ hin hdata hsize h₁ h₂
  rw [memRead_output_of_exec hp₁ h₁, memRead_output_of_exec hp₂ h₂, result_eq_outputString,
    result_eq_outputString, hin, hdata, hsize]

end Sys2Proof.Machine

/-! SUPPORT. What each command completes with, read off its row of the tables (spec/41_chacha.md to
45_kdf.md). -/

namespace Sys2Proof.Machine

/-! ## The stream cipher -/

/-- Settles O34: HCHACHA12 completes with its row's output (R210). -/
theorem hchachaResult : Obligations.HchachaResult := by
  unfold Obligations.HchachaResult
  intro s l hp hacc
  have hdone := exec_busy_completes .hchacha12 hp trivial hacc
  simpa only [commandOf, hchacha12Command, outputOf] using hdone

/-- Settles O35: CHACHA12_XOR completes with its row's output, in place or apart (R211). -/
theorem chachaXorResult : Obligations.ChachaXorResult := by
  unfold Obligations.ChachaXorResult
  exact fun s l hp hacc => exec_busy_completes .chacha12Xor hp trivial hacc

/-- Settles O36: XCHACHA12_XOR completes with its row's output, in place or apart (R212). -/
theorem xchachaXorResult : Obligations.XchachaXorResult := by
  unfold Obligations.XchachaXorResult
  exact fun s l hp hacc => exec_busy_completes .xchacha12Xor hp trivial hacc

/-- Exclusive-or with zero bytes changes nothing. -/
theorem xorBytes_zeroBytes (b : Bytes) : xorBytes (zeroBytes b.length) b = b := by
  induction b with
  | nil => rfl
  | cons x b ih => exact congrArg₂ List.cons BitVec.zero_xor ih

/-- Settles O37: the keystream is its exclusive-or with zero bytes. -/
theorem xchachaStreamResult : Obligations.XchachaStreamResult := by
  unfold Obligations.XchachaStreamResult
  intro s l hp hacc
  have hzero := xorBytes_zeroBytes
    (xchacha12Stream (s.memRead ⟨reg l.x 0, 32⟩) (s.memRead ⟨reg l.x 1, 24⟩) (reg l.x 3))
  rw [length_xchacha12Stream] at hzero
  rw [hzero]
  exact exec_busy_completes .xchacha12Stream hp trivial hacc

/-! ## The universal hash -/

/-- Settles O38: POLY1305E completes with its row's output (R236). -/
theorem polyResult : Obligations.PolyResult := by
  unfold Obligations.PolyResult
  exact fun s l hp hacc => exec_busy_completes .poly1305e hp trivial hacc

/-- Settles O39: the key range is a range of the command, whatever the length of the message is. -/
theorem nhResult : Obligations.NhResult := by
  unfold Obligations.NhResult
  refine ⟨fun s l hp hmod hlo hhi hacc => exec_busy_completes .nh hp ⟨hmod, hlo, hhi⟩ hacc,
    fun s hp he hmod hlo hhi hout => ?_⟩
  exact exec_idle_range (i := .nh) (r := ⟨reg s.operands 0, 1072⟩) hp he ⟨hmod, hlo, hhi⟩
    (.head _) hout

/-- Settles O40: the key range is a range of the command, whatever the length of the message is. -/
theorem adiantumHashResult : Obligations.AdiantumHashResult := by
  unfold Obligations.AdiantumHashResult
  refine ⟨fun s l hp hacc => exec_busy_completes .adiantumHash hp trivial hacc,
    fun s hp he hout => ?_⟩
  exact exec_idle_range (i := .adiantumHash) (r := ⟨reg s.operands 0, 1104⟩) hp he trivial
    (.head _) hout

/-! ## The block ciphers -/

/-- Settles O41: both block commands complete with their rows' outputs, in place or apart (R270, R271). -/
theorem aesBlockResults : Obligations.AesBlockResults := by
  unfold Obligations.AesBlockResults
  intro s l hp hacc
  have henc := exec_busy_completes .aes256Enc hp trivial hacc
  have hdec := exec_busy_completes .aes256Dec hp trivial hacc
  simp only [commandOf, aes256EncCommand, aes256DecCommand, aes256Command, outputOf] at henc hdec
  exact ⟨henc, hdec⟩

/-- Settles O42: both XTS commands complete with their rows' outputs, in place or apart (R272, R273). -/
theorem xtsResults : Obligations.XtsResults := by
  unfold Obligations.XtsResults
  exact fun s l hp hmod hlo hacc => ⟨exec_busy_completes .xtsEnc hp ⟨hmod, hlo⟩ hacc,
    exec_busy_completes .xtsDec hp ⟨hmod, hlo⟩ hacc⟩

/-- Settles O43: both Adiantum commands complete with their rows' outputs, in place or apart (R295, R296). -/
theorem adiantumResults : Obligations.AdiantumResults := by
  unfold Obligations.AdiantumResults
  exact fun s l hp hlo hacc => ⟨exec_busy_completes .adiantumEnc hp hlo hacc,
    exec_busy_completes .adiantumDec hp hlo hacc⟩

/-! ## The key derivation -/

/-- Settles O44: the info of contexts 1 and 7 ends with the tag byte (45_kdf.md R311). -/
theorem hkdfTagOnlyResults : Obligations.HkdfTagOnlyResults := by
  unfold Obligations.HkdfTagOnlyResults
  intro s l hp hkey hout hacc
  rw [← hout] at hacc ⊢
  exact ⟨exec_busy_completes .hkdfKeyIdentifier hp ⟨hkey, hout⟩ hacc,
    exec_busy_completes .hkdfInodeHashKey hp ⟨hkey, hout⟩ hacc⟩

/-- Settles O45: the info of contexts 2 and 5 ends with the extra string (R311). -/
theorem hkdfNonceResults : Obligations.HkdfNonceResults := by
  unfold Obligations.HkdfNonceResults
  exact fun s l hp hkey hacc =>
    ⟨fun hout => exec_busy_completes .hkdfPerFileEncKey hp ⟨hkey, hout⟩ hacc,
      fun hout => exec_busy_completes .hkdfDirhashKey hp ⟨hkey, hout⟩ hacc⟩

/-- Settles O46: the info of context 3 ends with the MODE byte (R311). -/
theorem hkdfDirectKeyResult : Obligations.HkdfDirectKeyResult := by
  unfold Obligations.HkdfDirectKeyResult
  exact fun s l mode hp hkey hout hacc =>
    exec_busy_completes (.hkdfDirectKey mode) hp ⟨hkey, hout⟩ hacc

/-- Settles O47: the info of contexts 4 and 6 ends with the MODE byte and the extra string (R311). -/
theorem hkdfUuidResults : Obligations.HkdfUuidResults := by
  unfold Obligations.HkdfUuidResults
  exact fun s l mode hp hkey hout hacc =>
    ⟨exec_busy_completes (.hkdfIvInoLblk64Key mode) hp ⟨hkey, hout⟩ hacc,
      exec_busy_completes (.hkdfIvInoLblk32Key mode) hp ⟨hkey, hout⟩ hacc⟩

/-- Settles O48: AES256_CMAC completes with its row's output (R321). -/
theorem cmacResult : Obligations.CmacResult := by
  unfold Obligations.CmacResult
  intro s l hp hacc
  have hdone := exec_busy_completes .aes256Cmac hp trivial hacc
  simpa only [commandOf, aes256CmacCommand, outputOf] using hdone

/-- Settles O49: CMAC_KDF completes with its row's output (R322). -/
theorem cmacKdfResult : Obligations.CmacKdfResult := by
  unfold Obligations.CmacKdfResult
  exact fun s l hp hlo hhi hacc => exec_busy_completes .cmacKdf hp ⟨hlo, hhi⟩ hacc

end Sys2Proof.Machine

/-! SUPPORT. What a step does to the state, by its effect: `Effect s t` has one constructor for each way in
which registers, DBUF and the phase can change, and every step that answers a next state is one of them. -/

namespace Sys2Proof.Machine

/-- The effects of one step on the state. -/
inductive Effect (s : State) : State → Prop where
  /-- nothing but the inbox, the answer of the bus and the count of the draws changes -/
  | quiet (rest : List Event) (r : Option BusResponse) (n : Nat) :
      Effect s { s with inbox := rest, response := r, drawCount := n }
  /-- the engine is reset -/
  | resets (rest : List Event) (r : Option BusResponse) (b : Bool) (hn : s.resetsNext) :
      Effect s { s with inbox := rest, response := r, resetInput := b }.resetEngine
  /-- CTRL takes the two enables -/
  | enables (rest : List Event) (r : Option BusResponse) (d e : Bool) (hr : s.resetInput = false) :
      Effect s { s with inbox := rest, response := r, doneIe := d, errIe := e }
  /-- a STATUS write clears DONE or leaves it -/
  | clearsDone (rest : List Event) (r : Option BusResponse) (b : Bool) (hr : s.resetInput = false) :
      Effect s { s with inbox := rest, response := r, done := s.done && b }
  /-- a write while BUSY is a violation -/
  | violates (rest : List Event) (r : Option BusResponse) (l : Latch) (o : BitVec 17)
      (hr : s.resetInput = false) (hp : s.phase = .busy l) (ho : violationOffset o.toNat) :
      Effect s ((s.after rest r).withError .busyViolation (o.setWidth 32))
  /-- the host writes an operand register -/
  | operand (rest : List Event) (i : Fin 8) (v : Word32)
      (hi : s.inbox = .access (mmioWrite (operandOffset i) v) :: rest)
      (hr : s.resetInput = false) (hp : s.phase = .idle) :
      Effect s (writeOperand i v (s.after rest (some .writeAck)))
  /-- the host writes a word of DBUF -/
  | dbuf (rest : List Event) (o : BitVec 17) (a : Nat) (v : Word32)
      (hi : s.inbox = .access (mmioWrite o v) :: rest) (hr : s.resetInput = false)
      (hp : s.phase = .idle) (hal : o.toNat % 4 = 0) (ho : o.toNat = 0x10000 + a)
      (ha : a < s.dbufsz.toNat) :
      Effect s ((s.after rest (some .writeAck)).memWrite a (le32 v))
  /-- the engine completes the latched command -/
  | completes (rest : List Event) (l : Latch) (i : Instr) (hp : s.phase = .busy l)
      (hd : decode l.word = .ok i) (hacc : accepted i l.x s.dbufsz.toNat) :
      Effect s { (s.after rest none).memWrite (commandOf i l.x).output.addr
        ((commandOf i l.x).result s.memRead) with phase := .idle, done := true }
  /-- a word written to CMD is refused -/
  | refuses (rest : List Event) (w : Word32) (e : ErrorCode) (hr : s.resetInput = false)
      (hp : s.phase = .idle) (hn : s.err = false) (he : e ≠ .none) (hb : e ≠ .busyViolation) :
      Effect s (((s.after rest (some .writeAck)).takeWord w).withError e w)
  /-- a word written to CMD is accepted -/
  | accepts (rest : List Event) (w : Word32) (i : Instr)
      (hi : s.inbox = .access (cmdWrite w) :: rest) (hr : s.resetInput = false)
      (hp : s.phase = .idle) (hn : s.err = false) (hd : decode w = .ok i)
      (hacc : accepted i s.operands s.dbufsz.toNat) :
      Effect s { (s.after rest (some .writeAck)).takeWord w with
        phase := .busy { word := w, x := s.operands } }

/-- Nothing but the inbox and the answer of the bus changes. -/
theorem Effect.after (s : State) (rest : List Event) (r : Option BusResponse) :
    Effect s (s.after rest r) :=
  .quiet rest r s.drawCount

/-! ## The codes of a refusal -/

theorem decodeErrorCode_ne (d : DecodeError) :
    decodeErrorCode d ≠ .none ∧ decodeErrorCode d ≠ .busyViolation := by
  cases d <;> exact ⟨nofun, nofun⟩

theorem commandError_ne {n : Nat} {c : Command} {e : ErrorCode} (h : c.error n = some e) :
    e ≠ .none ∧ e ≠ .busyViolation := by
  rcases (error_eq_some_iff n c e).mp h with ⟨-, rfl⟩ | ⟨-, -, rfl⟩ | ⟨-, -, -, rfl⟩ <;>
    exact ⟨nofun, nofun⟩

/-! ## Every step has one of the effects -/

/-- The effect of driving the reset input (70_reset_and_hazards.md R380; log 9). -/
theorem effect_driveReset {s : State} {rest : List Event} {b : Bool}
    (hi : s.inbox = .resetInput b :: rest) : Effect s (driveReset b (s.after rest none)) := by
  rcases driveReset_cases b (s.after rest none) with ⟨hreset, heq⟩ | ⟨-, -, heq⟩
  · rw [heq]
    exact .resets rest none b (.inl ⟨b, rest, hi, hreset⟩)
  · rw [heq]
    exact .after s rest none

/-- The effect of a served write that is no submission. -/
theorem effect_plainWrite {s : State} {rest : List Event} {a : Access} {v : Word32}
    (hi : s.inbox = .access a :: rest) (hr : s.resetInput = false) (ha : a.served = true)
    (hk : a.kind = .write v) :
    Effect s (plainWrite a v (s.after rest (some .writeAck))) := by
  have hal : a.offset.toNat % 4 = 0 := ((served_iff a).mp ha).2
  rw [eq_mmioWrite ha hk] at hi
  unfold plainWrite
  rw [targetAt_after]
  rcases writeTarget_cases a.offset (s.targetAt a.offset) v (s.after rest (some .writeAck)) with
    ⟨hc, hv, hw⟩ | ⟨-, -, hw⟩ | ⟨-, hw⟩ | ⟨hb, hguard, hw⟩ | ⟨i, hb, ho, hw⟩ | ⟨b, hb, ho, hw⟩ | ⟨-, hw⟩
  · rw [target_eq_ctrl_iff.mp hc] at hi
    rw [hw]
    exact .resets rest _ s.resetInput (.inr ⟨v, rest, hi, hr, hv⟩)
  · rw [hw]
    exact .enables rest _ _ _ hr
  · rw [hw]
    exact .clearsDone rest _ _ hr
  · obtain ⟨l, hp⟩ := busy_iff.mp hb
    have hg : (s.targetAt a.offset).guarded = true := by
      rcases hguard with ⟨i, h⟩ | ⟨b, h⟩ | h <;> rw [h] <;> rfl
    rw [hw]
    exact .violates rest _ l _ hr hp ((guarded_target_iff hal).mp hg)
  · rw [eq_operandOffset hal ho] at hi
    rw [hw]
    exact .operand rest i v hi hr (not_busy_iff.mp hb)
  · obtain ⟨hoff, hlt⟩ := target_eq_dbuf ho
    rw [hw]
    exact .dbuf rest a.offset b v hi hr (not_busy_iff.mp hb) hal hoff hlt
  · rw [hw]
    exact .after s rest _

/-- A served write that hits CMD is the CMD write of its word. -/
theorem eq_cmdWrite {s : State} {a : Access} {w : Word32} (ha : a.served = true)
    (hk : a.kind = .write w) (ht : s.targetAt a.offset = .cmd) : a = cmdWrite w := by
  have ho : a.offset = 0x00010 := BitVec.eq_of_toNat_eq (target_eq_cmd_iff.mp ht)
  rw [eq_mmioWrite ha hk, ho]
  rfl

theorem effect_of_moves {s t : State} (h : Moves s t) : Effect s t := by
  cases h with
  | waits => exact .after s [] none
  | turnsIdle rest | drops rest | rejects rest | ignores rest => exact .after s rest _
  | completes rest l i hi hp hd he => exact .completes rest l i hp hd he
  | resets rest b hi => exact effect_driveReset hi
  | reads rest a =>
    obtain ⟨v, n, hread⟩ := busRead_eq a.offset (s.after rest none)
    rw [hread]
    exact .quiet rest _ n
  | writes rest a v hi hr ha hk => exact effect_plainWrite hi hr ha hk
  | violates rest a v l hi hr ha hk ht hp =>
    have hal : a.offset.toNat % 4 = 0 := ((served_iff a).mp ha).2
    have hg : (s.targetAt a.offset).guarded = true := by rw [ht]; rfl
    exact .violates rest _ l _ hr hp ((guarded_target_iff hal).mp hg)
  | refusesWord rest a w d hi hr ha hk ht hp hn hd =>
    exact .refuses rest w _ hr hp hn (decodeErrorCode_ne d).1 (decodeErrorCode_ne d).2
  | refusesCommand rest a w i e hi hr ha hk ht hp hn hd he =>
    exact .refuses rest _ e hr hp hn (commandError_ne he).1 (commandError_ne he).2
  | accepts rest a w i hi hr ha hk ht hp hn hd he =>
    rw [encode_eq_of_decode hd]
    exact .accepts rest w i (eq_cmdWrite ha hk ht ▸ hi) hr hp hn hd he

/-- Every step that answers a next state has one of the effects. -/
theorem step_effect {s t : State} (h : step s = .next t) : Effect s t := effect_of_moves (step_moves h)

/-- A step takes one event from the inbox. -/
theorem inbox_of_moves {s t : State} (h : Moves s t) : t.inbox = s.inbox.tail := by
  cases h with
  | waits hi => rw [hi]; rfl
  | completes rest l i hi => rcases hi with ⟨hi, rfl⟩ | hi <;> rw [hi] <;> rfl
  | resets rest b hi =>
    rw [hi]
    rcases driveReset_cases b (s.after rest none) with ⟨-, heq⟩ | ⟨-, -, heq⟩ <;> rw [heq] <;> rfl
  | reads rest a hi =>
    obtain ⟨v, n, hread⟩ := busRead_eq a.offset (s.after rest none)
    rw [hread, hi]
    rfl
  | writes rest a v hi =>
    rw [hi, plainWrite]
    rcases writeTarget_cases a.offset (s.targetAt a.offset) v (s.after rest (some .writeAck)) with
      ⟨-, -, hw⟩ | ⟨-, -, hw⟩ | ⟨-, hw⟩ | ⟨-, -, hw⟩ | ⟨i, -, -, hw⟩ | ⟨b, -, -, hw⟩ | ⟨-, hw⟩ <;>
      rw [targetAt_after, hw] <;> rfl
  | turnsIdle rest hi | drops rest _ hi | rejects rest _ hi | ignores rest _ _ hi
  | violates rest _ _ _ hi | refusesWord rest _ _ _ hi | refusesCommand rest _ _ _ _ hi
  | accepts rest _ _ _ hi => rw [hi]; rfl

/-! ## The completed command -/

/-- The state that a completion leaves is the one of the framework (40_primitives.md R176). -/
theorem completedWith_effect {s : State} {l : Latch} {i : Instr} (rest : List Event)
    (hacc : accepted i l.x s.dbufsz.toNat) :
    (s.after rest none).completedWith
      { (s.after rest none).memWrite (commandOf i l.x).output.addr
        ((commandOf i l.x).result s.memRead) with phase := .idle, done := true }
      (commandOf i l.x).output ((commandOf i l.x).result s.memRead) := by
  obtain ⟨t, ht, hdone⟩ :=
    completeCommand_completedWith (s := s.after rest none) hacc (length_result_memRead hacc _)
  obtain ⟨-, rfl⟩ := completeCommand_eq_next_iff.mp ht
  exact hdone

end Sys2Proof.Machine

/-! SUPPORT. Every step keeps the invariant, and from every state of the invariant there is a step
(spec/10_state.md R43, 40_primitives.md R175, 60_exceptions.md R341 to R349). -/

namespace Sys2Proof.Machine

/-! ## What the invariant says of a busy engine -/

/-- The latch of a busy engine holds an accepted command (R170). -/
theorem State.Inv.latch_accepted {s : State} (h : s.Inv) {l : Latch} (hp : s.phase = .busy l) :
    ∃ i, decode l.word = .ok i ∧ accepted i l.x s.dbufsz.toNat := by
  obtain ⟨-, -, -, hacc⟩ := h.latch l hp
  exact hacc

/-- The reset input of a busy engine is released, since the reset values have phase IDLE (R380). -/
theorem State.Inv.resetInput_of_busy {s : State} (h : s.Inv) {l : Latch} (hp : s.phase = .busy l) :
    s.resetInput = false := by
  rw [← Bool.not_eq_true]
  intro hr
  obtain ⟨-, -, -, -, -, -, -, -, -, hidle⟩ := h.resetHeld hr
  exact absurd (hidle.symm.trans hp) nofun

/-- A legal DBUF_SIZE is a whole number of words (00_scope.md R6). -/
theorem State.Inv.size_mod_four {s : State} (h : s.Inv) : s.dbufsz.toNat % 4 = 0 := by
  have hall : ∀ n ∈ Config.legalDbufSizes, n.toNat % 4 = 0 := by simp [Config.legalDbufSizes]
  exact hall _ h.sizeLegal

/-! ## Each effect keeps the invariant -/

section
variable {s : State} (h : s.Inv)
include h

theorem State.Inv.quiet (rest : List Event) (r : Option BusResponse) (n : Nat) :
    State.Inv { s with inbox := rest, response := r, drawCount := n } :=
  ⟨h.sizeLegal, h.dbufWf, h.dbufInside, h.latch, h.error, h.resetHeld⟩

theorem State.Inv.resetEngine : s.resetEngine.Inv where
  sizeLegal := h.sizeLegal
  dbufWf := wf_resetEngine s
  dbufInside := nofun
  latch := nofun
  error := ⟨fun _ => ⟨rfl, rfl⟩, nofun, nofun, fun hc => absurd rfl hc⟩
  resetHeld := fun _ => atReset_resetEngine s

theorem State.Inv.enables (hr : s.resetInput = false) (d e : Bool) :
    State.Inv { s with doneIe := d, errIe := e } :=
  ⟨h.sizeLegal, h.dbufWf, h.dbufInside, h.latch, h.error, fun hc => absurd hr (ne_false_of_eq_true hc)⟩

/-- DONE may be cleared: a sound latch and a refusal have it clear. -/
theorem State.Inv.clearsDone (hr : s.resetInput = false) (b : Bool) :
    State.Inv { s with done := s.done && b } := by
  have hclear : s.done = false → (s.done && b) = false := fun hd => by rw [hd, Bool.false_and]
  obtain ⟨hnone, hsome, hbusy, hrefused⟩ := h.error
  refine ⟨h.sizeLegal, h.dbufWf, h.dbufInside, fun l hp => ?_, ⟨hnone, hsome, hbusy, fun hc hb => ?_⟩,
    fun hc => absurd hr (ne_false_of_eq_true hc)⟩
  · obtain ⟨hw, hx, hd, hacc⟩ := h.latch l hp
    exact ⟨hw, hx, hclear hd, hacc⟩
  · obtain ⟨hinfo, hidle, hd⟩ := hrefused hc hb
    exact ⟨hinfo, hidle, hclear hd⟩

/-- While BUSY no refusal is on record, so the record takes the violation or keeps an earlier one (R347). -/
theorem State.Inv.violates (hr : s.resetInput = false) {l : Latch} (hp : s.phase = .busy l)
    {o : BitVec 17} (ho : violationOffset o.toNat) :
    (s.withError .busyViolation (o.setWidth 32)).Inv := by
  have hinfo : violationOffset (o.setWidth 32).toNat := by
    rwa [BitVec.toNat_setWidth_of_le (by decide)]
  obtain ⟨-, hsome, hbusy, hrefused⟩ := h.error
  have hkept : s.err = true → s.errcode = .busyViolation := fun he => by
    by_contra hb
    obtain ⟨-, hidle, -⟩ := hrefused (hsome he) hb
    exact absurd (hidle.symm.trans hp) nofun
  have hcode : (s.withError .busyViolation (o.setWidth 32)).errcode = .busyViolation := by
    rw [withError_errcode]
    split
    · exact hkept ‹_›
    · rfl
  refine ⟨h.sizeLegal, h.dbufWf, h.dbufInside, h.latch, ⟨nofun, fun _ => ?_, fun _ => ?_, ?_⟩,
    fun hc => absurd hr (ne_false_of_eq_true hc)⟩
  · rw [hcode]
    nofun
  · rw [withError_errinfo]
    split
    · exact hbusy (hkept ‹_›)
    · exact hinfo
  · exact fun _ hb => absurd hcode hb

theorem State.Inv.writeOperand (hr : s.resetInput = false) (hp : s.phase = .idle) (i : Fin 8)
    (v : Word32) : (writeOperand i v s).Inv :=
  ⟨h.sizeLegal, h.dbufWf, h.dbufInside, fun _ hb => absurd (hp.symm.trans hb) nofun, h.error,
    fun hc => absurd hr (ne_false_of_eq_true hc)⟩

/-- A string written inside DBUF keeps its form and its bound. -/
theorem State.Inv.memWrite (hr : s.resetInput = false) {a : Nat} {bs : Bytes}
    (hin : a + bs.length ≤ s.dbufsz.toNat) : (s.memWrite a bs).Inv :=
  ⟨h.sizeLegal, wf_writeBytes h.dbufWf, writeBytes_inside h.dbufInside hin, h.latch, h.error,
    fun hc => absurd hr (ne_false_of_eq_true hc)⟩

/-- A completion leaves phase BUSY, in which no refusal is on record (R176). -/
theorem State.Inv.finish (hr : s.resetInput = false) {l : Latch} (hp : s.phase = .busy l) :
    State.Inv { s with phase := .idle, done := true } := by
  obtain ⟨hnone, hsome, hbusy, hrefused⟩ := h.error
  refine ⟨h.sizeLegal, h.dbufWf, h.dbufInside, nofun, ⟨hnone, hsome, hbusy, fun hc hb => ?_⟩,
    fun hc => absurd hr (ne_false_of_eq_true hc)⟩
  obtain ⟨-, hidle, -⟩ := hrefused hc hb
  exact absurd (hidle.symm.trans hp) nofun

/-- A refusal records its error with the refused word (R342). -/
theorem State.Inv.refuses (hr : s.resetInput = false) (hp : s.phase = .idle) (hn : s.err = false)
    (w : Word32) {e : ErrorCode} (he : e ≠ .none) (hb : e ≠ .busyViolation) :
    ((s.takeWord w).withError e w).Inv := by
  have hcode : ((s.takeWord w).withError e w).errcode = e := by simp [hn]
  have hinfo : ((s.takeWord w).withError e w).errinfo = w := by simp [hn]
  refine ⟨h.sizeLegal, h.dbufWf, h.dbufInside, fun _ hc => absurd (hp.symm.trans hc) nofun,
    ⟨nofun, fun _ => ?_, fun hc => ?_, fun _ _ => ⟨hinfo, hp, rfl⟩⟩,
    fun hc => absurd hr (ne_false_of_eq_true hc)⟩
  · rwa [hcode]
  · exact absurd (hcode.symm.trans hc) hb

/-- An accepted word is latched with the operands (R170 step 11). -/
theorem State.Inv.accepts (hr : s.resetInput = false) (hn : s.err = false) {w : Word32} {i : Instr}
    (hd : decode w = .ok i) (hacc : accepted i s.operands s.dbufsz.toNat) :
    State.Inv { s.takeWord w with phase := .busy { word := w, x := s.operands } } := by
  obtain ⟨hnone, hsome, hbusy, -⟩ := h.error
  obtain ⟨hcode, -⟩ := hnone hn
  refine ⟨h.sizeLegal, h.dbufWf, h.dbufInside, fun l hl => ?_,
    ⟨hnone, hsome, hbusy, fun hc => absurd hcode hc⟩, fun hc => absurd hr (ne_false_of_eq_true hc)⟩
  obtain rfl := Phase.busy.inj hl
  exact ⟨rfl, rfl, rfl, i, hd, hacc⟩

/-- Every effect of a step keeps the invariant. -/
theorem State.Inv.effect {t : State} (he : Effect s t) : t.Inv := by
  cases he with
  | quiet rest r n => exact h.quiet rest r n
  | resets rest r b =>
    exact ⟨h.sizeLegal, wf_resetEngine _, nofun, nofun, h.resetEngine.error,
      fun _ => atReset_resetEngine _⟩
  | enables rest r d e hr => exact (h.quiet rest r _).enables hr d e
  | clearsDone rest r b hr => exact (h.quiet rest r _).clearsDone hr b
  | violates rest r l o hr hp ho => exact (h.quiet rest r _).violates hr hp ho
  | operand rest i v hi hr hp => exact (h.quiet rest _ _).writeOperand hr hp i v
  | dbuf rest o a v hi hr hp hal ho ha =>
    refine (h.quiet rest _ _).memWrite hr ?_
    have := h.size_mod_four
    rw [length_le32]
    show a + 4 ≤ s.dbufsz.toNat
    omega
  | completes rest l i hp hd hacc =>
    have hr := h.resetInput_of_busy hp
    refine ((h.quiet rest none _).memWrite hr ?_).finish hr hp
    rw [length_result_memRead hacc]
    exact output_inside hacc
  | refuses rest w e hr hp hn hne hb => exact (h.quiet rest _ _).refuses hr hp hn w hne hb
  | accepts rest w i hi hr hp hn hd hacc => exact (h.quiet rest _ _).accepts hr hn hd hacc

end

/-! ## From every state of the invariant there is a step -/

theorem exec_idle_total {s : State} (hp : s.phase = .idle) (i : Instr) : ∃ t, exec i s = .next t :=
  ⟨_, exec_idle hp⟩

theorem writeCmd_total (o : BitVec 17) (w : Word32) (s : State) : ∃ t, writeCmd o w s = .next t := by
  unfold writeCmd
  split
  · exact ⟨_, rfl⟩
  · rename_i hb
    split
    · exact ⟨_, rfl⟩
    · unfold submitWord
      split
      · exact ⟨_, rfl⟩
      · exact exec_idle_total (not_busy_iff.mp (Bool.not_eq_true _ ▸ hb)) _

theorem performAccess_total (a : Access) (s : State) : ∃ t, performAccess a s = .next t := by
  unfold performAccess
  split
  · split
    · exact ⟨_, rfl⟩
    · unfold busWrite
      split
      · exact writeCmd_total _ _ _
      · exact ⟨_, rfl⟩
  · exact ⟨_, rfl⟩

theorem State.Inv.engineTurn_total {s : State} (h : s.Inv) : ∃ t, engineTurn s = .next t := by
  cases hp : s.phase with
  | idle => exact ⟨s, by rw [engineTurn, hp]⟩
  | busy l =>
    obtain ⟨i, hd, hacc⟩ := h.latch_accepted hp
    obtain ⟨t, ht, -⟩ := exec_busy_accepted hp hacc
    exact ⟨t, (engineTurn_exec hp hd).trans ht⟩

theorem State.Inv.performEvent_total {s : State} (h : s.Inv) (e : Event) :
    ∃ t, performEvent e s = .next t := by
  cases e with
  | access a =>
    simp only [performEvent]
    split
    · exact ⟨_, rfl⟩
    · exact performAccess_total a s
  | engineTurn => exact h.engineTurn_total
  | resetInput b => exact ⟨_, rfl⟩

/-! ## The obligations -/

/-- Settles O30: every step has one of the effects, and each of them keeps the invariant. -/
theorem stepKeepsInvariant : Obligations.StepKeepsInvariant := by
  unfold Obligations.StepKeepsInvariant
  exact fun s t h hstep => h.effect (step_effect hstep)

/-- Settles O31: the default size is legal, DBUF is empty, and no error is on record. -/
theorem resetMeetsInvariant : Obligations.ResetMeetsInvariant := by
  unfold Obligations.ResetMeetsInvariant
  have hsize : Config.defaultDbufSize ∈ Config.legalDbufSizes := by decide
  exact ⟨hsize, wf_reset, nofun, nofun, ⟨fun _ => ⟨rfl, rfl⟩, nofun, nofun, fun hc => absurd rfl hc⟩,
    nofun⟩

/-- Settles O29: only a completion can fail, and the invariant's latch holds an accepted command. -/
theorem acceptedCommandsCannotFail : Obligations.AcceptedCommandsCannotFail := by
  unfold Obligations.AcceptedCommandsCannotFail
  intro s h
  unfold step advance
  split
  · exact (h.quiet [] none _).engineTurn_total
  · rename_i e rest _
    exact (h.quiet rest none _).performEvent_total e

/-- Settles O28: a completion checks the latch again. -/
theorem unacceptedLatchFaults : Obligations.UnacceptedLatchFaults := by
  unfold Obligations.UnacceptedLatchFaults
  refine ⟨fun i s l hp hne => ?_, fun s rest l e hi hp hd => ?_, fun s l h hp => h.latch_accepted hp⟩
  · obtain ⟨e, he⟩ := Option.ne_none_iff_exists'.mp hne
    rw [exec_busy hp, completeCommand, he]
  · rw [step_engineTurn hi]
    simp only [engineTurn, stateAfter_phase, hp, hd]

end Sys2Proof.Machine

/-! SUPPORT. What can change a register, a byte of DBUF and the phase, read off the effects of a step
(spec/10_state.md R33 to R45, 20_memory.md R75, R80, 60_exceptions.md R341 to R349). -/

namespace Sys2Proof.Machine

/-! ## Reset -/

/-- In the reset state every register reads 0 and no interrupt is raised (10_state.md R45). -/
theorem views_of_atReset {s : State} (h : s.atReset) :
    s.ctrlWord = 0 ∧ s.statusWord = 0 ∧ s.errcodeWord = 0 ∧ s.irq = false := by
  obtain ⟨hdoneIe, herrIe, hdone, herr, -, hcode, -, -, -, hidle⟩ := h
  have hirq : s.irq = false := by simp [State.irq, hdoneIe, herrIe]
  refine ⟨?_, ?_, ?_, hirq⟩
  · simp [State.ctrlWord, hdoneIe, herrIe]
  · simp [State.statusWord, hirq, herr, hdone, not_busy_iff.mpr hidle]
  · simp [State.errcodeWord, hcode, ErrorCode.code]

/-- A byte that nothing has written since the reset is the draw of the reset (log 4). -/
theorem dbufByte_of_unwritten {s : State} {a : Nat} (h : Memory.read? a s.dbuf = none) :
    s.dbufByte a = Config.dbufDraw s.resetEpoch a := by
  rw [State.dbufByte, h, Option.getD_none]

theorem atReset_reset : State.reset.atReset := by
  refine ⟨rfl, rfl, rfl, rfl, rfl, rfl, rfl, fun i => ?_, fun _ => rfl, rfl⟩
  simp [State.reset, Vector.get]

/-- Settles O9: the machine at its start and after a reset is in the reset state, and the views of that state
are 0. -/
theorem resetTableValues : Obligations.ResetTableValues := by
  unfold Obligations.ResetTableValues
  refine ⟨fun t ht => ?_, fun s => ⟨rfl, rfl⟩, fun s a => dbufByte_of_unwritten⟩
  have hreset : t.atReset := by
    rcases ht with rfl | ⟨s, rfl⟩
    · exact atReset_reset
    · exact atReset_resetEngine s
  obtain ⟨hctrl, hstatus, hcode, hirq⟩ := views_of_atReset hreset
  obtain ⟨-, -, -, -, -, -, -, -, hdbuf, -⟩ := id hreset
  exact ⟨hreset, hctrl, hstatus, hcode, hirq, fun a => dbufByte_of_unwritten (hdbuf a)⟩

/-- Settles O11: the reset input resets or does nothing, and the invariant holds the reset values after it. -/
theorem resetInputResets : Obligations.ResetInputResets := by
  unfold Obligations.ResetInputResets
  refine ⟨fun s rest b hi => ⟨_, step_resetInput hi, ?_⟩, fun s rest a hi hr =>
    step_access_dropped hi hr, fun s t h hstep hr => (h.effect (step_effect hstep)).resetHeld hr⟩
  rcases driveReset_cases b (s.after rest none) with ⟨hreset, heq⟩ | ⟨rfl, hr, heq⟩
  · rw [heq]
    refine ⟨rfl, rfl, rfl, rfl, fun _ => ⟨atReset_resetEngine _, rfl, rfl⟩, fun hb hr => ?_⟩
    exact absurd hreset (by simp [hb, hr])
  · rw [heq]
    refine ⟨hr, rfl, rfl, rfl, fun hreset => ?_, fun _ _ => rfl⟩
    exact absurd hreset (by simpa using hr)

/-! ## Registers -/

/-- No step changes the read-only registers (10_state.md R33, R34). -/
theorem effect_keeps_identity {s t : State} (h : Effect s t) : t.id = s.id ∧ t.dbufsz = s.dbufsz := by
  cases h <;> exact ⟨rfl, rfl⟩

/-- Settles O12: no effect touches the two registers, and their targets ignore writes. -/
theorem identityRegistersReadOnly : Obligations.IdentityRegistersReadOnly := by
  unfold Obligations.IdentityRegistersReadOnly
  refine ⟨fun s t hstep => effect_keeps_identity (step_effect hstep), fun s rest hr => ⟨fun hi => ?_,
    fun hi => ?_⟩, fun s rest o v hi hr ho => ?_⟩
  · rw [step_mmioRead hi hr (by decide) (.inr (by rw [targetAt_id]; rfl)), targetAt_id]
    rfl
  · rw [step_mmioRead hi hr (by decide) (.inr (by rw [targetAt_dbufsz]; rfl)), targetAt_dbufsz]
    rfl
  · rcases ho with rfl | rfl
    · exact step_write_ignored hi hr (by decide) (targetAt_id s ▸ rfl) (targetAt_id s ▸ nofun)
        (targetAt_id s ▸ nofun)
    · exact step_write_ignored hi hr (by decide) (targetAt_dbufsz s ▸ rfl) (targetAt_dbufsz s ▸ nofun)
        (targetAt_dbufsz s ▸ nofun)

/-- Only a host write in phase IDLE or a reset changes A0 to A7 (10_state.md R35). -/
theorem effect_on_operands {s t : State} (h : Effect s t) :
    t.operands = s.operands ∨
      (∃ i v rest, s.inbox = .access (mmioWrite (operandOffset i) v) :: rest ∧ s.phase = .idle) ∨
      s.resetsNext := by
  cases h with
  | resets rest r b hn => exact .inr (.inr hn)
  | operand rest i v hi hr hp => exact .inr (.inl ⟨i, v, rest, hi, hp⟩)
  | quiet | enables | clearsDone | violates | dbuf | completes | refuses | accepts => exact .inl rfl

/-- Settles O13: the reads and writes of an operand register, and that no other effect changes one. -/
theorem operandRegisterAccess : Obligations.OperandRegisterAccess := by
  unfold Obligations.OperandRegisterAccess
  refine ⟨fun s rest i hi hr => ?_, fun s rest i v hi hr hp =>
    ⟨_, step_write_operand hi hr hp, ?_, fun j hj => ?_⟩,
    fun s t hstep hne => (effect_on_operands (step_effect hstep)).resolve_left hne⟩
  · have ht := targetAt_operandOffset s i
    rw [step_mmioRead hi hr (operandOffset_aligned i) (.inr (ht ▸ rfl)), ht]
    rfl
  · exact Vector.getElem_set_self i.isLt
  · exact Vector.getElem_set_ne i.isLt j.isLt fun hc => hj (Fin.ext hc.symm)

/-! ## The error state -/

/-- The record of the first error stays until a reset (60_exceptions.md R341, R343). -/
theorem effect_keeps_record {s t : State} (h : Effect s t) (he : s.err = true) :
    (t.err = true ∧ t.errcode = s.errcode ∧ t.errinfo = s.errinfo) ∨ s.resetsNext := by
  cases h with
  | resets rest r b hn => exact .inr hn
  | violates => exact .inl (by simp [he])
  | refuses rest w e hr hp hn => exact absurd he (ne_true_of_eq_false hn)
  | quiet | enables | clearsDone | operand | dbuf | completes | accepts => exact .inl ⟨he, rfl, rfl⟩

/-- Settles O16: no effect but a reset changes the record, and only CMD looks at ERR. -/
theorem errorStateIsSticky : Obligations.ErrorStateIsSticky := by
  unfold Obligations.ErrorStateIsSticky
  refine ⟨fun s t hstep he => effect_keeps_record (step_effect hstep) he,
    fun s rest w he hr hi => step_cmdWrite_ignored hi hr he, fun s rest he hp hr =>
    ⟨fun i v hi => step_write_operand hi hr hp, fun o a v hi hal hsz ho => ?_,
      fun o hi hal => step_mmioRead hi hr hal (.inl hp)⟩⟩
  exact step_write_dbuf hi hr hp (by omega) (targetAt_dbuf ho (by omega))

/-! ## Accesses while BUSY -/

/-- A read keeps the engine as it is: the answer of the bus and the count of the draws alone change (R75). -/
theorem step_mmioRead_keeps {s t : State} {rest : List Event} {o : BitVec 17}
    (hi : s.inbox = .access (mmioRead o) :: rest) (h : step s = .next t) :
    ∃ r n, t = { s with inbox := rest, response := r, drawCount := n } := by
  obtain hr | hr := Bool.eq_false_or_eq_true s.resetInput
  · obtain rfl := Host.Outcome.next.inj ((step_access_dropped hi hr).symm.trans h)
    exact ⟨none, s.drawCount, rfl⟩
  · obtain ha | ha := Bool.eq_false_or_eq_true (mmioRead o).served
    · obtain ⟨v, n, hread⟩ := busRead_eq (mmioRead o).offset (s.after rest none)
      obtain rfl := Host.Outcome.next.inj ((step_read hi hr ha rfl).symm.trans h)
      exact ⟨_, n, hread⟩
    · obtain rfl := Host.Outcome.next.inj ((step_access_rejected hi hr ha).symm.trans h)
      exact ⟨_, s.drawCount, rfl⟩

/-- Settles O17: a guarded target is a violation, the others are not; reads keep the engine as it is, and the
latched command completes whatever the error record is. (The name `busyViolation` is the model's.) -/
theorem busyViolation_settled : Obligations.BusyViolation := by
  unfold Obligations.BusyViolation
  refine ⟨fun s rest l o v hi hr hp hal => ⟨fun ho => ?_, ?_, ?_, fun ho hc hs => ?_⟩,
    fun s t rest l o hi hp hstep => ?_, fun s rest l h hi hp he => ?_⟩
  · rw [step_write_guarded hi hr hal hp ((guarded_target_iff hal).mpr ho)]
    rfl
  · rintro rfl hv
    exact step_write_ctrl hi hr hv
  · rintro rfl
    exact step_write_status hi hr
  · refine step_write_ignored hi hr hal ?_ (mt target_eq_ctrl_iff.mp hc) (mt target_eq_status_iff.mp hs)
    rw [← Bool.not_eq_true]
    exact mt (guarded_target_iff hal).mp ho
  · obtain ⟨r, n, rfl⟩ := step_mmioRead_keeps hi hstep
    exact ⟨rfl, rfl, rfl, hp, rfl⟩
  · obtain ⟨i, hd, hacc⟩ := h.latch_accepted hp
    obtain ⟨t, ht, hdone⟩ := exec_busy_accepted (s := s.after rest none) hp hacc
    have herr : t.err = true := by
      obtain ⟨-, -, -, -, -, -, -, -, herr, -⟩ := id hdone
      exact herr.trans he
    refine ⟨i, t, hd, ?_, hdone, hdone.2.1, herr⟩
    exact (step_engineTurn hi).trans ((engineTurn_exec (s := s.after rest none) hp hd).trans ht)

/-! ## DBUF -/

/-- What can change a byte of DBUF (20_memory.md R80). -/
theorem effect_on_dbufByte {s t : State} (h : Effect s t) (a : Nat) :
    t.dbufByte a = s.dbufByte a ∨
    (∃ o v rest, s.inbox = .access (mmioWrite o v) :: rest ∧ s.phase = .idle ∧ s.resetInput = false ∧
      o.toNat % 4 = 0 ∧ o.toNat ≤ 0x10000 + a ∧ 0x10000 + a < o.toNat + 4) ∨
    (∃ l i, s.phase = .busy l ∧ decode l.word = .ok i ∧ (commandOf i l.x).output.mem a ∧
      t.phase = .idle ∧ t.done = true) ∨
    s.resetsNext := by
  cases h with
  | resets rest r b hn => exact .inr (.inr (.inr hn))
  | dbuf rest o b v hi hr hp hal ho ha =>
    by_cases hin : a < b ∨ b + 4 ≤ a
    · left
      rw [dbufByte_memWrite_le32_outside _ _ _ hin]
      exact dbufByte_congr rfl rfl a
    · exact .inr (.inl ⟨o, v, rest, hi, hp, hr, hal, by omega, by omega⟩)
  | completes rest l i hp hd hacc =>
    by_cases hin : (commandOf i l.x).output.mem a
    · exact .inr (.inr (.inl ⟨l, i, hp, hd, hin, rfl, rfl⟩))
    · obtain ⟨-, -, -, hframe, -⟩ := completedWith_effect rest hacc
      exact .inl ((hframe a hin).trans (dbufByte_congr rfl rfl a))
  | quiet | enables | clearsDone | violates | operand | refuses | accepts =>
    exact .inl (dbufByte_congr rfl rfl a)

/-- Settles O22: each effect that touches DBUF is one of the three. -/
theorem dbufChangesOnlyBy : Obligations.DbufChangesOnlyBy := by
  unfold Obligations.DbufChangesOnlyBy
  exact fun s t a hstep hne => (effect_on_dbufByte (step_effect hstep) a).resolve_left hne

/-! ## The phase -/

/-- What can change the phase, and what sets DONE (10_state.md R43, 40_primitives.md R170, R176). -/
theorem effect_on_phase {s t : State} (h : Effect s t) :
    (t.phase = s.phase ∧ (s.done = false → t.done = false)) ∨
    (∃ w rest i, s.inbox = .access (cmdWrite w) :: rest ∧ s.resetInput = false ∧ s.err = false ∧
      s.phase = .idle ∧ decode w = .ok i ∧ accepted i s.operands s.dbufsz.toNat ∧
      t.phase = .busy { word := w, x := s.operands } ∧ t.done = false) ∨
    (∃ l, s.phase = .busy l ∧ t.phase = .idle ∧ t.done = true) ∨
    (s.resetsNext ∧ t.phase = .idle ∧ t.done = false) := by
  cases h with
  | quiet | enables | violates | operand | dbuf => exact .inl ⟨rfl, id⟩
  | clearsDone => exact .inl ⟨rfl, fun hd => by simp [hd]⟩
  | refuses => exact .inl ⟨rfl, fun _ => rfl⟩
  | accepts rest w i hi hr hp hn hd hacc =>
    exact .inr (.inl ⟨w, rest, i, hi, hr, hn, hp, hd, hacc, rfl, rfl⟩)
  | completes rest l i hp => exact .inr (.inr (.inl ⟨l, hp, rfl, rfl⟩))
  | resets rest r b hn => exact .inr (.inr (.inr ⟨hn, rfl, rfl⟩))

/-- Settles O23: a step keeps the phase, accepts a word, completes, or resets. -/
theorem phaseChangesOnlyBy : Obligations.PhaseChangesOnlyBy := by
  unfold Obligations.PhaseChangesOnlyBy
  intro s t hstep
  rcases effect_on_phase (step_effect hstep) with ⟨hphase, hkeep⟩ |
    ⟨w, rest, i, hi, hr, hn, hp, hd, hacc, ht, hdone⟩ | ⟨l, hp, ht, hdone⟩ | ⟨hn, ht, hdone⟩
  · refine ⟨fun l hp hb => ?_, fun l hp => .inl (hphase.trans hp), fun hd hd' => ?_⟩
    · exact absurd (hb.symm.trans (hphase.trans hp)) nofun
    · exact absurd ((hkeep hd).symm.trans hd') nofun
  · refine ⟨fun l _ hb => ⟨w, rest, hi, hr, hn, ?_, ?_⟩, fun l hb => ?_, fun _ hd' => ?_⟩
    · rw [firstFailingStep_of_decode_ok hd]
      exact hacc
    · exact Phase.busy.inj (hb.symm.trans ht)
    · exact absurd (hp.symm.trans hb) nofun
    · exact absurd (hdone.symm.trans hd') nofun
  · refine ⟨fun l' hp' => absurd (hp.symm.trans hp') nofun, fun _ _ => .inr (.inl ⟨ht, hdone⟩),
      fun _ _ => ⟨⟨l, hp⟩, ht⟩⟩
  · refine ⟨fun l _ hb => absurd (ht.symm.trans hb) nofun, fun _ _ => .inr (.inr ⟨ht, hdone, hn⟩),
      fun _ hd' => absurd (hdone.symm.trans hd') nofun⟩

/-! ## Completion -/

/-- The event that resets the engine next may reset it. -/
theorem mayReset_of_resetsNext {s : State} (h : s.resetsNext) : ∃ e ∈ s.inbox, e.mayReset := by
  rcases h with ⟨b, rest, hi, -⟩ | ⟨v, rest, hi, -, hv⟩
  · exact ⟨.resetInput b, hi ▸ List.mem_cons_self, trivial⟩
  · exact ⟨.access (mmioWrite 0x00008 v), hi ▸ List.mem_cons_self, v, rfl, hv⟩

/-- One step of a BUSY engine, with no reset next: it completes, or keeps the latch and DBUF (R80, R176). -/
theorem effect_of_busy {s t : State} (h : Effect s t) {l : Latch} {i : Instr} (hp : s.phase = .busy l)
    (hd : decode l.word = .ok i) (hn : ¬ s.resetsNext) :
    (t.phase = .idle ∧ t.done = true ∧
      t.memRead (commandOf i l.x).output = (commandOf i l.x).result s.memRead ∧
      ∀ a, ¬ (commandOf i l.x).output.mem a → t.dbufByte a = s.dbufByte a) ∨
    (t.phase = .busy l ∧ t.memRead = s.memRead ∧ t.dbufByte = s.dbufByte) := by
  cases h with
  | resets rest r b hreset => exact absurd hreset hn
  | completes rest l' j hp' hd' hacc =>
    obtain rfl : l = l' := Phase.busy.inj (hp.symm.trans hp')
    obtain rfl : i = j := Except.ok.inj (hd.symm.trans hd')
    obtain ⟨hidle, hdone, hout, hframe, -⟩ := completedWith_effect rest hacc
    exact .inl ⟨hidle, hdone, hout, hframe⟩
  | quiet | enables | clearsDone | violates => exact .inr ⟨hp, rfl, rfl⟩
  | operand _ _ _ _ _ hidle | dbuf _ _ _ _ _ _ hidle | refuses _ _ _ _ hidle
  | accepts _ _ _ _ _ hidle => exact absurd (hidle.symm.trans hp) nofun

/-- With an empty inbox a BUSY engine leaves phase BUSY (log 2). -/
theorem phase_of_step_nil {s t : State} (hi : s.inbox = []) (h : step s = .next t) :
    t.phase = .idle := by
  cases step_moves h with
  | waits _ hp => exact hp
  | completes => rfl
  | turnsIdle _ hi' | resets _ _ hi' | drops _ _ hi' | rejects _ _ hi' | reads _ _ hi'
  | writes _ _ _ hi' | violates _ _ _ _ hi' | ignores _ _ _ hi' | refusesWord _ _ _ _ hi'
  | refusesCommand _ _ _ _ _ hi' | accepts _ _ _ _ hi' => exact absurd (hi.symm.trans hi') nofun

/-- A run of one step more. -/
theorem run_succ {s u : State} (h : step s = .next u) (k : Nat) :
    Host.Core.run Sys2Proof.core (k + 1) s = Host.Core.run Sys2Proof.core k u := by
  simp only [Host.Core.run]
  rw [show Sys2Proof.core.step s = .next u from h]

/-- Settles O32: every step of a BUSY engine completes or keeps the latch, DBUF and the invariant, and takes
an event; with no event left it completes. -/
theorem busyEngineCompletes : Obligations.BusyEngineCompletes := by
  unfold Obligations.BusyEngineCompletes
  intro s l i h hp hd hquiet
  induction hi : s.inbox generalizing s with
  | nil =>
    obtain ⟨t, ht⟩ := acceptedCommandsCannotFail s h
    have hn : ¬ s.resetsNext := fun hn => by
      obtain ⟨e, he, -⟩ := mayReset_of_resetsNext hn
      simp [hi] at he
    rcases effect_of_busy (step_effect ht) hp hd hn with hdone | ⟨hbusy, -⟩
    · exact ⟨1, t, Nat.le_refl _, run_succ ht 0, hdone⟩
    · exact absurd ((phase_of_step_nil hi ht).symm.trans hbusy) nofun
  | cons e rest ih =>
    obtain ⟨u, hu⟩ := acceptedCommandsCannotFail s h
    have hn : ¬ s.resetsNext := fun hn => by
      obtain ⟨e, he, hreset⟩ := mayReset_of_resetsNext hn
      exact hquiet e he hreset
    rcases effect_of_busy (step_effect hu) hp hd hn with hdone | ⟨hbusy, hread, hbyte⟩
    · exact ⟨1, u, by simp, run_succ hu 0, hdone⟩
    · have hrest : u.inbox = rest := by rw [inbox_of_moves (step_moves hu), hi, List.tail_cons]
      obtain ⟨k, t, hk, hrun, hidle, hdone, hout, hframe⟩ :=
        ih u (stepKeepsInvariant s u h hu) hbusy
          (fun e he => hquiet e (hi ▸ .tail _ (hrest ▸ he))) hrest
      rw [hread] at hout
      rw [hbyte] at hframe
      exact ⟨k + 1, t, by simpa using hk, (run_succ hu k).trans hrun, hidle, hdone, hout, hframe⟩

end Sys2Proof.Machine

/-! SUPPORT. The arithmetic of 16-byte strings: subtraction and the doubling of XTS (spec/40_primitives.md
R144 to R146). -/

namespace Sys2Proof.Machine

/-! ## Subtraction -/

theorem leNat_lt_of_length {s : Bytes} (h : s.length = 16) : leNat s < 2 ^ 128 := by
  have := leNat_lt s
  rw [h] at this
  omega

/-- The number of `a -128 b` (R145). -/
theorem leNat_sub128 (a b : Bytes) :
    leNat (sub128 a b) = (((leNat a : Int) - leNat b) % 2 ^ 128).toNat := by
  rw [sub128, leNat_leBytes]
  omega

/-- The subtraction undoes the addition (R145). -/
theorem sub128_add128 {a : Bytes} (b : Bytes) (ha : a.length = 16) : sub128 (add128 a b) b = a := by
  have := leNat_lt_of_length ha
  refine leNat_injective (by simp [ha]) ?_
  rw [leNat_sub128, leNat_add128]
  omega

/-- The addition undoes the subtraction (R145). -/
theorem add128_sub128 {a : Bytes} (b : Bytes) (ha : a.length = 16) : add128 (sub128 a b) b = a := by
  have := leNat_lt_of_length ha
  refine leNat_injective (by simp [ha]) ?_
  rw [leNat_add128, leNat_sub128]
  omega

/-- Settles O55: the difference plus the subtrahend is the minuend mod 2^128. -/
theorem subtractionUndoesAddition : Obligations.SubtractionUndoesAddition := by
  unfold Obligations.SubtractionUndoesAddition
  refine fun a b ha _ => ⟨length_sub128 a b, ?_, sub128_add128 b ha⟩
  rw [← leNat_add128, add128_sub128 b ha]

/-! ## Doubling -/

theorem toNat_shiftLeft_or_zero : ∀ t : Byte, (t <<< 1 ||| 0#8).toNat = 2 * t.toNat % 256 + 0 := by
  decide +kernel

theorem toNat_shiftLeft_or_one : ∀ t : Byte, (t <<< 1 ||| 1#8).toNat = 2 * t.toNat % 256 + 1 := by
  decide +kernel

/-- A byte shifted left with a carry coming in. -/
theorem toNat_shiftLeft_or (t : Byte) {c : Byte} (hc : c = 0 ∨ c = 1) :
    (t <<< 1 ||| c).toNat = 2 * t.toNat % 256 + c.toNat := by
  rcases hc with rfl | rfl
  · exact toNat_shiftLeft_or_zero t
  · exact toNat_shiftLeft_or_one t

/-- The carry out of a byte shifted left is its top bit. -/
theorem carry_cases (t : Byte) :
    (t >>> 7 = 0 ∨ t >>> 7 = 1) ∧ (t >>> 7).toNat = 2 * t.toNat / 256 := by
  have ht := t.isLt
  have hn : (t >>> 7).toNat = 2 * t.toNat / 256 := by
    rw [BitVec.toNat_ushiftRight, Nat.shiftRight_eq_div_pow]
    omega
  have hcases : (t >>> 7).toNat = 0 ∨ (t >>> 7).toNat = 1 := by omega
  exact ⟨hcases.imp (fun h => BitVec.eq_of_toNat_eq h) (fun h => BitVec.eq_of_toNat_eq h), hn⟩

/-- The loop of `mulx` doubles the number, its carry out standing above the string (R146). -/
theorem leNat_shiftLeftBytes (t : Bytes) {c : Byte} (hc : c = 0 ∨ c = 1) :
    leNat (shiftLeftBytes c t).1 + 256 ^ t.length * (shiftLeftBytes c t).2.toNat =
      2 * leNat t + c.toNat ∧
    ((shiftLeftBytes c t).2 = 0 ∨ (shiftLeftBytes c t).2 = 1) := by
  induction t generalizing c with
  | nil => exact ⟨by simp [shiftLeftBytes, leNat], hc⟩
  | cons b t ih =>
    obtain ⟨hcarry, hcarryNat⟩ := carry_cases b
    obtain ⟨hsum, hout⟩ := ih hcarry
    refine ⟨?_, hout⟩
    simp only [shiftLeftBytes, leNat, List.length_cons, Nat.pow_succ']
    rw [toNat_shiftLeft_or b hc, Nat.mul_assoc]
    omega

/-- Exclusive-or into the first byte is exclusive-or into the number. -/
theorem leNat_xorFirst (v : Byte) {t : Bytes} (ht : t ≠ []) :
    leNat (xorFirst v t) = leNat t ^^^ v.toNat := by
  cases t with
  | nil => exact absurd rfl ht
  | cons b t =>
    have hb := b.isLt
    have hv := v.isLt
    have hmod : (leNat (b :: t) ^^^ v.toNat) % 2 ^ 8 = b.toNat ^^^ v.toNat := by
      rw [Nat.xor_mod_two_pow, leNat, Nat.mod_eq_of_lt hv]
      congr 1
      omega
    have hdiv : (leNat (b :: t) ^^^ v.toNat) / 2 ^ 8 = leNat t := by
      rw [Nat.xor_div_two_pow, leNat, Nat.div_eq_of_lt hv, Nat.xor_zero]
      omega
    have hsplit := Nat.mod_add_div (leNat (b :: t) ^^^ v.toNat) (2 ^ 8)
    rw [hmod, hdiv] at hsplit
    rw [xorFirst, leNat, BitVec.toNat_xor]
    exact hsplit

/-- What a carry out of the string adds to the double (R146). -/
def mulxCarry (n : Nat) : Nat := if 2 ^ 127 ≤ n then 0x87 else 0

/-- `mulx` as arithmetic (R146). -/
theorem leNat_mulx {t : Bytes} (ht : t.length = 16) :
    leNat (mulx t) = (leNat t * 2) % 2 ^ 128 ^^^ mulxCarry (leNat t) := by
  have hlt := leNat_lt_of_length ht
  have hlen : (shiftLeftBytes 0 t).1.length = 16 := by rw [length_shiftLeftBytes, ht]
  have hshift := leNat_lt_of_length hlen
  have hne : (shiftLeftBytes 0 t).1 ≠ [] := List.ne_nil_of_length_pos (by omega)
  obtain ⟨hsum, hcarry⟩ := leNat_shiftLeftBytes t (c := 0) (.inl rfl)
  rw [ht] at hsum
  unfold mulx mulxCarry
  dsimp only
  rcases hcarry with hcarry | hcarry
  · rw [hcarry] at hsum ⊢
    have hbelow : leNat (shiftLeftBytes 0 t).1 = leNat t * 2 := by simpa [Nat.mul_comm] using hsum
    rw [if_neg (by decide), if_neg (by omega), Nat.xor_zero, hbelow]
    omega
  · rw [hcarry] at hsum ⊢
    have habove : leNat (shiftLeftBytes 0 t).1 + 2 ^ 128 = leNat t * 2 := by
      simpa [Nat.mul_comm] using hsum
    rw [if_pos rfl, if_pos (by omega), leNat_xorFirst _ hne]
    congr 1
    omega

/-- The low bit of the double is the carry. -/
theorem double_mod_two (n : Nat) :
    ((n * 2) % 2 ^ 128 ^^^ mulxCarry n) % 2 ^ 1 = if 2 ^ 127 ≤ n then 1 else 0 := by
  have heven : ((n * 2) % 2 ^ 128) % 2 ^ 1 = 0 := by omega
  rw [Nat.xor_mod_two_pow, heven, Nat.zero_xor, mulxCarry]
  split <;> rfl

/-- The low bit of the double tells whether there was a carry, and then the double tells the rest. -/
theorem double_injective {m n : Nat} (hm : m < 2 ^ 128) (hn : n < 2 ^ 128)
    (h : (m * 2) % 2 ^ 128 ^^^ mulxCarry m = (n * 2) % 2 ^ 128 ^^^ mulxCarry n) : m = n := by
  have hlow : (if 2 ^ 127 ≤ m then 1 else 0) = if 2 ^ 127 ≤ n then 1 else 0 := by
    rw [← double_mod_two, h, double_mod_two]
  have hcarry : 2 ^ 127 ≤ m ↔ 2 ^ 127 ≤ n := by
    split at hlow <;> split at hlow <;> omega
  have hsame : mulxCarry m = mulxCarry n := by rw [mulxCarry, mulxCarry, if_congr hcarry rfl rfl]
  rw [hsame, Nat.xor_left_inj] at h
  omega

theorem mulx_injective {t u : Bytes} (ht : t.length = 16) (hu : u.length = 16) (h : mulx t = mulx u) :
    t = u := by
  refine leNat_injective (ht.trans hu.symm)
    (double_injective (leNat_lt_of_length ht) (leNat_lt_of_length hu) ?_)
  rw [← leNat_mulx ht, ← leNat_mulx hu, h]

/-- The doubling on the 16-byte strings. -/
def mulxVector (u : List.Vector Byte 16) : List.Vector Byte 16 :=
  ⟨mulx u.1, (length_mulx u.1).trans u.2⟩

/-- There are finitely many 16-byte strings, so the doubling reaches each of them. -/
theorem mulx_surjective {t : Bytes} (ht : t.length = 16) : ∃ u : Bytes, u.length = 16 ∧ mulx u = t := by
  have hinj : Function.Injective mulxVector := fun u v h =>
    Subtype.ext (mulx_injective u.2 v.2 (congrArg Subtype.val h))
  obtain ⟨u, hu⟩ := Finite.injective_iff_surjective.mp hinj ⟨t, ht⟩
  exact ⟨u.1, u.2, congrArg Subtype.val hu⟩

/-- Settles O56: the doubling as arithmetic, which is injective, and so surjective. -/
theorem mulxDoubles : Obligations.MulxDoubles := by
  unfold Obligations.MulxDoubles
  exact ⟨fun t ht => ⟨(length_mulx t).trans ht, leNat_mulx ht⟩, fun t u => mulx_injective,
    fun t => mulx_surjective⟩

end Sys2Proof.Machine

/-! SUPPORT. The blocks of the ChaCha12 stream by their counter (spec/41_chacha.md R200, R204), and the short
messages of AES-CMAC (45_kdf.md R314, R315). -/

namespace Sys2Proof.Machine

/-! ## The first words of a string -/

/-- An encoding cut in two (40_primitives.md R142). -/
theorem leBytes_add (m n v : Nat) : leBytes (m + n) v = leBytes m v ++ leBytes n (v / 256 ^ m) := by
  induction m generalizing v with
  | zero => simp [leBytes]
  | succ m ih =>
    rw [Nat.succ_add, leBytes, ih, leBytes, Nat.pow_succ', Nat.div_div_eq_div_mul, List.cons_append]

/-- The word at the start of a string that begins with the encoding of a number. -/
theorem le32At_leBytes_append (v : Nat) (s : Bytes) :
    le32At (leBytes 4 v ++ s) 0 = BitVec.ofNat 32 v := by
  apply BitVec.eq_of_toNat_eq
  rw [toNat_le32At, slice, List.drop_zero, List.take_left' (length_leBytes 4 v), leNat_leBytes,
    BitVec.toNat_ofNat]
  rfl

/-- A word of a string, past a first part. -/
theorem le32At_append {p s : Bytes} {n : Nat} (hp : p.length = n) (o : Nat) :
    le32At (p ++ s) (n + o) = le32At s o := by
  rw [le32At, le32At, slice, slice, ← hp, List.drop_append, List.drop_eq_nil_of_le (Nat.le_add_right _ _),
    List.nil_append, Nat.add_sub_cancel_left]

/-! ## The state of a block -/

/-- The IV with this block counter and this rest (R204). -/
def chachaIv (n : Nat) (rest : Bytes) : Bytes := leBytes 8 n ++ rest

/-- The words of the state that the counter leaves alone: constants and key (R200). -/
def chachaFixedWords (key : Bytes) : List Word32 := le32Words 4 chachaSigma ++ le32Words 8 key

/-- The state with a block counter: its two words are the low and the high half of the counter. -/
theorem chachaInit_chachaIv (key rest : Bytes) (n : Nat) :
    chachaInit key (chachaIv n rest) = chachaFixedWords key ++
      [BitVec.ofNat 32 n, BitVec.ofNat 32 (n / 2 ^ 32), le32At rest 0, le32At rest 4] := by
  have hiv : chachaIv n rest = leBytes 4 n ++ (leBytes 4 (n / 2 ^ 32) ++ rest) := by
    rw [chachaIv, show 8 = 4 + 4 from rfl, leBytes_add, List.append_assoc]
    rfl
  have h4 : le32At (chachaIv n rest) 4 = BitVec.ofNat 32 (n / 2 ^ 32) := by
    rw [hiv, le32At_append (length_leBytes 4 n) 0, le32At_leBytes_append]
  have h8 (o : Nat) : le32At (chachaIv n rest) (8 + o) = le32At rest o :=
    le32At_append (length_leBytes 8 n) o
  have h0 : le32At (chachaIv n rest) 0 = BitVec.ofNat 32 n := by rw [hiv, le32At_leBytes_append]
  show chachaFixedWords key ++ [le32At (chachaIv n rest) 0, le32At (chachaIv n rest) 4,
    le32At (chachaIv n rest) (8 + 0), le32At (chachaIv n rest) (8 + 4)] = _
  rw [h0, h4, h8, h8]

/-- One block further, on the two words of the counter. -/
theorem chachaNextBlock_append {p : List Word32} (hp : p.length = 12) (a b c d : Word32) :
    chachaNextBlock (p ++ [a, b, c, d]) =
      p ++ [a + 1, if a + 1 = 0 then b + 1 else b, c, d] := by
  have hget (k : Nat) (x : List Word32) : (p ++ x).getD (12 + k) 0 = x.getD k 0 := by
    rw [← hp, List.getD_append_right _ _ _ _ (Nat.le_add_right _ _), Nat.add_sub_cancel_left]
  have hset (k : Nat) (v : Word32) (x : List Word32) : (p ++ x).set (12 + k) v = p ++ x.set k v := by
    rw [← hp, List.set_append_right _ _ (Nat.le_add_right _ _), Nat.add_sub_cancel_left]
  unfold chachaNextBlock
  dsimp only
  rw [hget 0, hset 0, hget 0, hget 1, hset 1]
  change (if a + 1 = 0 then p ++ [a + 1, b + 1, c, d] else p ++ [a + 1, b, c, d]) = _
  split <;> rfl

/-- The two words of the counter count one further, the carry out of the low one going into the high one
(R204). -/
theorem chachaNextBlock_chachaInit (key rest : Bytes) (n : Nat) :
    chachaNextBlock (chachaInit key (chachaIv n rest)) = chachaInit key (chachaIv (n + 1) rest) := by
  have hfixed : (chachaFixedWords key).length = 12 := by simp [chachaFixedWords, le32Words]
  have hlow : BitVec.ofNat 32 n + 1 = BitVec.ofNat 32 (n + 1) := by
    rw [BitVec.ofNat_add]
    rfl
  have hhigh : (if BitVec.ofNat 32 (n + 1) = 0 then BitVec.ofNat 32 (n / 2 ^ 32) + 1
      else BitVec.ofNat 32 (n / 2 ^ 32)) = BitVec.ofNat 32 ((n + 1) / 2 ^ 32) := by
    have hzero : BitVec.ofNat 32 (n + 1) = 0 ↔ (n + 1) % 2 ^ 32 = 0 := by
      rw [← BitVec.toNat_inj, BitVec.toNat_ofNat]
      rfl
    rw [if_congr hzero rfl rfl]
    split
    · have hcarry : (n + 1) / 2 ^ 32 = n / 2 ^ 32 + 1 := by omega
      rw [hcarry, BitVec.ofNat_add]
      rfl
    · have hsame : (n + 1) / 2 ^ 32 = n / 2 ^ 32 := by omega
      rw [hsame]
  rw [chachaInit_chachaIv, chachaInit_chachaIv, chachaNextBlock_append hfixed, hlow, hhigh]

/-- The blocks from a counter on are the blocks of the counters that follow (R204). -/
theorem chachaBlocks_eq_flatMap (key rest : Bytes) (n c : Nat) :
    chachaBlocks n (chachaInit key (chachaIv c rest)) =
      (List.range n).flatMap fun j => chachaBlock (chachaInit key (chachaIv (c + j) rest)) := by
  induction n generalizing c with
  | zero => rfl
  | succ n ih =>
    rw [chachaBlocks, chachaNextBlock_chachaInit, ih, List.range_succ_eq_map, List.flatMap_cons,
      List.flatMap_map]
    simp only [Nat.succ_eq_add_one, Nat.add_assoc, Nat.add_comm 1, Nat.add_zero]

/-- Settles O58: the words 12 and 13 of the state are the halves of the counter. -/
theorem chachaBlockCounter : Obligations.ChachaBlockCounter := by
  unfold Obligations.ChachaBlockCounter
  intro key iv n hiv
  have hcounter : chachaIv (leNat (iv.take 8)) (iv.drop 8) = iv := by
    have hlen : (iv.take 8).length = 8 := by rw [List.length_take, hiv]; rfl
    have hfirst := leBytes_leNat (iv.take 8)
    rw [hlen] at hfirst
    rw [chachaIv, hfirst, List.take_append_drop]
  have hblocks := chachaBlocks_eq_flatMap key (iv.drop 8) (ceilDiv n 64) (leNat (iv.take 8))
  rw [hcounter] at hblocks
  rw [chacha12Stream, hblocks]
  rfl

/-! ## Short messages of AES-CMAC -/

@[simp] theorem length_cmacDbl (x : Bytes) : (cmacDbl x).length = 16 := by
  unfold cmacDbl
  split <;> simp

theorem xorBytes_zeroBytes_of_length {b : Bytes} {n : Nat} (h : b.length = n) :
    xorBytes (zeroBytes n) b = b :=
  h ▸ xorBytes_zeroBytes b

/-- A message of one block is masked and encrypted (45_kdf.md R314). -/
theorem cmac_of_one_block {k m : Bytes} (hcount : cmacBlockCount m = 1)
    (hlast : (cmacLast k m).length = 16) : cmac k m = aes256Enc k (cmacLast k m) := by
  rw [cmac, hcount]
  exact congrArg (aes256Enc k) (xorBytes_zeroBytes_of_length hlast)

/-- Settles O59: with 0 and 16 bytes the masked last block is the only one, with 17 it follows one block. -/
theorem cmacCornerCases : Obligations.CmacCornerCases := by
  unfold Obligations.CmacCornerCases
  refine fun key m _ => ⟨fun hm => ?_, fun hm => ?_, fun hm => ?_⟩
  · obtain rfl := List.eq_nil_of_length_eq_zero hm
    have hlast : cmacLast key [] = xorBytes (0x80 :: zeroBytes 15) (cmacK2 key) := by simp [cmacLast]
    rw [cmac_of_one_block rfl (by simp [hlast, cmacK2]), hlast]
  · have hcount : cmacBlockCount m = 1 := by rw [cmacBlockCount, hm]; rfl
    have hlast : cmacLast key m = xorBytes m (cmacK1 key) := by simp [cmacLast, hcount, hm]
    rw [cmac_of_one_block hcount (by simp [hlast, hm, cmacK1]), hlast]
  · have hcount : cmacBlockCount m = 2 := by rw [cmacBlockCount, hm]; rfl
    have hlast : cmacLast key m = xorBytes (m.drop 16 ++ 0x80 :: zeroBytes 14) (cmacK2 key) := by
      simp [cmacLast, hcount, hm]
    have hfirst : xorBytes (zeroBytes 16) (m.take 16) = m.take 16 :=
      xorBytes_zeroBytes_of_length (by simp [hm])
    rw [cmac, hcount, hlast]
    simp [slice, hfirst, List.range_succ]

end Sys2Proof.Machine

/-! SUPPORT. The AES-256 cipher and its inverse undo each other: each transformation has its inverse, and the
rounds of the one run through the rounds of the other backwards (spec/40_primitives.md R150 to R157). -/

namespace Sys2Proof.Machine

/-! ## The bytes -/

theorem map_cancel {f g : Byte → Byte} (h : ∀ b, g (f b) = b) (s : Bytes) : (s.map f).map g = s := by
  rw [List.map_map, (funext h : g ∘ f = id), List.map_id]

theorem invSubBytes_subBytes (s : Bytes) : invSubBytes (subBytes s) = s := map_cancel invSbox_sbox s

theorem subBytes_invSubBytes (s : Bytes) : subBytes (invSubBytes s) = s := map_cancel sbox_invSbox s

/-! ## The rows -/

/-- The bytes of a block in another order. -/
def permuteBytes (p : Nat → Nat) (s : Bytes) : Bytes := (List.range 16).map fun i => s.getD (p i) 0

/-- Where `ShiftRows` takes byte i from (R153). -/
def shiftIndex (i : Nat) : Nat := i % 4 + 4 * ((i / 4 + i % 4) % 4)

/-- Where `InvShiftRows` takes byte i from (R154). -/
def invShiftIndex (i : Nat) : Nat := i % 4 + 4 * ((i / 4 + 4 - i % 4) % 4)

theorem shiftRows_eq (s : Bytes) : shiftRows s = permuteBytes shiftIndex s := rfl

theorem invShiftRows_eq (s : Bytes) : invShiftRows s = permuteBytes invShiftIndex s := rfl

/-- Two orders that undo each other, on a block. -/
theorem permuteBytes_cancel {p q : Nat → Nat} (hq : ∀ i < 16, q i < 16 ∧ p (q i) = i) {s : Bytes}
    (hs : s.length = 16) : permuteBytes q (permuteBytes p s) = s := by
  refine List.ext_getElem (by simp [permuteBytes, hs]) fun i hi hi' => ?_
  obtain ⟨hlt, hpq⟩ := hq i (by simpa [permuteBytes] using hi)
  simp [permuteBytes, hlt, hpq, List.getElem?_eq_getElem hi']

theorem invShiftRows_shiftRows {s : Bytes} (hs : s.length = 16) : invShiftRows (shiftRows s) = s := by
  rw [invShiftRows_eq, shiftRows_eq]
  exact permuteBytes_cancel (by decide) hs

theorem shiftRows_invShiftRows {s : Bytes} (hs : s.length = 16) : shiftRows (invShiftRows s) = s := by
  rw [shiftRows_eq, invShiftRows_eq]
  exact permuteBytes_cancel (by decide) hs

/-! ## The columns -/

/-- Exclusive-or of two sums, summand by summand. -/
theorem xor_xor_xor_comm (a b c d : Byte) : a ^^^ b ^^^ (c ^^^ d) = a ^^^ c ^^^ (b ^^^ d) := by ac_rfl

/-- `xtime` is additive (R150). -/
theorem xtime_xor (a b : Byte) : xtime (a ^^^ b) = xtime a ^^^ xtime b := by
  have hreduce : 0x1B#8 ^^^ 0x1B#8 = 0#8 := by decide
  unfold xtime
  rw [BitVec.getLsbD_xor, BitVec.shiftLeft_xor_distrib]
  cases a.getLsbD 7 <;> cases b.getLsbD 7
  · rfl
  · exact BitVec.xor_assoc _ _ _
  · show a <<< 1 ^^^ b <<< 1 ^^^ 0x1B#8 = a <<< 1 ^^^ 0x1B#8 ^^^ b <<< 1
    ac_rfl
  · show a <<< 1 ^^^ b <<< 1 = a <<< 1 ^^^ 0x1B#8 ^^^ (b <<< 1 ^^^ 0x1B#8)
    rw [xor_xor_xor_comm, hreduce, BitVec.xor_zero]

theorem gmulBits_xor (n : Nat) (k a b : Byte) :
    gmulBits n k (a ^^^ b) = gmulBits n k a ^^^ gmulBits n k b := by
  induction n generalizing k a b with
  | zero => exact BitVec.xor_self.symm
  | succ n ih =>
    rw [gmulBits, gmulBits, gmulBits, xtime_xor, ih]
    split
    · exact xor_xor_xor_comm _ _ _ _
    · exact xor_xor_xor_comm 0 0 _ _

/-- The product in GF(2^8) is additive in its second factor (R150). -/
theorem gmul_xor (k a b : Byte) : gmul k (a ^^^ b) = gmul k a ^^^ gmul k b := gmulBits_xor 8 k a b

/-! The multiples that the two mixings take, through `xtime` (R150). -/

theorem gmul_two (v : Byte) : gmul 2 v = xtime v := by simp [gmul, gmulBits]

theorem gmul_three (v : Byte) : gmul 3 v = v ^^^ xtime v := by simp [gmul, gmulBits]

theorem gmul_nine (v : Byte) : gmul 9 v = v ^^^ xtime (xtime (xtime v)) := by simp [gmul, gmulBits]

theorem gmul_eleven (v : Byte) : gmul 11 v = v ^^^ (xtime v ^^^ xtime (xtime (xtime v))) := by
  simp [gmul, gmulBits]

theorem gmul_thirteen (v : Byte) :
    gmul 13 v = v ^^^ (xtime (xtime v) ^^^ xtime (xtime (xtime v))) := by simp [gmul, gmulBits]

theorem gmul_fourteen (v : Byte) :
    gmul 14 v = xtime v ^^^ (xtime (xtime v) ^^^ xtime (xtime (xtime v))) := by simp [gmul, gmulBits]

/-- A map of columns is additive. -/
def ColumnAdditive (f : Bytes → Bytes) : Prop :=
  ∀ s t : Bytes, s.length = 4 → t.length = 4 → f (xorBytes s t) = xorBytes (f s) (f t)

theorem columnAdditive_mixColumn : ColumnAdditive mixColumn := by
  intro s t hs ht
  obtain ⟨a, b, c, d, rfl⟩ := List.length_eq_four.mp hs
  obtain ⟨a', b', c', d', rfl⟩ := List.length_eq_four.mp ht
  simp only [xorBytes, List.zipWith_cons_cons, List.zipWith_nil_left, mixColumn, gmul_xor,
    List.cons.injEq, and_true]
  refine ⟨?_, ?_, ?_, ?_⟩ <;> ac_rfl

theorem columnAdditive_invMixColumn : ColumnAdditive invMixColumn := by
  intro s t hs ht
  obtain ⟨a, b, c, d, rfl⟩ := List.length_eq_four.mp hs
  obtain ⟨a', b', c', d', rfl⟩ := List.length_eq_four.mp ht
  simp only [xorBytes, List.zipWith_cons_cons, List.zipWith_nil_left, invMixColumn, gmul_xor,
    List.cons.injEq, and_true]
  refine ⟨?_, ?_, ?_, ?_⟩ <;> ac_rfl

theorem ColumnAdditive.comp {f g : Bytes → Bytes} (hg : ColumnAdditive g) (hf : ColumnAdditive f)
    (hlen : ∀ c, (f c).length = c.length) : ColumnAdditive (g ∘ f) := fun s t hs ht => by
  rw [Function.comp, hf s t hs ht, hg _ _ ((hlen s).trans hs) ((hlen t).trans ht)]
  rfl

/-- The columns that are 0 but for one byte. -/
def unitColumns (v : Byte) : List Bytes :=
  [[v, 0#8, 0#8, 0#8], [0#8, v, 0#8, 0#8], [0#8, 0#8, v, 0#8], [0#8, 0#8, 0#8, v]]

/-- An additive map that keeps the columns of one byte keeps every column. -/
theorem ColumnAdditive.eq_self {f : Bytes → Bytes} (hf : ColumnAdditive f)
    (hunit : ∀ v, ∀ c ∈ unitColumns v, f c = c) {s : Bytes} (hs : s.length = 4) : f s = s := by
  obtain ⟨a, b, c, d, rfl⟩ := List.length_eq_four.mp hs
  have hsum : [a, b, c, d] = xorBytes (xorBytes [a, 0, 0, 0] [0, b, 0, 0])
      (xorBytes [0, 0, c, 0] [0, 0, 0, d]) := by simp [xorBytes]
  rw [hsum, hf _ _ rfl rfl, hf _ _ rfl rfl, hf _ _ rfl rfl, hunit a [a, 0, 0, 0] (by simp [unitColumns]),
    hunit b [0, b, 0, 0] (by simp [unitColumns]), hunit c [0, 0, c, 0] (by simp [unitColumns]),
    hunit d [0, 0, 0, d] (by simp [unitColumns])]

theorem xtime_zero : xtime 0#8 = 0#8 := rfl

theorem xor_left_comm (a b c : Byte) : a ^^^ (b ^^^ c) = b ^^^ (a ^^^ c) := by ac_rfl

/-- The inverse mixing undoes the mixing on a column of one byte: the powers of x cancel in pairs. -/
theorem invMixColumn_mixColumn_unit (v : Byte) :
    ∀ c ∈ unitColumns v, (invMixColumn ∘ mixColumn) c = c := by
  simp only [unitColumns, List.forall_mem_cons, Function.comp, mixColumn, invMixColumn, gmul_two,
    gmul_three, gmul_nine, gmul_eleven, gmul_thirteen, gmul_fourteen, xtime_xor, xtime_zero,
    BitVec.xor_zero, BitVec.zero_xor, BitVec.xor_assoc]
  simp [BitVec.xor_comm, xor_left_comm]

/-- The mixing undoes the inverse mixing on a column of one byte: the powers of x cancel in pairs. -/
theorem mixColumn_invMixColumn_unit (v : Byte) :
    ∀ c ∈ unitColumns v, (mixColumn ∘ invMixColumn) c = c := by
  simp only [unitColumns, List.forall_mem_cons, Function.comp, mixColumn, invMixColumn, gmul_two,
    gmul_three, gmul_nine, gmul_eleven, gmul_thirteen, gmul_fourteen, xtime_xor, xtime_zero,
    BitVec.xor_zero, BitVec.zero_xor, BitVec.xor_assoc]
  simp [BitVec.xor_comm, xor_left_comm]

theorem invMixColumn_mixColumn {s : Bytes} (hs : s.length = 4) : invMixColumn (mixColumn s) = s :=
  (columnAdditive_invMixColumn.comp columnAdditive_mixColumn length_mixColumn).eq_self
    invMixColumn_mixColumn_unit hs

theorem mixColumn_invMixColumn {s : Bytes} (hs : s.length = 4) : mixColumn (invMixColumn s) = s :=
  (columnAdditive_mixColumn.comp columnAdditive_invMixColumn length_invMixColumn).eq_self
    mixColumn_invMixColumn_unit hs

/-- Two maps of the columns that undo each other, on a block. -/
theorem flatMap_chunks_cancel {f g : Bytes → Bytes} (hlen : ∀ c, (f c).length = c.length)
    (h : ∀ c, c.length = 4 → g (f c) = c) {s : Bytes} (hs : s.length = 16) :
    (chunks 4 ((chunks 4 s).flatMap f)).flatMap g = s := by
  have hcols := length_of_mem_chunks (n := 4) (by decide) (l := s) (by rw [hs])
  have hmapped : ∀ c ∈ (chunks 4 s).map f, c.length = 4 := by
    simp only [List.forall_mem_map, hlen]
    exact hcols
  rw [List.flatMap_def (f := f), chunks_of_flatten (by decide) hmapped, List.flatMap_def, List.map_map,
    List.map_congr_left (f := g ∘ f) (g := id) fun c hc => h c (hcols c hc), List.map_id,
    chunks_flatten (by decide)]

theorem invMixColumns_mixColumns {s : Bytes} (hs : s.length = 16) :
    invMixColumns (mixColumns s) = s :=
  flatMap_chunks_cancel length_mixColumn (fun _ => invMixColumn_mixColumn) hs

theorem mixColumns_invMixColumns {s : Bytes} (hs : s.length = 16) :
    mixColumns (invMixColumns s) = s :=
  flatMap_chunks_cancel length_invMixColumn (fun _ => mixColumn_invMixColumn) hs

/-! ## The rounds -/

/-- The last of n + 1 rounds comes after the first n (R155). -/
theorem encRounds_succ (rks : List Bytes) (n i : Nat) (s : Bytes) :
    encRounds rks (n + 1) i s =
      addRoundKey rks (i + n) (mixColumns (shiftRows (subBytes (encRounds rks n i s)))) := by
  induction n generalizing i s with
  | zero => rfl
  | succ n ih =>
    rw [encRounds, ih, Nat.add_assoc, Nat.add_comm 1]
    rfl

section
variable {rks : List Bytes} (hrk : RoundKeys rks)
include hrk

theorem addRoundKey_addRoundKey {n : Nat} (hn : n ≤ 14) {s : Bytes} (hs : s.length = 16) :
    addRoundKey rks n (addRoundKey rks n s) = s :=
  xorBytes_cancel (by rw [hs, hrk n hn])

/-- The inverse rounds run the rounds backwards (R155, R156). -/
theorem decRounds_encRounds {n : Nat} (hn : n ≤ 13) {s : Bytes} (hs : s.length = 16) :
    decRounds rks n (shiftRows (subBytes (encRounds rks n 1 s))) = shiftRows (subBytes s) := by
  induction n with
  | zero => rfl
  | succ n ih =>
    have hround : (encRounds rks (n + 1) 1 s).length = 16 := length_encRounds hrk (by omega) hs
    rw [decRounds, invShiftRows_shiftRows (by rw [length_subBytes, hround]), invSubBytes_subBytes,
      encRounds_succ, Nat.add_comm 1 n, addRoundKey_addRoundKey hrk (by omega) (by simp),
      invMixColumns_mixColumns (by simp), ih (by omega)]

/-- The rounds run the inverse rounds backwards (R155, R156). -/
theorem encRounds_decRounds {n : Nat} (hn : n ≤ 13) {s : Bytes} (hs : s.length = 16) :
    encRounds rks n 1 (invSubBytes (invShiftRows (decRounds rks n s))) =
      invSubBytes (invShiftRows s) := by
  induction n generalizing s with
  | zero => rfl
  | succ n ih =>
    have hkey : (addRoundKey rks (n + 1) (invSubBytes (invShiftRows s))).length = 16 :=
      length_addRoundKey hrk (by omega) (by simp)
    have hmix : (invMixColumns (addRoundKey rks (n + 1) (invSubBytes (invShiftRows s)))).length = 16 := by
      rw [length_invMixColumns, hkey]
    rw [encRounds_succ, decRounds, ih (by omega) hmix, subBytes_invSubBytes,
      shiftRows_invShiftRows hmix, mixColumns_invMixColumns hkey, Nat.add_comm 1 n,
      addRoundKey_addRoundKey hrk (by omega) (by simp)]

end

/-! ## The cipher -/

/-- The inverse cipher undoes the cipher (R157). -/
theorem aes256Dec_aes256Enc {key b : Bytes} (hk : key.length = 32) (hb : b.length = 16) :
    aes256Dec key (aes256Enc key b) = b := by
  have hrk := roundKeys_aesRoundKeys hk
  have hfirst : (addRoundKey (aesRoundKeys key) 0 b).length = 16 :=
    length_addRoundKey hrk (by decide) hb
  unfold aes256Dec aes256Enc
  dsimp only
  rw [addRoundKey_addRoundKey hrk (by decide) (by simp), decRounds_encRounds hrk (by decide) hfirst,
    invShiftRows_shiftRows (by rw [length_subBytes, hfirst]), invSubBytes_subBytes,
    addRoundKey_addRoundKey hrk (by decide) hb]

/-- The cipher undoes the inverse cipher (R157). -/
theorem aes256Enc_aes256Dec {key c : Bytes} (hk : key.length = 32) (hc : c.length = 16) :
    aes256Enc key (aes256Dec key c) = c := by
  have hrk := roundKeys_aesRoundKeys hk
  have hlast : (addRoundKey (aesRoundKeys key) 14 c).length = 16 :=
    length_addRoundKey hrk (by decide) hc
  unfold aes256Dec aes256Enc
  dsimp only
  rw [addRoundKey_addRoundKey hrk (by decide) (by simp), encRounds_decRounds hrk (by decide) hlast,
    subBytes_invSubBytes, shiftRows_invShiftRows hlast, addRoundKey_addRoundKey hrk (by decide) hc]

/-- Settles O50: every step of the one cipher is undone by a step of the other. -/
theorem aesCiphersInvert : Obligations.AesCiphersInvert := by
  unfold Obligations.AesCiphersInvert
  exact fun key b hk hb => ⟨length_aes256Enc hk b, length_aes256Dec hk b, aes256Dec_aes256Enc hk hb,
    aes256Enc_aes256Dec hk hb⟩

end Sys2Proof.Machine

/-! SUPPORT. The two length-preserving ciphers and their inverses (spec/43_aes_xts.md R260, R261,
44_adiantum.md R291 to R294). -/

namespace Sys2Proof.Machine

/-! ## XTS -/

/-- Blocks under one cipher and then, with the same masks, under its inverse are as before (43_aes_xts.md
R262). -/
theorem xtsBlocks_cancel {f g : Bytes → Bytes} (hf : KeepsBlocks f)
    (hgf : ∀ b, b.length = 16 → g (f b) = b) {bs : List Bytes} (hbs : ∀ b ∈ bs, b.length = 16)
    {t : Bytes} (ht : t.length = 16) :
    xtsBlocks g t (chunks 16 (xtsBlocks f t bs)) = bs.flatten := by
  induction bs generalizing t with
  | nil => rfl
  | cons b bs ih =>
    obtain ⟨hb, hbs⟩ := List.forall_mem_cons.mp hbs
    have hmasked : (xorBytes b t).length = 16 := by rw [length_xorBytes, hb, ht, Nat.min_self]
    have hout : (f (xorBytes b t)).length = 16 := hf _ hmasked
    have hblock : (xorBytes (f (xorBytes b t)) t).length = 16 := by
      rw [length_xorBytes, hout, ht, Nat.min_self]
    rw [xtsBlocks, chunks_append (by decide) hblock, xtsBlocks, ih hbs (by rw [length_mulx, ht]),
      xorBytes_cancel (by rw [hout, ht]), hgf _ hmasked, xorBytes_cancel (by rw [hb, ht]),
      List.flatten_cons]

section
variable {key p : Bytes} (tweak : Bytes) (hk : key.length = 64) (hp : p.length % 16 = 0)
include hk hp

theorem xtsDec_xtsEnc : xtsDec key tweak (xtsEnc key tweak p) = p := by
  have hhalf := length_key64_half hk (Nat.zero_le 32)
  rw [xtsDec, xtsEnc, xtsBlocks_cancel (keepsBlocks_aes256Enc hhalf)
    (fun _ hb => aes256Dec_aes256Enc hhalf hb) (length_of_mem_chunks (by decide) hp)
    (length_xtsMask hk tweak), chunks_flatten (by decide)]

theorem xtsEnc_xtsDec : xtsEnc key tweak (xtsDec key tweak p) = p := by
  have hhalf := length_key64_half hk (Nat.zero_le 32)
  rw [xtsDec, xtsEnc, xtsBlocks_cancel (keepsBlocks_aes256Dec hhalf)
    (fun _ hb => aes256Enc_aes256Dec hhalf hb) (length_of_mem_chunks (by decide) hp)
    (length_xtsMask hk tweak), chunks_flatten (by decide)]

end

/-- Settles O51: block by block, the inverse cipher under the same mask. -/
theorem xtsRoundTrip : Obligations.XtsRoundTrip := by
  unfold Obligations.XtsRoundTrip
  exact fun key tweak p hk _ hp _ => ⟨length_xtsEnc hk hp, length_xtsDec hk hp,
    xtsDec_xtsEnc tweak hk hp, xtsEnc_xtsDec tweak hk hp⟩

/-! ## Adiantum -/

/-- The AES subkey has 32 bytes (44_adiantum.md R290). -/
theorem length_adiantumKE (k : Bytes) : (adiantumKE k).length = 32 := by
  simp [adiantumKE, adiantumSubkeys]

/-- The bulk encryption undoes itself (R291, R293). -/
theorem adiantumBulk_adiantumBulk (k cm bulk : Bytes) :
    adiantumBulk k cm (adiantumBulk k cm bulk) = bulk := by
  rw [adiantumBulk, length_adiantumBulk, adiantumBulk]
  exact xorBytes_cancel (by rw [length_xchacha12Stream])

/-- `AdiantumEnc` of a left part and a last block (R291). -/
theorem adiantumEnc_append (k iv pl : Bytes) {pr : Bytes} (hpr : pr.length = 16) :
    adiantumEnc k iv (pl ++ pr) =
      let cm := aes256Enc (adiantumKE k) (add128 pr (adiantumHash (adiantumKH k) iv pl))
      let cl := adiantumBulk k cm pl
      cl ++ sub128 cm (adiantumHash (adiantumKH k) iv cl) := by
  have hlen : (pl ++ pr).length - 16 = pl.length := by rw [List.length_append, hpr, Nat.add_sub_cancel]
  simp only [adiantumEnc, hlen, List.take_left, List.drop_left]

/-- `AdiantumDec` of a left part and a last block (R293). -/
theorem adiantumDec_append (k iv cl : Bytes) {cr : Bytes} (hcr : cr.length = 16) :
    adiantumDec k iv (cl ++ cr) =
      let cm := add128 cr (adiantumHash (adiantumKH k) iv cl)
      let pl := adiantumBulk k cm cl
      pl ++ sub128 (aes256Dec (adiantumKE k) cm) (adiantumHash (adiantumKH k) iv pl) := by
  have hlen : (cl ++ cr).length - 16 = cl.length := by rw [List.length_append, hcr, Nat.add_sub_cancel]
  simp only [adiantumDec, hlen, List.take_left, List.drop_left]

/-- A string of at least 16 bytes is a left part and a last block. -/
theorem exists_append_block {p : Bytes} (hp : 16 ≤ p.length) :
    ∃ pl pr : Bytes, p = pl ++ pr ∧ pr.length = 16 := by
  refine ⟨p.take (p.length - 16), p.drop (p.length - 16), (List.take_append_drop _ p).symm, ?_⟩
  rw [List.length_drop]
  omega

theorem adiantumDec_adiantumEnc {k iv p : Bytes} (hp : 16 ≤ p.length) :
    adiantumDec k iv (adiantumEnc k iv p) = p := by
  obtain ⟨pl, pr, rfl, hpr⟩ := exists_append_block hp
  have hcm := length_aes256Enc (length_adiantumKE k) (add128 pr (adiantumHash (adiantumKH k) iv pl))
  rw [adiantumEnc_append k iv pl hpr, adiantumDec_append k iv _ (length_sub128 _ _)]
  dsimp only
  rw [add128_sub128 _ hcm, adiantumBulk_adiantumBulk,
    aes256Dec_aes256Enc (length_adiantumKE k) (length_add128 _ _), sub128_add128 _ hpr]

theorem adiantumEnc_adiantumDec {k iv p : Bytes} (hp : 16 ≤ p.length) :
    adiantumEnc k iv (adiantumDec k iv p) = p := by
  obtain ⟨cl, cr, rfl, hcr⟩ := exists_append_block hp
  have hpm := length_aes256Dec (length_adiantumKE k) (add128 cr (adiantumHash (adiantumKH k) iv cl))
  rw [adiantumDec_append k iv cl hcr, adiantumEnc_append k iv _ (length_sub128 _ _)]
  dsimp only
  rw [add128_sub128 _ hpm, aes256Enc_aes256Dec (length_adiantumKE k) (length_add128 _ _),
    adiantumBulk_adiantumBulk, sub128_add128 _ hcr]

/-- Settles O52: the decryption finds the middle block again, and with it the keystream. -/
theorem adiantumRoundTrip : Obligations.AdiantumRoundTrip := by
  unfold Obligations.AdiantumRoundTrip
  exact fun key iv p _ _ hp => ⟨length_adiantumEnc hp, length_adiantumDec hp,
    adiantumDec_adiantumEnc hp, adiantumEnc_adiantumDec hp⟩

end Sys2Proof.Machine

/-! SUPPORT. The assembler: the operands of a line, the writes that they expand to, and the command of a line
(spec/30_encoding.md R112, R113). -/

namespace Sys2Proof.Machine

/-! ## The operands of a line -/

/-- A number operand is read when the line gives it and it fits. -/
theorem number_eq_ok_iff {l : AsmLine} {n : AsmName} {bits v : Nat} :
    l.number n bits = .ok v ↔ l.value? n = some (.number v) ∧ v < 2 ^ bits := by
  unfold AsmLine.number
  split
  · rename_i hv
    simp [hv]
  · rename_i w hv
    rw [hv]
    split
    · rename_i hlt
      simp only [Except.ok.injEq, Option.some.injEq, AsmValue.number.injEq]
      exact ⟨fun h => ⟨h, h ▸ hlt⟩, And.left⟩
    · rename_i hlt
      simp only [Option.some.injEq, AsmValue.number.injEq]
      exact iff_of_false nofun fun h => hlt (h.1 ▸ h.2)
  · rename_i hv
    simp [hv]

/-- The names pass when the line gives each at most once and none but those listed (R112). -/
theorem givesOnly_eq_ok_iff {l : AsmLine} {names : List AsmName} {u : Unit} :
    l.givesOnly names = .ok u ↔
      (l.operands.map Prod.fst).Nodup ∧ ∀ n ∈ l.operands.map Prod.fst, n ∈ names := by
  unfold AsmLine.givesOnly
  split
  · rename_i hdup
    exact iff_of_false nofun fun h => hdup h.1
  · rename_i hnodup
    rw [not_not] at hnodup
    rw [and_iff_right hnodup]
    split
    · rename_i hall
      simpa using hall
    · rename_i hall
      exact iff_of_false nofun (by simpa using hall)

/-- An operand that a line gives is among its names. -/
theorem mem_names_of_value? {l : AsmLine} {n : AsmName} (h : l.value? n ≠ none) :
    n ∈ l.operands.map Prod.fst := by
  by_contra hn
  refine h (List.lookup_eq_none_iff.mpr fun p hp => ?_)
  simpa using fun hp' : n = p.1 => hn (hp' ▸ List.mem_map_of_mem hp)

section
variable {l : AsmLine} {es : List (AsmName × AsmValue)} (hperm : l.operands.Perm es)
  (hnodup : (es.map Prod.fst).Nodup)
include hperm hnodup

/-- A line that gives these operands in some order gives each its value. -/
theorem value?_of_perm {n : AsmName} {v : AsmValue} (h : (n, v) ∈ es) : l.value? n = some v := by
  have hnodup' : (l.operands.map Prod.fst).Nodup := (hperm.map Prod.fst).nodup_iff.mpr hnodup
  obtain ⟨xs, ys, hsplit⟩ := List.mem_iff_append.mp (hperm.mem_iff.mpr h)
  rw [hsplit, List.map_append, List.map_cons, List.nodup_append] at hnodup'
  obtain ⟨-, -, hapart⟩ := hnodup'
  refine List.lookup_eq_some_iff.mpr ⟨xs, ys, hsplit, fun p hp => ?_⟩
  exact bne_iff_ne.mpr (hapart p.1 (List.mem_map_of_mem hp) n List.mem_cons_self).symm

theorem givesOnly_of_perm {names : List AsmName} (h : ∀ n ∈ es.map Prod.fst, n ∈ names) :
    l.givesOnly names = .ok () :=
  givesOnly_eq_ok_iff.mpr ⟨(hperm.map Prod.fst).nodup_iff.mpr hnodup,
    fun n hn => h n ((hperm.map Prod.fst).mem_iff.mp hn)⟩

end

/-! ## The writes of the registers -/

/-- The line gives each of the registers' names its number, of 32 bits. -/
def AsmLine.GivesNumbers (l : AsmLine) (rs : List (AsmName × Fin 8)) (value : AsmName → Nat) : Prop :=
  ∀ p ∈ rs, l.value? p.1 = some (.number (value p.1)) ∧ value p.1 < 2 ^ 32

/-- The write of one register (R113). -/
def registerWrite (value : AsmName → Nat) (p : AsmName × Fin 8) : Access :=
  mmioWrite (operandOffset p.2) (BitVec.ofNat 32 (value p.1))

theorem asmWrites_of_givesNumbers {l : AsmLine} {rs : List (AsmName × Fin 8)} {value : AsmName → Nat}
    (h : l.GivesNumbers rs value) : asmWrites l rs = .ok (rs.map (registerWrite value)) := by
  induction rs with
  | nil => rfl
  | cons p rs ih =>
    obtain ⟨hp, hrs⟩ := List.forall_mem_cons.mp h
    rw [asmWrites, number_eq_ok_iff.mpr hp, ih hrs]
    rfl

/-- The number that a line gives an operand. -/
def AsmLine.numberOf (l : AsmLine) (n : AsmName) : Nat :=
  match l.value? n with
  | some (.number v) => v
  | _ => 0

theorem numberOf_eq {l : AsmLine} {n : AsmName} {v : Nat} (h : l.value? n = some (.number v)) :
    l.numberOf n = v := by
  rw [AsmLine.numberOf, h]

/-- The registers are written only where the line gives every number, and then with those numbers (R113). -/
theorem givesNumbers_of_asmWrites {l : AsmLine} {rs : List (AsmName × Fin 8)} {as : List Access}
    (h : asmWrites l rs = .ok as) :
    l.GivesNumbers rs l.numberOf ∧ as = rs.map (registerWrite l.numberOf) := by
  induction rs generalizing as with
  | nil =>
    obtain rfl := Except.ok.inj h
    exact ⟨nofun, rfl⟩
  | cons p rs ih =>
    rw [asmWrites] at h
    split at h
    · exact absurd h nofun
    · rename_i v hv
      obtain ⟨hval, hlt⟩ := number_eq_ok_iff.mp hv
      split at h
      · exact absurd h nofun
      · rename_i bs hbs
        obtain ⟨hnums, rfl⟩ := ih hbs
        obtain rfl := Except.ok.inj h
        obtain rfl := numberOf_eq hval
        exact ⟨List.forall_mem_cons.mpr ⟨⟨hval, hlt⟩, hnums⟩, rfl⟩

/-! ## The expansion -/

theorem assemble_of_command {l : AsmLine} {i : Instr} {rs : List (AsmName × Fin 8)}
    {value : AsmName → Nat} (hc : l.command = .ok (i, rs)) (h : l.GivesNumbers rs value) :
    assemble l = .ok (lineAccesses rs value (encode i)) := by
  rw [assemble, hc]
  simp only [asmWrites_of_givesNumbers h]
  rfl

/-- A line expands to the writes of its command's registers and of its command's word, and to nothing else
(R113). -/
theorem expandsTo_of_assemble {l : AsmLine} {as : List Access} (h : assemble l = .ok as) :
    ∃ i rs, l.command = .ok (i, rs) ∧ l.expandsTo rs (encode i) as := by
  rw [assemble] at h
  split at h
  · exact absurd h nofun
  · rename_i i rs hc
    split at h
    · exact absurd h nofun
    · rename_i bs hbs
      obtain ⟨hnums, rfl⟩ := givesNumbers_of_asmWrites hbs
      obtain rfl := Except.ok.inj h
      exact ⟨i, rs, hc, l.numberOf, rfl, hnums⟩

/-- A line that has no expansion is refused. -/
theorem refused_of_not_ok {l : AsmLine} (h : ∀ as, assemble l ≠ .ok as) : l.refused := by
  cases ha : assemble l with
  | error e => exact ⟨e, ha⟩
  | ok as => exact absurd ha (h as)

/-- A line that expands gives every operand of its registers. -/
theorem value?_ne_none_of_expandsTo {l : AsmLine} {rs : List (AsmName × Fin 8)} {w : Word32}
    {as : List Access} (h : l.expandsTo rs w as) {p : AsmName × Fin 8} (hp : p ∈ rs) :
    l.value? p.1 ≠ none := by
  obtain ⟨value, -, hnums⟩ := h
  rw [(hnums p hp).1]
  nofun

/-! ## The command of a line -/

theorem command_plain {l : AsmLine} {i : Instr} {rs : List (AsmName × Fin 8)}
    (hm : asmPlain l.mnemonic = some (i, rs)) {x : Instr × List (AsmName × Fin 8)} :
    l.command = .ok x ↔ l.givesOnly (rs.map Prod.fst) = .ok () ∧ x = (i, rs) := by
  rw [AsmLine.command, hm]
  dsimp only
  split
  · rename_i hg
    exact iff_of_false nofun fun h => absurd (hg.symm.trans h.1) nofun
  · rename_i hg
    rw [Except.ok.injEq, and_iff_right hg, eq_comm]

/-- The names that an HKDF_SHA512 line of a context takes (R112). -/
def hkdfNames (c : HkdfContext) : List AsmName :=
  .ctx :: (if contextTakesMode c then [.mode] else []) ++ (asmHkdf c).map Prod.fst

/-- What an HKDF_SHA512 line is: its context, its names, and its MODE byte where the context takes one
(R112). -/
theorem command_hkdf {l : AsmLine} (hm : l.mnemonic = .hkdfSha512) {x : Instr × List (AsmName × Fin 8)}
    (h : l.command = .ok x) :
    ∃ c, l.value? .ctx = some (.context c) ∧ l.givesOnly (hkdfNames c) = .ok () ∧ x.2 = asmHkdf c ∧
      ((contextTakesMode c = true ∧ ∃ m, l.value? .mode = some (.number m) ∧ m < 2 ^ 8 ∧
        x.1 = hkdfInstr c (BitVec.ofNat 8 m)) ∨
       (contextTakesMode c = false ∧ x.1 = hkdfInstr c 0)) := by
  rw [AsmLine.command, hm] at h
  dsimp only [asmPlain] at h
  split at h
  · exact absurd h nofun
  · exact absurd h nofun
  · rename_i c hctx
    split at h
    · exact absurd h nofun
    · rename_i hg
      refine ⟨c, hctx, hg, ?_⟩
      split at h
      · rename_i htakes
        split at h
        · exact absurd h nofun
        · rename_i m hmode
          obtain ⟨hval, hlt⟩ := number_eq_ok_iff.mp hmode
          obtain rfl := Except.ok.inj h
          exact ⟨rfl, .inl ⟨htakes, m, hval, hlt, rfl⟩⟩
      · rename_i htakes
        obtain rfl := Except.ok.inj h
        exact ⟨rfl, .inr ⟨Bool.not_eq_true _ ▸ htakes, rfl⟩⟩

/-- The command of an HKDF_SHA512 line that gives its context, its MODE byte and only its names (R112). -/
theorem command_of_hkdf {l : AsmLine} {c : HkdfContext} {m : Nat} (hm : l.mnemonic = .hkdfSha512)
    (hctx : l.value? .ctx = some (.context c)) (hg : l.givesOnly (hkdfNames c) = .ok ())
    (hmode : contextTakesMode c = true → l.value? .mode = some (.number m) ∧ m < 2 ^ 8) :
    l.command = .ok (hkdfInstr c (if contextTakesMode c then BitVec.ofNat 8 m else 0), asmHkdf c) := by
  rw [hkdfNames] at hg
  rw [AsmLine.command, hm]
  simp only [asmPlain, hctx, hg]
  split
  · rename_i htakes
    rw [number_eq_ok_iff.mpr (hmode htakes)]
  · rfl

/-! ## The tables -/

theorem asmPlain_of_plainLines : ∀ row ∈ plainLines, asmPlain row.1 = some row.2 := by decide

theorem registers_increase_of_plainLines :
    ∀ row ∈ plainLines, (row.2.2.map Prod.snd).Pairwise (· < ·) := by decide

theorem names_nodup_of_plainLines : ∀ row ∈ plainLines, (row.2.2.map Prod.fst).Nodup := by decide

theorem hkdfRegisters_eq (c : HkdfContext) : hkdfRegisters c = asmHkdf c := by cases c <;> rfl

theorem registers_increase_of_hkdf (c : HkdfContext) :
    ((hkdfRegisters c).map Prod.snd).Pairwise (· < ·) := by cases c <;> decide

theorem mem_modeContexts_iff (c : HkdfContext) : c ∈ modeContexts ↔ contextTakesMode c = true := by
  cases c <;> decide

theorem hkdfNames_nodup (c : HkdfContext) : (hkdfNames c).Nodup := by cases c <;> decide

theorem mode_mem_hkdfNames_iff (c : HkdfContext) : .mode ∈ hkdfNames c ↔ c ∈ modeContexts := by
  cases c <;> decide

theorem extra_mem_hkdfNames_iff (c : HkdfContext) : .extra ∈ hkdfNames c ↔ c ∈ extraContexts := by
  cases c <;> decide

/-- The word of an HKDF_SHA512 line is the encoding of its command (R100, R107). -/
theorem hkdfWord_eq (c : HkdfContext) {m : Nat} (hm : m < 2 ^ 8) :
    hkdfWord c m = encode (hkdfInstr c (if contextTakesMode c then BitVec.ofNat 8 m else 0)) := by
  have hall : ∀ n < 2 ^ 8, ∀ d ∈ contextNames.map Prod.snd, hkdfWord d n =
      encode (hkdfInstr d (if contextTakesMode d then BitVec.ofNat 8 n else 0)) := by decide +kernel
  exact hall m hm c (by cases c <;> decide)

/-! ## The obligation -/

/-- A plain line whose operands are the row's, in any order, expands (R113). -/
theorem assemble_plain_of_perm {l : AsmLine} {i : Instr} {rs : List (AsmName × Fin 8)}
    {value : AsmName → Nat} (hm : asmPlain l.mnemonic = some (i, rs))
    (hnames : (rs.map Prod.fst).Nodup) (hlt : ∀ p ∈ rs, value p.1 < 2 ^ 32)
    (hperm : l.operands.Perm (rs.map fun p => (p.1, .number (value p.1)))) :
    assemble l = .ok (lineAccesses rs value (encode i)) := by
  have hkeys : (rs.map fun p => (p.1, AsmValue.number (value p.1))).map Prod.fst = rs.map Prod.fst := by
    rw [List.map_map]
    rfl
  rw [← hkeys] at hnames
  refine assemble_of_command ((command_plain hm).mpr
    ⟨givesOnly_of_perm hperm hnames fun n hn => hkeys ▸ hn, rfl⟩) fun p hp => ⟨?_, hlt p hp⟩
  exact value?_of_perm hperm hnames (List.mem_map.mpr ⟨p, hp, rfl⟩)

/-- A plain line expands to the writes of its row's registers only (R113). -/
theorem expandsTo_of_assemble_plain {l : AsmLine} {i : Instr} {rs : List (AsmName × Fin 8)}
    {as : List Access} (hm : asmPlain l.mnemonic = some (i, rs)) (h : assemble l = .ok as) :
    l.expandsTo rs (encode i) as := by
  obtain ⟨j, rs', hc, hexp⟩ := expandsTo_of_assemble h
  obtain ⟨-, hrow⟩ := (command_plain hm).mp hc
  obtain ⟨rfl, rfl⟩ := Prod.mk.inj hrow
  exact hexp

/-- The operands of an HKDF_SHA512 line. -/
def hkdfOperands (c : HkdfContext) (value : AsmName → Nat) (m : Nat) : List (AsmName × AsmValue) :=
  (.ctx, .context c) :: (if c ∈ modeContexts then [(.mode, .number m)] else []) ++
    (hkdfRegisters c).map fun p => (p.1, .number (value p.1))

theorem names_hkdfOperands (c : HkdfContext) (value : AsmName → Nat) (m : Nat) :
    (hkdfOperands c value m).map Prod.fst = hkdfNames c := by
  cases c <;> rfl

/-- An HKDF_SHA512 line whose operands are the context's, in any order, expands (R113). -/
theorem assemble_hkdf_of_perm {l : AsmLine} {c : HkdfContext} {value : AsmName → Nat} {m : Nat}
    (hm : l.mnemonic = .hkdfSha512) (hlt : ∀ p ∈ hkdfRegisters c, value p.1 < 2 ^ 32) (hm8 : m < 2 ^ 8)
    (hperm : l.operands.Perm (hkdfOperands c value m)) :
    assemble l = .ok (lineAccesses (hkdfRegisters c) value (hkdfWord c m)) := by
  have hnodup : ((hkdfOperands c value m).map Prod.fst).Nodup :=
    names_hkdfOperands c value m ▸ hkdfNames_nodup c
  have hg := givesOnly_of_perm hperm hnodup fun n hn => names_hkdfOperands c value m ▸ hn
  have hctx : l.value? .ctx = some (.context c) :=
    value?_of_perm hperm hnodup (by simp [hkdfOperands])
  have hmode : contextTakesMode c = true → l.value? .mode = some (.number m) ∧ m < 2 ^ 8 := fun ht =>
    ⟨value?_of_perm hperm hnodup (by simp [hkdfOperands, mem_modeContexts_iff, ht]), hm8⟩
  have hcommand := command_of_hkdf hm hctx hg hmode
  rw [hkdfWord_eq c hm8, hkdfRegisters_eq] 
  refine assemble_of_command hcommand fun p hp => ⟨?_, hlt p (hkdfRegisters_eq c ▸ hp)⟩
  refine value?_of_perm hperm hnodup (List.mem_append_right _ (List.mem_map.mpr ⟨p, ?_, rfl⟩))
  exact hkdfRegisters_eq c ▸ hp

/-- What an HKDF_SHA512 line of a context that expands is, and what it expands to (R112, R113). -/
theorem expandsTo_of_assemble_hkdf {l : AsmLine} {c : HkdfContext} {as : List Access}
    (hm : l.mnemonic = .hkdfSha512) (hctx : l.value? .ctx = some (.context c))
    (h : assemble l = .ok as) :
    l.givesOnly (hkdfNames c) = .ok () ∧
      ∃ m < 2 ^ 8, (c ∈ modeContexts → l.value? .mode = some (.number m)) ∧
        l.expandsTo (hkdfRegisters c) (hkdfWord c m) as := by
  obtain ⟨i, rs, hc, hexp⟩ := expandsTo_of_assemble h
  obtain ⟨d, hd, hg, rfl, hinstr⟩ := command_hkdf hm hc
  obtain rfl : c = d := by simpa using hctx.symm.trans hd
  refine ⟨hg, ?_⟩
  rw [hkdfRegisters_eq]
  rcases hinstr with ⟨htakes, m, hmode, hm8, rfl⟩ | ⟨htakes, rfl⟩
  · refine ⟨m, hm8, fun _ => hmode, ?_⟩
    rw [hkdfWord_eq c hm8, htakes]
    exact hexp
  · refine ⟨0, by decide, fun hmem => ?_, ?_⟩
    · exact absurd ((mem_modeContexts_iff c).mp hmem) (ne_true_of_eq_false htakes)
    · rw [hkdfWord_eq c (by decide), htakes]
      exact hexp

/-- Settles O60: a line's command fixes its names and registers, and the writes need each of their numbers. -/
theorem assemblerExpansion : Obligations.AssemblerExpansion := by
  unfold Obligations.AssemblerExpansion
  refine ⟨fun row hrow l hl => ?_, fun l hl => ⟨fun hctx => ?_, fun c => ?_⟩⟩
  · have hm : asmPlain l.mnemonic = some row.2 := hl ▸ asmPlain_of_plainLines row hrow
    refine ⟨registers_increase_of_plainLines row hrow, fun value hlt hperm =>
      assemble_plain_of_perm hm (names_nodup_of_plainLines row hrow) hlt hperm,
      fun as => expandsTo_of_assemble_plain hm, fun ⟨p, hp, hnone⟩ => refused_of_not_ok fun as has => ?_⟩
    exact value?_ne_none_of_expandsTo (expandsTo_of_assemble_plain hm has) hp hnone
  · refine refused_of_not_ok fun as has => ?_
    obtain ⟨i, rs, hc, -⟩ := expandsTo_of_assemble has
    obtain ⟨d, hd, -⟩ := command_hkdf hl hc
    exact absurd (hctx.symm.trans hd) nofun
  · refine ⟨registers_increase_of_hkdf c, fun value m hlt hm8 hperm =>
      assemble_hkdf_of_perm hl hlt hm8 hperm, fun hctx => ⟨fun as has => ?_, fun ⟨p, hp, hnone⟩ => ?_,
        fun hmode hnone => ?_, fun hmode hgiven => ?_, fun hextra hgiven => ?_⟩⟩
    · exact (expandsTo_of_assemble_hkdf hl hctx has).2
    all_goals
      refine refused_of_not_ok fun as has => ?_
      obtain ⟨hg, m, -, hval, hexp⟩ := expandsTo_of_assemble_hkdf hl hctx has
      obtain ⟨-, hnames⟩ := givesOnly_eq_ok_iff.mp hg
    · exact value?_ne_none_of_expandsTo hexp hp hnone
    · exact absurd (hnone.symm.trans (hval hmode)) nofun
    · exact hmode ((mode_mem_hkdfNames_iff c).mp (hnames _ (mem_names_of_value? hgiven)))
    · exact hextra ((extra_mem_hkdfNames_iff c).mp (hnames _ (mem_names_of_value? hgiven)))

end Sys2Proof.Machine
